-- ==== Sys2Proof/Word.lean ====
section
/-! DEFINITION. The word types of the channel-control block: what the spec handles as bits, and the two raw levels. -/

namespace Sys2Proof

/-- A word of the command port or of the edge port (R60). -/
abbrev Word := BitVec 32

/-- A pin identifier (R7, PIN_W = 8). -/
abbrev Pin := BitVec 8

/-- A level or a duty value (R7, LEVEL_W = 16). -/
abbrev Intensity := BitVec 16

/-- A time in microseconds as RESOLVE and POLL carry it; bits TS_W to 63 are zero (R71, R97). -/
abbrev Timestamp := BitVec 64

/-- A channel index as a header carries it (R90, R94). -/
abbrev ChannelField := BitVec 5

/-- A raw pin level (R14). -/
inductive Level where
  | low
  | high
deriving DecidableEq, Repr, Inhabited

end Sys2Proof
end

