-- ==== Sys2Proof/Config.lean ====
section
/-! DEFINITION. The implementation parameters of R7, their legal values and the spec's defaults, and the free values the
environment supplies when no list of draws does. -/

namespace Sys2Proof

/-- What "reset debounce timestamp" does (R7, R34, C6). -/
inductive TsResetMode where
  | invalidate
  | zero
deriving DecidableEq, Repr, Inhabited

/-- The parameters of R7. MASK_W, LEVEL_W and PIN_W have one legal value each and stand in the word types. The three lists
hold one entry a channel. -/
structure Config where
  /-- `N`, the number of channels. -/
  n : Nat
  /-- `WRAP`, the top of the level range. -/
  wrap : Intensity
  /-- `FADE_STEP`, the largest change of a level in one tick. -/
  fadeStep : Intensity
  /-- `TS_W`, the width of timestamps. -/
  tsW : Nat
  /-- `DEBOUNCE_WINDOW`, in microseconds. -/
  debounceWindow : Nat
  /-- `TS_RESET_MODE`. -/
  tsResetMode : TsResetMode
  /-- `PIN_MAX`, the largest valid pin identifier. -/
  pinMax : Pin
  /-- `DEFAULT_LED_PIN[c]`, left OPEN by the spec (D9). -/
  defaultLedPin : List Pin
  /-- `DEFAULT_SENSOR_PIN[c]`, left OPEN by the spec (D9). -/
  defaultSnsPin : List Pin
  /-- `ACTIVE_LOW_RESET[c]`. -/
  activeLowReset : List Bool
deriving DecidableEq, Repr

/-- The legal values of the parameters (R7). -/
abbrev Config.Legal (cfg : Config) : Prop :=
  1 ≤ cfg.n ∧ cfg.n ≤ 32 ∧ 1 ≤ cfg.wrap.toNat ∧ 1 ≤ cfg.fadeStep.toNat ∧ 32 ≤ cfg.tsW ∧ cfg.tsW ≤ 64 ∧
    cfg.debounceWindow < 2 ^ cfg.tsW ∧ cfg.defaultLedPin.length = cfg.n ∧ cfg.defaultSnsPin.length = cfg.n ∧
    cfg.activeLowReset.length = cfg.n

/-- The spec's default of every parameter (R7). DESIGN CHOICE (log 2): the default pins, which the spec leaves OPEN, are those
of the spec's test configuration TC (95_test_vectors.md); unsafe. -/
def Config.defaults : Config where
  n := 4
  wrap := 12500
  fadeStep := 1000
  tsW := 64
  debounceWindow := 100000
  tsResetMode := .invalidate
  pinMax := 29
  defaultLedPin := [10, 11, 12, 13]
  defaultSnsPin := [2, 3, 4, 5]
  activeLowReset := [true, true, true, true]

/-- `FULL_FADE_TICKS`, the ticks of a full fade: the quotient of `WRAP` by `FADE_STEP` rounded up (R9). -/
def Config.fullFadeTicks (cfg : Config) : Nat := (cfg.wrap.toNat + cfg.fadeStep.toNat - 1) / cfg.fadeStep.toNat

/-- FREE VALUE (log 4): the level a pin shows at a sample that no list of draws answers (R70, a draw under no law). The first
argument counts the free values drawn so far. -/
opaque Config.freeLevel : Nat → Pin → Level

/-- FREE VALUE (log 5): how far the time source has moved on, in microseconds, at a read that no list of draws answers (R69, a
draw whose one law is that time does not decrease). -/
opaque Config.freeTimeStep : Nat → Nat

/-- FREE VALUE (log 7): whether the edge agent goes first at a contested step that no list of turns settles (R68: a model admits
both orders). -/
opaque Config.freeEdgeFirst : Nat → Bool

end Sys2Proof
end

