-- ==== Sys2Proof/Machine/Channel.lean ====
section
/-! DEFINITION. One channel's architectural state (R23), what makes its two sides functional (R8, R37), its reset values (R42),
and the output events with those of the reset sequence (R266, R300). -/

namespace Sys2Proof.Machine

open Sys2Proof

/-- The per-channel state (R23). -/
structure Channel where
  /-- C0 `LED_PIN[c]` (R28). -/
  ledPin : Pin
  /-- C1 `SNS_PIN[c]` (R28). -/
  snsPin : Pin
  /-- C2 `ACTIVE_LOW[c]` (R29). -/
  activeLow : Bool
  /-- C3 `CUR[c]` (R30). -/
  cur : Intensity
  /-- C4 `TGT[c]` (R31). -/
  tgt : Intensity
  /-- C5 `FADING[c]` (R32). -/
  fading : Bool
  /-- C6 `DOOR_OPEN[c]` (R33). -/
  doorOpen : Bool
  /-- C7 `LAST_TRIG[c]`, TS_W bits, the bits above them zero (R34, log 12). -/
  lastTrig : Timestamp
  /-- C8 `TS_VALID[c]` (R34). -/
  tsValid : Bool
  /-- C9 `LAST_RAW[c]` (R35). -/
  lastRaw : Level
  /-- C10 `DUTY[c]` (R36). -/
  duty : Intensity
deriving DecidableEq, Repr, Inhabited

/-- An output event (R266). -/
inductive Event where
  /-- `duty(c, v)`: a duty write (R262). -/
  | duty (c : Nat) (v : Intensity)
  /-- `pulse(c)`: a self-test pulse, whatever duty values the pin shows during it (R229). -/
  | pulse (c : Nat)
deriving DecidableEq, Repr

/-- `VALID_PIN(p)` (R8). -/
def validPin (cfg : Config) (p : Pin) : Bool := decide (p.toNat ≤ cfg.pinMax.toNat)

/-- `LED_OK(c)`: the LED side is functional (R37). -/
def Channel.ledOk (cfg : Config) (ch : Channel) : Bool := validPin cfg ch.ledPin

/-- `SNS_OK(c)`: the sensor side is functional (R37). -/
def Channel.snsOk (cfg : Config) (ch : Channel) : Bool := validPin cfg ch.snsPin

/-- `TS_VALID` after a reset or a sensor rebind (R34, R42). -/
def tsValidAtReset (cfg : Config) : Bool := cfg.tsResetMode == .zero

/-- `LAST_RAW` at reset: the level that reads as closed under the reset polarity (R42). -/
def lastRawAtReset (activeLow : Bool) : Level := if activeLow then .high else .low

/-- Channel `c` right after reset (R42). -/
def channelAtReset (cfg : Config) (c : Nat) : Channel where
  ledPin := cfg.defaultLedPin.getD c 0
  snsPin := cfg.defaultSnsPin.getD c 0
  activeLow := cfg.activeLowReset.getD c true
  cur := 0
  tgt := 0
  fading := false
  doorOpen := false
  lastTrig := 0
  tsValid := tsValidAtReset cfg
  lastRaw := lastRawAtReset (cfg.activeLowReset.getD c true)
  duty := 0

/-- Every channel right after reset. -/
def channelsAtReset (cfg : Config) : List Channel := (List.range cfg.n).map (channelAtReset cfg)

/-- `INIT` after reset: every channel's two default pins are valid (R42). -/
def initAtReset (cfg : Config) : Bool :=
  (channelsAtReset cfg).all fun ch => ch.ledOk cfg && ch.snsOk cfg

/-- The events of the reset sequence: a zero duty write on every channel, then a pulse on every functional LED channel, ending at
its level 0 (R229, R300). -/
def traceAtReset (cfg : Config) : List Event :=
  (List.range cfg.n).map (fun c => Event.duty c 0) ++
    (List.range cfg.n).flatMap fun c =>
      if (channelAtReset cfg c).ledOk cfg then [Event.pulse c, Event.duty c 0] else []

end Sys2Proof.Machine
end

