-- ==== Sys2Proof/Syntax.lean ====
section
/-! DEFINITION. The commands of the channel-control block (R93), one constructor for each row of the opcode table, and the
status codes of a response (R280). -/

namespace Sys2Proof

/-- A command with its operands (R93). An edge event is an `edge` or a `gedge` (R100). -/
inductive Instr where
  /-- RESET, R220. -/
  | reset
  /-- ISINIT, R221. -/
  | isinit
  /-- SETLED, R222: one pin a channel, channel 0 first. -/
  | setled (pins : List Pin)
  /-- SETSNS, R224: one pin a channel, channel 0 first. -/
  | setsns (pins : List Pin)
  /-- SETPOL, R226: bit c is the new `ACTIVE_LOW[c]`. -/
  | setpol (pol : Word)
  /-- SETPOLL, R227. -/
  | setpoll (on : Bool)
  /-- GETPOLL, R228. -/
  | getpoll
  /-- STEST, R234. -/
  | stest
  /-- PROCESS, R200. -/
  | process
  /-- EDGE, R130. -/
  | edge (ch : ChannelField)
  /-- GEDGE, R131. -/
  | gedge (pin : Pin) (evm : BitVec 4)
  /-- DRAIN, R132. -/
  | drain
  /-- RESOLVE, R154. -/
  | resolve (ch : ChannelField) (raw : Level) (now : Timestamp)
  /-- RETARGET, R171. -/
  | retarget (ch : ChannelField) (on : Bool)
  /-- TICK, R174. -/
  | tick (ch : ChannelField)
  /-- POLL, R191. -/
  | poll (ch : ChannelField) (raw : Level) (now : Timestamp)
deriving DecidableEq, Repr

/-- Why a word encodes no command, in the order of their priority (R98, R281). -/
inductive Rejection where
  | illegalOp
  | reservedBits
  | badChannel
deriving DecidableEq, Repr

/-- The status of a response (R280). -/
inductive Status where
  | ok
  | rejected (r : Rejection)
deriving DecidableEq, Repr

/-- `OPEN c`, the assembler's second spelling of a retarget to full intensity (R103). -/
abbrev Instr.pseudoOpen (ch : ChannelField) : Instr := .retarget ch true

/-- `CLOSE c` (R103). -/
abbrev Instr.pseudoClose (ch : ChannelField) : Instr := .retarget ch false

/-- `POLLON` (R103). -/
abbrev Instr.pseudoPollOn : Instr := .setpoll true

/-- `POLLOFF` (R103). -/
abbrev Instr.pseudoPollOff : Instr := .setpoll false

end Sys2Proof
end

