-- ==== Sys2Proof/Machine/Flags.lean ====
section
/-! DEFINITION. The comparators, the adder and the codes of the block, on one channel's values: the debounce comparator (R151),
the polarity map (R152), the saturating step (R173), the resolver's result code (R99), the status codes (R280) and the four
observable states (R202). The block has no condition codes. -/

namespace Sys2Proof.Machine

open Sys2Proof

/-- `(now - LAST_TRIG[c]) mod 2^TS_W` (R151). -/
def elapsed (cfg : Config) (now last : Timestamp) : Nat := (now - last).toNat % 2 ^ cfg.tsW

/-- `Reject(c, now)`, the debounce comparator: a strict comparison, and only while the latch is valid (R151). -/
def debounceRejects (cfg : Config) (ch : Channel) (now : Timestamp) : Bool :=
  ch.tsValid && decide (elapsed cfg now ch.lastTrig < cfg.debounceWindow)

/-- `Logical(c, raw)`: whether the level means an open door (R152). -/
def logicalOpen (ch : Channel) (raw : Level) : Bool :=
  if ch.activeLow then raw == .low else raw == .high

/-- `Step(cur, tgt)` over integers (R173). The natural subtraction stops at 0, which the maximum with the target makes the same. -/
def saturatingStep (step cur tgt : Nat) : Nat :=
  if cur < tgt then min (cur + step) tgt
  else if tgt < cur then max (cur - step) tgt
  else cur

/-- `Step(cur, tgt)` on the 16-bit elements; the result lies between them, so it fits (R11, R173, log 13). -/
def fadeStep (cfg : Config) (cur tgt : Intensity) : Intensity :=
  BitVec.ofNat 16 (saturatingStep cfg.fadeStep.toNat cur.toNat tgt.toNat)

/-- The target level of a retarget (R170). -/
def targetLevel (cfg : Config) (on : Bool) : Intensity := if on then cfg.wrap else 0

/-- The resolver's result as a response value: 0 none, 2 closed, 3 open (R99). -/
def resolveCode : Option Bool → Word
  | none => 0
  | some false => 2
  | some true => 3

/-- A boolean as a response value (R14, R99). -/
def boolCode (b : Bool) : Word := if b then 1 else 0

/-- The 3-bit status code (R280). -/
def statusCode : Status → BitVec 3
  | .ok => 0
  | .rejected .illegalOp => 1
  | .rejected .reservedBits => 2
  | .rejected .badChannel => 3

/-- The four observable states of a channel (R202). -/
inductive Obs where
  | idleClosed
  | fadingUp
  | idleOpen
  | fadingDown
deriving DecidableEq, Repr

/-- `Obs(c)` (R202). -/
def Channel.obs (cfg : Config) (ch : Channel) : Obs :=
  if ch.fading then (if ch.tgt = cfg.wrap then .fadingUp else .fadingDown)
  else if ch.doorOpen then .idleOpen else .idleClosed

end Sys2Proof.Machine
end

