-- ==== Sys2Proof/Machine/State.lean ====
section
/-! DEFINITION. The state of the machine, the reasons a step can stop, and the machine right after reset. -/

namespace Sys2Proof.Machine

open Sys2Proof

/-- A response of the command port (R99). -/
structure Response where
  /-- `STATUS`. -/
  status : Status
  /-- `VALUE`. -/
  value : Word
deriving DecidableEq, Repr

/-- The two agents that issue words (R6). -/
inductive Agent where
  | mainline
  | edge
deriving DecidableEq, Repr

/-- The state: the elements of R21 and R23, the outputs of R63, and the model's own fields, which R43 calls parameters and inputs
of a model's step. -/
structure State where
  /-- The parameters of R7; no step writes them (R43, log 1). -/
  cfg : Config
  /-- G0 `PENDING` (R24). -/
  pending : BitVec 32
  /-- G1 `POLL_EN` (R25). -/
  pollEn : Bool
  /-- G2 `INIT` (R26). -/
  init : Bool
  /-- G3 `ERR` (R27). -/
  err : Bool
  /-- The channels, channel 0 first (R20, R23). -/
  chans : List Channel
  /-- The event trace, oldest first (R266). -/
  trace : List Event
  /-- The responses of the command port, oldest first (R99). -/
  responses : List Response
  /-- A command has been rejected: the fault a model records and no later step clears (R282). -/
  faultMark : Bool
  /-- `cpos`, the word offset of the next command in the command stream (R22). -/
  cpos : Nat
  /-- The words the mainline agent has still to issue (R61, log 6). -/
  cmds : List Word
  /-- The words the edge agent has still to issue (R62, log 6). -/
  edges : List Word
  /-- Who goes first at the coming steps at which both agents can move (R64, R68, log 7). -/
  turns : List Agent
  /-- The coming pin samples (R70, log 4). -/
  samples : List Level
  /-- By how much the time source moves on before each coming read (R69, log 5). -/
  timeSteps : List Nat
  /-- The last unreduced reading of the time source (R69, log 5). -/
  clock : Nat
  /-- How many free values have been drawn (log 20). -/
  draws : Nat
deriving DecidableEq, Repr

/-- Why the machine stops. -/
inductive Fault where
  /-- Raised by `step` when the command stream ends inside a command and no edge event is left: the mainline agent is stuck with
  that command unperformed (R22, R296, D41). Safe: the machine stops where the block would wait for ever (log 10). -/
  | stuckInCommand
deriving DecidableEq, Repr

/-- Why an instruction has no meaning. -/
inductive Refusal where
  /-- Raised by `exec` for an instruction the model gives no meaning to; no arm raises it (R296). Safe: nothing can be proved of
  what the instruction does. -/
  | notModelled (mnemonic : String)
deriving DecidableEq, Repr

/-- What a step or a command answers. -/
abbrev Result := Host.Outcome State Fault Refusal

/-- The machine right after power-up at the parameters `cfg` (R42, R300, R301), with nothing placed on its inputs. -/
def State.resetWith (cfg : Config) : State where
  cfg := cfg
  pending := 0
  pollEn := false
  init := initAtReset cfg
  err := false
  chans := channelsAtReset cfg
  trace := traceAtReset cfg
  responses := []
  faultMark := false
  cpos := 0
  cmds := []
  edges := []
  turns := []
  samples := []
  timeSteps := []
  clock := 0
  draws := 0

/-- The machine right after reset at the default parameters (R7, R42). DESIGN CHOICE (log 2): the OPEN default pins are those of
the spec's test configuration; unsafe. -/
def State.reset : State := State.resetWith Config.defaults

end Sys2Proof.Machine
end

