-- ==== Sys2Proof/Machine/Ops.lean ====
section
/-! DEFINITION. The operations the commands share: responses and rejection, the edge latch, the draws of the environment, the
duty write and the event trace, the resolver, the fade engine, the polling path, the rebinds and the reset sequence. The
operations of one channel are functions of that channel; the others lift them to the state. -/

namespace Sys2Proof.Machine

open Sys2Proof

/-! ### Channels -/

/-- `S.X[c]`: channel `c` of the state (R12). -/
def State.chan (s : State) (c : Nat) : Channel := s.chans.getD c default

/-- `S.X[c] <- v` for every element of channel `c` at once (R12). -/
def State.setChan (s : State) (c : Nat) (ch : Channel) : State := { s with chans := s.chans.set c ch }

/-- "For every channel in ascending order" (R15). -/
def State.forChannels (s : State) (f : Nat → State → State) : State :=
  (List.range s.cfg.n).foldl (fun t c => f c t) s

/-! ### Responses and rejection -/

/-- `Respond(OK, value)` (R99). -/
def State.respond (s : State) (value : Word) : State :=
  { s with responses := s.responses ++ [⟨.ok, value⟩] }

/-- `raise CmdError(code)`: the sticky `ERR`, the response `(code, 0)`, and nothing else; a model records the rejection as a fault
that no later step clears (R27, R282, log 9). -/
def rejectCommand (r : Rejection) (s : State) : State :=
  { s with err := true, faultMark := true, responses := s.responses ++ [⟨.rejected r, 0⟩] }

/-! ### The edge latch -/

/-- `AtomicOr(v)` (R67). -/
def atomicOr (v : BitVec 32) (s : State) : State := { s with pending := s.pending ||| v }

/-- `AtomicXchg0()`: the state it leaves; its result is the old `pending` (R67). -/
def atomicClear (s : State) : State := { s with pending := 0 }

/-- The bit of channel `c` in the latch (R24). -/
def channelBit (c : Nat) : BitVec 32 := BitVec.ofNat 32 (2 ^ c)

/-- `Sense(p)` as a mask: every functional sensor channel bound to the pin (R131, R260). -/
def senseMask (s : State) (p : Pin) : BitVec 32 :=
  (List.range s.cfg.n).foldl
    (fun m c => if (s.chan c).snsOk s.cfg && (s.chan c).snsPin == p then m ||| channelBit c else m) 0

/-- Record an edge by channel index (R130). -/
def recordEdge (c : Nat) (s : State) : State := atomicOr (channelBit c) s

/-- Record an edge by pin, all matches in one indivisible OR (R131). -/
def recordPinEdge (p : Pin) (s : State) : State :=
  if senseMask s p = 0 then s else atomicOr (senseMask s p) s

/-! ### Draws of the environment -/

/-- `SamplePin(p)`, the level (R70): the next listed sample, or a free value when none is listed (log 4). -/
def sampledLevel (p : Pin) (s : State) : Level :=
  match s.samples with
  | l :: _ => l
  | [] => Config.freeLevel s.draws p

/-- `SamplePin(p)`, the state it leaves (R70, log 4). -/
def afterSample (s : State) : State :=
  match s.samples with
  | _ :: rest => { s with samples := rest }
  | [] => { s with draws := s.draws + 1 }

/-- The unreduced reading of the time source: never below an earlier one (R69, log 5). -/
def nextClock (s : State) : Nat :=
  match s.timeSteps with
  | d :: _ => s.clock + d
  | [] => s.clock + Config.freeTimeStep s.draws

/-- `ReadTime()`, the value reduced `mod 2^TS_W` (R69). -/
def readTime (s : State) : Timestamp := BitVec.ofNat 64 (nextClock s % 2 ^ s.cfg.tsW)

/-- `ReadTime()`, the state it leaves (R69, log 5). -/
def afterReadTime (s : State) : State :=
  match s.timeSteps with
  | _ :: rest => { s with clock := nextClock s, timeSteps := rest }
  | [] => { s with clock := nextClock s, draws := s.draws + 1 }

/-! ### Outputs -/

/-- `Emit(e)` (R266). -/
def emit (e : Event) (s : State) : State := { s with trace := s.trace ++ [e] }

/-- `DutyWrite(c, v)` (R262). -/
def dutyWrite (c : Nat) (v : Intensity) (s : State) : State :=
  emit (.duty c v) (s.setChan c { s.chan c with duty := v })

/-- `Pulse(c)`, for a functional LED channel: it ends with the duty register at the channel's level (R229). -/
def pulse (c : Nat) (s : State) : State := dutyWrite c (s.chan c).cur (emit (.pulse c) s)

/-! ### The resolver -/

/-- Whether the resolver accepts a transition: not rejected, and the level means another door state (R150). -/
def resolverAccepts (cfg : Config) (raw : Level) (now : Timestamp) (ch : Channel) : Bool :=
  !debounceRejects cfg ch now && logicalOpen ch raw != ch.doorOpen

/-- What `Resolve(c, raw, now)` returns (R150). -/
def resolveResult (cfg : Config) (raw : Level) (now : Timestamp) (ch : Channel) : Option Bool :=
  if resolverAccepts cfg raw now ch then some (logicalOpen ch raw) else none

/-- The channel `Resolve(c, raw, now)` leaves: the latch and the door state are written on an accepted transition only (R150,
R153). -/
def resolveChannel (cfg : Config) (raw : Level) (now : Timestamp) (ch : Channel) : Channel :=
  if resolverAccepts cfg raw now ch then
    { ch with lastTrig := now, tsValid := true, doorOpen := logicalOpen ch raw }
  else ch

/-! ### The fade engine -/

/-- `Retarget(c, on)` (R170). -/
def retargetChannel (cfg : Config) (on : Bool) (ch : Channel) : Channel :=
  if targetLevel cfg on = ch.tgt then ch else { ch with tgt := targetLevel cfg on, fading := true }

/-- The channel a tick of a fading channel leaves, its duty register written last (R172). -/
def tickChannel (cfg : Config) (ch : Channel) : Channel :=
  { ch with
    cur := fadeStep cfg ch.cur ch.tgt
    fading := ch.fading && fadeStep cfg ch.cur ch.tgt != ch.tgt
    duty := fadeStep cfg ch.cur ch.tgt }

/-- `Tick(c)`: nothing on a channel that is not fading, else one step, and a duty write (R172). -/
def tickAt (c : Nat) (s : State) : State :=
  if (s.chan c).fading then
    emit (.duty c (tickChannel s.cfg (s.chan c)).duty) (s.setChan c (tickChannel s.cfg (s.chan c)))
  else s

/-! ### Resolving with a retarget, and polling -/

/-- A resolve followed by a retarget on an accepted transition (R201 phase 1, R190). -/
def resolveAndRetarget (cfg : Config) (raw : Level) (now : Timestamp) (ch : Channel) : Channel :=
  match resolveResult cfg raw now ch with
  | some o => retargetChannel cfg o (resolveChannel cfg raw now ch)
  | none => resolveChannel cfg raw now ch

/-- What `Poll(c, raw, now)` returns (R190). -/
def pollResult (cfg : Config) (raw : Level) (now : Timestamp) (ch : Channel) : Option Bool :=
  if raw = ch.lastRaw then none else resolveResult cfg raw now ch

/-- The channel `Poll(c, raw, now)` leaves: `LAST_RAW` is written always (R190). -/
def pollChannel (cfg : Config) (raw : Level) (now : Timestamp) (ch : Channel) : Channel :=
  { (if raw = ch.lastRaw then ch else resolveAndRetarget cfg raw now ch) with lastRaw := raw }

/-- Sample the channel's sensor pin, then read the time, and hand both to a function of the channel (R69, R70, R201). -/
def withSample (f : Config → Level → Timestamp → Channel → Channel) (c : Nat) (s : State) : State :=
  let raw := sampledLevel (s.chan c).snsPin s
  let now := readTime (afterSample s)
  let s' := afterReadTime (afterSample s)
  s'.setChan c (f s.cfg raw now (s.chan c))

/-! ### The three phases of PROCESS -/

/-- Phase 1 for one channel: a drained bit of a functional sensor channel is resolved, a transition retargets (R201). -/
def edgePathAt (m : BitVec 32) (c : Nat) (s : State) : State :=
  if m.getLsbD c && (s.chan c).snsOk s.cfg then withSample resolveAndRetarget c s else s

/-- Phase 1 after its drain (R201). -/
def edgePath (m : BitVec 32) (s : State) : State := s.forChannels (edgePathAt m)

/-- Phase 2 for one channel: a functional sensor channel is polled (R201). -/
def pollPathAt (c : Nat) (s : State) : State :=
  if (s.chan c).snsOk s.cfg then withSample pollChannel c s else s

/-- Phase 2: the polling fallback, while enabled (R201). -/
def pollPath (s : State) : State := if s.pollEn then s.forChannels pollPathAt else s

/-- Phase 3: every fading channel ticks (R201). -/
def fadePath (s : State) : State := s.forChannels tickAt

/-- What PROCESS does with the mask its drain took (R201). -/
def processDrained (m : BitVec 32) (s : State) : State := fadePath (pollPath (edgePath m s))

/-! ### Rebinding -/

/-- `RebindLed(c, p)`: the pin, then a self-test pulse (R223, R265). -/
def rebindLed (c : Nat) (p : Pin) (s : State) : State :=
  pulse c (s.setChan c { s.chan c with ledPin := p })

/-- `RebindSensor(c, p)`: the pin, and the timestamp latch reset (R225, R265). -/
def rebindSensor (c : Nat) (p : Pin) (s : State) : State :=
  s.setChan c { s.chan c with snsPin := p, lastTrig := 0, tsValid := tsValidAtReset s.cfg }

/-- Rebind the LED side of a channel whose pin changes (R222). -/
def rebindLedAt (pins : List Pin) (c : Nat) (s : State) : State :=
  if pins.getD c 0 = (s.chan c).ledPin then s else rebindLed c (pins.getD c 0) s

/-- Rebind the sensor side of a channel whose pin changes (R224). -/
def rebindSensorAt (pins : List Pin) (c : Nat) (s : State) : State :=
  if pins.getD c 0 = (s.chan c).snsPin then s else rebindSensor c (pins.getD c 0) s

/-! ### Reset and self-test -/

/-- The first loop of the reset sequence for one channel: every element at its reset value, and a zero duty write (R300). -/
def resetChannelAt (c : Nat) (s : State) : State :=
  dutyWrite c 0 (s.setChan c { channelAtReset s.cfg c with duty := (s.chan c).duty })

/-- The second loop of the reset sequence for one channel (R300). -/
def pulseIfFunctional (c : Nat) (s : State) : State :=
  if (s.chan c).ledOk s.cfg then pulse c s else s

/-- Every channel's two pins are valid (R300: `ok`). -/
def allPinsValid (s : State) : Bool :=
  (List.range s.cfg.n).all fun c => (s.chan c).ledOk s.cfg && (s.chan c).snsOk s.cfg

/-- `ResetSequence()` (R300). The model's input fields, the history of responses and the recorded fault stay (R282, log 18). -/
def resetSequence (s : State) : State :=
  let s1 := { s with pending := 0, pollEn := false, err := false }
  let s2 := s1.forChannels resetChannelAt
  let s3 := s2.forChannels pulseIfFunctional
  { s3 with init := allPinsValid s2 }

/-- The sweep of STEST for one channel: fully on, then off (R234). -/
def sweepAt (c : Nat) (s : State) : State :=
  if (s.chan c).ledOk s.cfg then dutyWrite c 0 (dutyWrite c s.cfg.wrap s) else s

end Sys2Proof.Machine
end

