-- ==== Sys2Proof/WellFormed.lean ====
section
/-! DEFINITION. When a command's operands are ones the encoding of R97 admits, for the parameters at hand. -/

namespace Sys2Proof

/-- A channel operand names a channel (R94). -/
abbrev wfChannel (cfg : Config) (ch : ChannelField) : Prop := ch.toNat < cfg.n

/-- A pin array holds one pin a channel (R97). -/
abbrev wfPins (cfg : Config) (pins : List Pin) : Prop := pins.length = cfg.n

/-- A polarity word's bits N to 31 are zero (R97). -/
abbrev wfPolarity (cfg : Config) (pol : Word) : Prop := pol.toNat < 2 ^ cfg.n

/-- A time's bits TS_W to 63 are zero (R97). -/
abbrev wfTime (cfg : Config) (now : Timestamp) : Prop := now.toNat < 2 ^ cfg.tsW

/-- The operands are ones the encoding admits (R94, R97). -/
def Instr.wf (cfg : Config) : Instr → Bool
  | .reset => true
  | .isinit => true
  | .setled pins => decide (wfPins cfg pins)
  | .setsns pins => decide (wfPins cfg pins)
  | .setpol pol => decide (wfPolarity cfg pol)
  | .setpoll _ => true
  | .getpoll => true
  | .stest => true
  | .process => true
  | .edge ch => decide (wfChannel cfg ch)
  | .gedge _ _ => true
  | .drain => true
  | .resolve ch _ now => decide (wfTime cfg now) && decide (wfChannel cfg ch)
  | .retarget ch _ => decide (wfChannel cfg ch)
  | .tick ch => decide (wfChannel cfg ch)
  | .poll ch _ now => decide (wfTime cfg now) && decide (wfChannel cfg ch)

end Sys2Proof
end

