-- ==== Sys2Proof/Machine/Operands.lean ====
section
/-! DEFINITION. The operand forms of the commands: a channel (R94), a time (R97), a pin array (R97), a polarity word (R97). Each
hands the operand on when it is one the encoding admits, and rejects the command as the decoder would when it is not (log 11). -/

namespace Sys2Proof.Machine

open Sys2Proof

/-- A channel operand: `CH >= N` is rejected with BAD_CHANNEL (R94). -/
def withChannel (ch : ChannelField) (s : State) (body : Nat → State → State) : State :=
  if ch.toNat < s.cfg.n then body ch.toNat s else rejectCommand .badChannel s

/-- A time operand: a set bit at or above TS_W is rejected with RESERVED_BITS (R97). -/
def withTime (now : Timestamp) (s : State) (body : State → State) : State :=
  if now.toNat < 2 ^ s.cfg.tsW then body s else rejectCommand .reservedBits s

/-- A pin array: one pin a channel; no encoding carries another number of pins (R97). -/
def withPins (pins : List Pin) (s : State) (body : State → State) : State :=
  if pins.length = s.cfg.n then body s else rejectCommand .reservedBits s

/-- A polarity word: a set bit at or above N is rejected with RESERVED_BITS (R97). -/
def withPolarity (pol : Word) (s : State) (body : State → State) : State :=
  if pol.toNat < 2 ^ s.cfg.n then body s else rejectCommand .reservedBits s

/-- Every pin of the array is valid (R222, R224). -/
def pinsValid (cfg : Config) (pins : List Pin) : Bool := pins.all (validPin cfg)

end Sys2Proof.Machine
end

