-- ==== Sys2Proof/Machine/ConfigSurface.lean ====
section
/-! DEFINITION. The configuration and self-test commands: RESET, ISINIT, SETLED, SETSNS, SETPOL, SETPOLL, GETPOLL, STEST. -/

namespace Sys2Proof.Machine

open Sys2Proof

/-- RESET (R220). -/
def execReset (s : State) : Result :=
  .next ((resetSequence s).respond (boolCode (resetSequence s).init))

/-- ISINIT (R221). -/
def execIsinit (s : State) : Result := .next (s.respond (boolCode s.init))

/-- SETLED: refused as a whole on one invalid pin (R222, R232, R283). -/
def execSetled (pins : List Pin) (s : State) : Result :=
  .next (withPins pins s fun s =>
    if pinsValid s.cfg pins then (s.forChannels (rebindLedAt pins)).respond 1 else s.respond 0)

/-- SETSNS: refused as a whole on one invalid pin (R224, R232, R283). -/
def execSetsns (pins : List Pin) (s : State) : Result :=
  .next (withPins pins s fun s =>
    if pinsValid s.cfg pins then (s.forChannels (rebindSensorAt pins)).respond 1 else s.respond 0)

/-- SETPOL: the polarities and nothing else (R226). -/
def execSetpol (pol : Word) (s : State) : Result :=
  .next (withPolarity pol s fun s =>
    (s.forChannels fun c t => t.setChan c { t.chan c with activeLow := pol.getLsbD c }).respond 0)

/-- SETPOLL (R227). -/
def execSetpoll (on : Bool) (s : State) : Result := .next (State.respond { s with pollEn := on } 0)

/-- GETPOLL (R228). -/
def execGetpoll (s : State) : Result := .next (s.respond (boolCode s.pollEn))

/-- STEST (R234). -/
def execStest (s : State) : Result := .next ((s.forChannels sweepAt).respond 0)

end Sys2Proof.Machine
end

