-- ==== Sys2Proof/Machine/Debounce.lean ====
section
/-! DEFINITION. The debounce comparator as a command: RESOLVE. -/

namespace Sys2Proof.Machine

open Sys2Proof

/-- RESOLVE: the resolver on a given level and time; it retargets nothing, draws nothing and leaves `LAST_RAW` (R154). -/
def execResolve (ch : ChannelField) (raw : Level) (now : Timestamp) (s : State) : Result :=
  .next (withTime now s fun s => withChannel ch s fun c t =>
    (t.setChan c (resolveChannel t.cfg raw now (t.chan c))).respond
      (resolveCode (resolveResult t.cfg raw now (t.chan c))))

end Sys2Proof.Machine
end

