-- ==== Sys2Proof/Machine/Fade.lean ====
section
/-! DEFINITION. The fade engine as commands: RETARGET and TICK. -/

namespace Sys2Proof.Machine

open Sys2Proof

/-- RETARGET (R171). -/
def execRetarget (ch : ChannelField) (on : Bool) (s : State) : Result :=
  .next (withChannel ch s fun c t => (t.setChan c (retargetChannel t.cfg on (t.chan c))).respond 0)

/-- TICK (R174). -/
def execTick (ch : ChannelField) (s : State) : Result :=
  .next (withChannel ch s fun c t => (tickAt c t).respond 0)

end Sys2Proof.Machine
end

