-- ==== Sys2Proof/Machine/Polling.lean ====
section
/-! DEFINITION. The polling fallback as a command: POLL. -/

namespace Sys2Proof.Machine

open Sys2Proof

/-- POLL: the polling path on a given level and time, whatever `POLL_EN` is (R191). -/
def execPoll (ch : ChannelField) (raw : Level) (now : Timestamp) (s : State) : Result :=
  .next (withTime now s fun s => withChannel ch s fun c t =>
    (t.setChan c (pollChannel t.cfg raw now (t.chan c))).respond
      (resolveCode (pollResult t.cfg raw now (t.chan c))))

end Sys2Proof.Machine
end

