-- ==== Sys2Proof/Machine/Sequencer.lean ====
section
/-! DEFINITION. The tick sequencer: PROCESS. -/

namespace Sys2Proof.Machine

open Sys2Proof

/-- PROCESS, one atomic step: drain, edge path, polling fallback, fade engine (R65, R200, R201, log 8). -/
def execProcess (s : State) : Result :=
  .next ((processDrained s.pending (atomicClear s)).respond 0)

end Sys2Proof.Machine
end

