-- ==== Sys2Proof/Machine/SignalIntake.lean ====
section
/-! DEFINITION. The edge-latch synchronizer on the command port: EDGE, GEDGE and DRAIN. -/

namespace Sys2Proof.Machine

open Sys2Proof

/-- EDGE (R130). -/
def execEdge (ch : ChannelField) (s : State) : Result :=
  .next (withChannel ch s fun c t => (recordEdge c t).respond 0)

/-- GEDGE; the event mask is carried and not read (R131). -/
def execGedge (pin : Pin) (_evm : BitVec 4) (s : State) : Result :=
  .next ((recordPinEdge pin s).respond 0)

/-- DRAIN (R132). -/
def execDrain (s : State) : Result :=
  .next ((atomicClear s).respond s.pending)

end Sys2Proof.Machine
end

