-- ==== Sys2Proof/Machine/Dispatch.lean ====
section
/-! DEFINITION. The meaning of each command on the command port, one arm a constructor. -/

namespace Sys2Proof.Machine

open Sys2Proof

def exec (i : Instr) (s : State) : Host.Outcome State Fault Refusal :=
  match i with
  | .reset => Sys2Proof.Machine.execReset s
  | .isinit => Sys2Proof.Machine.execIsinit s
  | .setled pins => Sys2Proof.Machine.execSetled pins s
  | .setsns pins => Sys2Proof.Machine.execSetsns pins s
  | .setpol pol => Sys2Proof.Machine.execSetpol pol s
  | .setpoll on => Sys2Proof.Machine.execSetpoll on s
  | .getpoll => Sys2Proof.Machine.execGetpoll s
  | .stest => Sys2Proof.Machine.execStest s
  | .process => Sys2Proof.Machine.execProcess s
  | .edge ch => Sys2Proof.Machine.execEdge ch s
  | .gedge pin evm => Sys2Proof.Machine.execGedge pin evm s
  | .drain => Sys2Proof.Machine.execDrain s
  | .resolve ch raw now => Sys2Proof.Machine.execResolve ch raw now s
  | .retarget ch on => Sys2Proof.Machine.execRetarget ch on s
  | .tick ch => Sys2Proof.Machine.execTick ch s
  | .poll ch raw now => Sys2Proof.Machine.execPoll ch raw now s

end Sys2Proof.Machine
end

