-- ==== Sys2Proof/Decode.lean ====
section
/-! DEFINITION. The decoder of R101, total on every header and operand sequence, and the encoder of R90, R93 and R97. -/

namespace Sys2Proof

/-! ### The opcode map and the formats -/

/-- The assigned opcodes (R93). -/
inductive Opcode where
  | reset | isinit | setled | setsns | setpol | setpoll | getpoll | stest
  | process | edge | gedge | drain | resolve | retarget | tick | poll
deriving DecidableEq, Repr

/-- The header formats (R91). -/
inductive Format where
  | h | c | cb | cbt | bf | g | a8 | a1
deriving DecidableEq, Repr

/-- The `OP` field of each opcode (R93). -/
def Opcode.code : Opcode → BitVec 5
  | .reset => 0x01
  | .isinit => 0x02
  | .setled => 0x03
  | .setsns => 0x04
  | .setpol => 0x05
  | .setpoll => 0x06
  | .getpoll => 0x07
  | .stest => 0x08
  | .process => 0x09
  | .edge => 0x0A
  | .gedge => 0x0B
  | .drain => 0x0C
  | .resolve => 0x0D
  | .retarget => 0x0E
  | .tick => 0x0F
  | .poll => 0x10

/-- The header with every free field zero, `OP << 27` (R93). -/
def Opcode.baseHeader (o : Opcode) : Word := o.code.setWidth 32 <<< (27 : Nat)

/-- The opcode an `OP` field assigns; 0x00 and 0x11 to 0x1F assign none (R93, R98). -/
def opcodeOf (op : BitVec 5) : Option Opcode :=
  match op.toNat with
  | 0x01 => some .reset
  | 0x02 => some .isinit
  | 0x03 => some .setled
  | 0x04 => some .setsns
  | 0x05 => some .setpol
  | 0x06 => some .setpoll
  | 0x07 => some .getpoll
  | 0x08 => some .stest
  | 0x09 => some .process
  | 0x0A => some .edge
  | 0x0B => some .gedge
  | 0x0C => some .drain
  | 0x0D => some .resolve
  | 0x0E => some .retarget
  | 0x0F => some .tick
  | 0x10 => some .poll
  | _ => none

/-- The format of each opcode (R93). -/
def Opcode.format : Opcode → Format
  | .reset => .h
  | .isinit => .h
  | .setled => .a8
  | .setsns => .a8
  | .setpol => .a1
  | .setpoll => .bf
  | .getpoll => .h
  | .stest => .h
  | .process => .h
  | .edge => .c
  | .gedge => .g
  | .drain => .h
  | .resolve => .cbt
  | .retarget => .cb
  | .tick => .c
  | .poll => .cbt

/-- `FREE`, the header bits a format leaves free (R91). -/
def Format.free : Format → Word
  | .h => 0x00000000
  | .c => 0x07C00000
  | .cb => 0x07E00000
  | .cbt => 0x07E00000
  | .bf => 0x00200000
  | .g => 0x0000FF0F
  | .a8 => 0x00000000
  | .a1 => 0x00000000

/-- `LEGAL_MASK`, the bits a decoder compares (R91). -/
def Format.legalMask (f : Format) : Word := ~~~ f.free

/-- `NPW`, the pin-array words of SETLED and SETSNS (R91). -/
def pinWords (n : Nat) : Nat := (n + 3) / 4

/-- How many operand words follow a header of this format (R91, R92). -/
def Format.operandWords (cfg : Config) : Format → Nat
  | .cbt => 2
  | .a8 => pinWords cfg.n
  | .a1 => 1
  | _ => 0

/-- Whether the header names a channel, so that `CH >= N` is rejected (R94). -/
def Format.namesChannel : Format → Bool
  | .c => true
  | .cb => true
  | .cbt => true
  | _ => false

/-! ### The fields of a header and of the operand words -/

/-- `OP`, bits 31:27 (R90). -/
def opField (w : Word) : BitVec 5 := w.extractLsb' 27 5

/-- `CH`, bits 26:22 (R90, R94). -/
def chField (w : Word) : ChannelField := w.extractLsb' 22 5

/-- `B`, bit 21 (R90, R95). -/
def bField (w : Word) : Bool := w.getLsbD 21

/-- `PIN`, bits 15:8 (R90, R96). -/
def pinField (w : Word) : Pin := w.extractLsb' 8 8

/-- `EVM`, bits 3:0 (R90, R96). -/
def evmField (w : Word) : BitVec 4 := w.extractLsb' 0 4

/-- The raw level a `B` bit stands for (R14, R95). -/
def levelOfBit (b : Bool) : Level := if b then .high else .low

/-- The `B` bit of a raw level (R14, R95). -/
def bitOfLevel : Level → Bool
  | .low => false
  | .high => true

/-- The pin-array slot of channel `c`: with c = 4k + j, bits 8j+7 : 8j of operand word k (R97). -/
def pinSlot (ops : List Word) (c : Nat) : Pin := (ops.getD (c / 4) 0).extractLsb' (8 * (c % 4)) 8

/-- The pins of channels 0 to n - 1 (R97). -/
def pinsOf (n : Nat) (ops : List Word) : List Pin := (List.range n).map (pinSlot ops)

/-- The time `{now_hi, now_lo}`, its less significant word first (R71, R97). -/
def timeOf (ops : List Word) : Timestamp := ops.getD 1 0 ++ ops.getD 0 0

/-- The polarity word (R97). -/
def polarityOf (ops : List Word) : Word := ops.getD 0 0

/-- Whether a reserved bit of the operand words is set: a pin slot at or above N, a polarity bit at or above N, a time bit at or
above TS_W (R97, R98). -/
def operandReserved (cfg : Config) (f : Format) (ops : List Word) : Bool :=
  match f with
  | .a8 => (List.range (4 * pinWords cfg.n)).any fun c => decide (cfg.n ≤ c) && pinSlot ops c != 0
  | .a1 => decide (2 ^ cfg.n ≤ (polarityOf ops).toNat)
  | .cbt => decide (2 ^ cfg.tsW ≤ (timeOf ops).toNat)
  | _ => false

/-! ### Decoding -/

/-- What a header and its operand words decode to: a command, or the reason they encode none (R101). -/
inductive Decoded where
  | ok (i : Instr)
  | rejected (r : Rejection)
deriving DecidableEq, Repr

/-- The command an opcode makes of its fields (R93 to R97). -/
def instrOf (cfg : Config) (o : Opcode) (w0 : Word) (ops : List Word) : Instr :=
  match o with
  | .reset => .reset
  | .isinit => .isinit
  | .setled => .setled (pinsOf cfg.n ops)
  | .setsns => .setsns (pinsOf cfg.n ops)
  | .setpol => .setpol (polarityOf ops)
  | .setpoll => .setpoll (bField w0)
  | .getpoll => .getpoll
  | .stest => .stest
  | .process => .process
  | .edge => .edge (chField w0)
  | .gedge => .gedge (pinField w0) (evmField w0)
  | .drain => .drain
  | .resolve => .resolve (chField w0) (levelOfBit (bField w0)) (timeOf ops)
  | .retarget => .retarget (chField w0) (bField w0)
  | .tick => .tick (chField w0)
  | .poll => .poll (chField w0) (levelOfBit (bField w0)) (timeOf ops)

/-- The three checks of R101 in their order, then the command. -/
def decodeAs (cfg : Config) (o : Opcode) (w0 : Word) (ops : List Word) : Decoded :=
  if w0 &&& o.format.legalMask ≠ o.baseHeader then .rejected .reservedBits
  else if operandReserved cfg o.format ops then .rejected .reservedBits
  else if o.format.namesChannel && decide (cfg.n ≤ (chField w0).toNat) then .rejected .badChannel
  else .ok (instrOf cfg o w0 ops)

/-- `Decode` of R101, on a header and the operand words that follow it; a missing operand word reads as zero. -/
def decode (cfg : Config) (w0 : Word) (ops : List Word) : Decoded :=
  match opcodeOf (opField w0) with
  | none => .rejected .illegalOp
  | some o => decodeAs cfg o w0 ops

/-- How many operand words follow a header: none after an unassigned opcode (R92). -/
def operandCount (cfg : Config) (w0 : Word) : Nat :=
  match opcodeOf (opField w0) with
  | none => 0
  | some o => o.format.operandWords cfg

/-- The length of a command in words (R92). -/
def commandLength (cfg : Config) (w0 : Word) : Nat := 1 + operandCount cfg w0

/-- The first command of a stream: its header, its operand words and the words after it; none where the stream is empty or ends
inside the command (R22, R72). -/
def takeCommand (cfg : Config) : List Word → Option (Word × List Word × List Word)
  | [] => none
  | w0 :: rest =>
    if operandCount cfg w0 ≤ rest.length then
      some (w0, rest.take (operandCount cfg w0), rest.drop (operandCount cfg w0))
    else none

/-- A whole word sequence read as one command (R101). -/
def decodeWords (cfg : Config) : List Word → Option Decoded
  | [] => none
  | w0 :: ops => some (decode cfg w0 ops)

/-! ### Encoding -/

/-- The opcode of a command (R93). -/
def Instr.opcode : Instr → Opcode
  | .reset => .reset
  | .isinit => .isinit
  | .setled _ => .setled
  | .setsns _ => .setsns
  | .setpol _ => .setpol
  | .setpoll _ => .setpoll
  | .getpoll => .getpoll
  | .stest => .stest
  | .process => .process
  | .edge _ => .edge
  | .gedge _ _ => .gedge
  | .drain => .drain
  | .resolve _ _ _ => .resolve
  | .retarget _ _ => .retarget
  | .tick _ => .tick
  | .poll _ _ _ => .poll

/-- `header = {OP, CH, B, 0b00000, PIN, 0b0000, EVM}` (R90). -/
def header (o : Opcode) (ch : ChannelField) (b : Bool) (pin : Pin) (evm : BitVec 4) : Word :=
  o.code ++ ch ++ BitVec.ofBool b ++ 0#5 ++ pin ++ 0#4 ++ evm

/-- The pin-array words: four pins a word, channel 0 in the low byte of the first, absent slots zero (R97). -/
def packPins (pins : List Pin) : List Word :=
  (List.range (pinWords pins.length)).map fun k =>
    pins.getD (4 * k + 3) 0 ++ pins.getD (4 * k + 2) 0 ++ pins.getD (4 * k + 1) 0 ++ pins.getD (4 * k) 0

/-- The two time words, `now_lo` then `now_hi` (R97). -/
def packTime (now : Timestamp) : List Word := [now.extractLsb' 0 32, now.extractLsb' 32 32]

/-- The words of a command, header first (R90 to R97). -/
def encode (i : Instr) : List Word :=
  match i with
  | .setled pins => header .setled 0 false 0 0 :: packPins pins
  | .setsns pins => header .setsns 0 false 0 0 :: packPins pins
  | .setpol pol => [header .setpol 0 false 0 0, pol]
  | .setpoll on => [header .setpoll 0 on 0 0]
  | .edge ch => [header .edge ch false 0 0]
  | .gedge pin evm => [header .gedge 0 false pin evm]
  | .resolve ch raw now => header .resolve ch (bitOfLevel raw) 0 0 :: packTime now
  | .retarget ch on => [header .retarget ch on 0 0]
  | .tick ch => [header .tick ch false 0 0]
  | .poll ch raw now => header .poll ch (bitOfLevel raw) 0 0 :: packTime now
  | .reset => [header .reset 0 false 0 0]
  | .isinit => [header .isinit 0 false 0 0]
  | .getpoll => [header .getpoll 0 false 0 0]
  | .stest => [header .stest 0 false 0 0]
  | .process => [header .process 0 false 0 0]
  | .drain => [header .drain 0 false 0 0]

/-! ### One row of the opcode table -/

/-- The words of an instruction whose bits are `w`, the first word in bits 31:0, the next in bits 63:32 and so on, every bit at
or above `nbits` zero, as many words as the header asks for (log 19). -/
def tableWords (cfg : Config) (nbits w : Nat) : List Word :=
  let bits := w % 2 ^ nbits
  let w0 := BitVec.ofNat 32 bits
  w0 :: (List.range (operandCount cfg w0)).map fun k => BitVec.ofNat 32 (bits >>> (32 * (k + 1)))

/-- The command the decoder reads from an instruction whose bits are `w`, at the default parameters. -/
def decodeTableWord (nbits w : Nat) : Option Instr :=
  match decodeWords Config.defaults (tableWords Config.defaults nbits w) with
  | some (.ok i) => some i
  | _ => none

end Sys2Proof
end

