-- ==== Sys2Proof/Machine/Ports.lean ====
section
/-! DEFINITION. The two ports: which agent moves, what it issues, and what an edge event does. -/

namespace Sys2Proof.Machine

open Sys2Proof

/-- What the next transaction is (R6, R64). -/
inductive Move where
  /-- Neither agent has a word: the block waits (R301). -/
  | wait
  /-- The command stream ends inside a command and no edge event is left (R22, R296). -/
  | stuck
  /-- The edge agent issues an edge event; the state is the one that event is performed on. -/
  | edge (w : Word) (s : State)
  /-- The mainline agent issues a command: its header and operand words; the state is the one it is performed on. -/
  | command (w0 : Word) (ops : List Word) (s : State)
deriving DecidableEq, Repr

/-- The next command leaves the command stream and `cpos` advances by its length (R22, R72). -/
def issueCommand (w0 : Word) (ops rest : List Word) (s : State) : Move :=
  .command w0 ops { s with cmds := rest, cpos := s.cpos + (1 + ops.length) }

/-- The next edge event leaves the edge stream (R62). -/
def issueEdge (w : Word) (rest : List Word) (s : State) : Move := .edge w { s with edges := rest }

/-- Whether the edge agent goes first at a step at which both agents can move: as the next listed turn says, or free when none is
listed (R68, log 7). -/
def edgeGoesFirst (s : State) : Bool :=
  match s.turns with
  | a :: _ => a == .edge
  | [] => Config.freeEdgeFirst s.draws

/-- The state after that choice (log 7). -/
def afterTurn (s : State) : State :=
  match s.turns with
  | _ :: rest => { s with turns := rest }
  | [] => { s with draws := s.draws + 1 }

/-- The next transaction. An agent that can move is never held up by one that cannot; when both can, the turn says who goes first
(R64, R68, R77, logs 6, 7 and 10). -/
def nextMove (s : State) : Move :=
  match takeCommand s.cfg s.cmds, s.edges with
  | some (w0, ops, rest), [] => issueCommand w0 ops rest s
  | some (w0, ops, rest), w :: ws =>
    if edgeGoesFirst s then issueEdge w ws (afterTurn s) else issueCommand w0 ops rest (afterTurn s)
  | none, w :: ws => issueEdge w ws s
  | none, [] => if s.cmds = [] then .wait else .stuck

/-- An edge event: an EDGE or a GEDGE is one atomic OR; every other word is dropped without effect (R62, R100). -/
def edgeEvent (w : Word) (s : State) : State :=
  match decode s.cfg w [] with
  | .ok (.edge ch) => recordEdge ch.toNat s
  | .ok (.gedge pin _) => recordPinEdge pin s
  | _ => s

/-- A word sequence placed so that it is the next command issued (log 6); that `cpos` stays is the model's choice (log 24,
DESIGN CHOICE). -/
def placeCommand (ws : List Word) (s : State) : State :=
  { s with cmds := ws ++ s.cmds, turns := if s.edges = [] then s.turns else .mainline :: s.turns }

end Sys2Proof.Machine
end

