-- ==== Sys2Proof/Machine/Step.lean ====
section
/-! DEFINITION. One step of the machine: one transaction of one agent (R6, R64). -/

namespace Sys2Proof.Machine

open Sys2Proof

/-- One transaction: an edge event, a command performed, or a command rejected; with no word left the block waits (R301), and a
stream that ends inside a command is stuck (R296). -/
def step (s : State) : Host.Outcome State Fault Refusal :=
  match nextMove s with
  | .wait => .next s
  | .stuck => .fault .stuckInCommand
  | .edge w t => .next (edgeEvent w t)
  | .command w0 ops t =>
    match decode t.cfg w0 ops with
    | .ok i => exec i t
    | .rejected r => .next (rejectCommand r t)

/-- The state whose next step runs the instruction with the bits `w` of a table row: its words stand first in the command
stream, and the mainline agent has the turn (logs 6 and 19). -/
def State.withFetchWord (s : State) (nbits w : Nat) : State := placeCommand (tableWords s.cfg nbits w) s

end Sys2Proof.Machine
end

