-- ==== Sys2Proof/Machine/Assembler.lean ====
section
/-! DEFINITION. The assembler syntax of R102 with the pseudo-instructions of R103, read and written, and a program as the transactions of the two
ports in their order (95_test_vectors.md, L3). -/

namespace Sys2Proof.Machine

open Sys2Proof

/-- A token of a source line (R102). -/
inductive Token where
  | word (cs : List Char)
  | comma
  | colon
  | open
  | close
  | other
deriving DecidableEq, Repr

/-- A run of letters and digits read so far, as a token when there is one. -/
def flushWord (acc : List Char) (ts : List Token) : List Token :=
  if acc.isEmpty then ts else .word acc.reverse :: ts

/-- The tokens of a line; `;` starts a comment (R102). The first argument is the word being read, last character first. -/
def tokenize : List Char → List Char → List Token
  | acc, [] => flushWord acc []
  | acc, c :: cs =>
    if c.isAlphanum then tokenize (c :: acc) cs
    else if c = ';' then flushWord acc []
    else if c = ',' then flushWord acc (.comma :: tokenize [] cs)
    else if c = ':' then flushWord acc (.colon :: tokenize [] cs)
    else if c = '[' then flushWord acc (.open :: tokenize [] cs)
    else if c = ']' then flushWord acc (.close :: tokenize [] cs)
    else if c.isWhitespace then flushWord acc (tokenize [] cs)
    else flushWord acc (.other :: tokenize [] cs)

/-- The value of a hexadecimal digit. -/
def hexDigit (c : Char) : Option Nat :=
  if c.isDigit then some (c.toNat - '0'.toNat)
  else if 'a' ≤ c ∧ c ≤ 'f' then some (c.toNat - 'a'.toNat + 10)
  else if 'A' ≤ c ∧ c ≤ 'F' then some (c.toNat - 'A'.toNat + 10)
  else none

/-- A run of digits in a base, most significant first. -/
def digits (base : Nat) (cs : List Char) : Option Nat :=
  if cs.isEmpty then none
  else cs.foldl (fun v c => do
    let v ← v
    let d ← hexDigit c
    if d < base then some (v * base + d) else none) (some 0)

/-- A number, decimal or with the `0x` of a hexadecimal one (R102). -/
def number : List Char → Option Nat
  | '0' :: 'x' :: cs => digits 16 cs
  | cs => digits 10 cs

/-- An operand that is a number or a level name (R102). -/
def operand (cs : List Char) : Option Nat :=
  if cs = "LOW".toList then some 0 else if cs = "HIGH".toList then some 1 else number cs

/-- Operands separated by commas. -/
def operandList : List Token → Option (List Nat)
  | [.word cs] => (operand cs).map ([·])
  | .word cs :: .comma :: rest => do
    let v ← operand cs
    let vs ← operandList rest
    some (v :: vs)
  | _ => none

/-- The operands of a line: none, an array in brackets, or a comma-separated list (R102). The flag says whether they stood in
brackets. -/
def operands : List Token → Option (Bool × List Nat)
  | [] => some (false, [])
  | .open :: rest =>
    match rest.getLast? with
    | some .close => (operandList rest.dropLast).map fun vs => (true, vs)
    | _ => none
  | ts => (operandList ts).map fun vs => (false, vs)

/-- A number as a one-bit operand. -/
def bitOperand : Nat → Option Bool
  | 0 => some false
  | 1 => some true
  | _ => none

/-- A number as an operand of `w` bits, refused when it does not fit. -/
def fieldOperand (w v : Nat) : Option (BitVec w) := if v < 2 ^ w then some (BitVec.ofNat w v) else none

/-- The polarity word of an array of bits, channel 0 first (R97, R102). -/
def polarityOperand (bits : List Nat) : Option Word :=
  (bits.mapM bitOperand).map fun bs => BitVec.ofNat 32 (bs.foldr (fun b v => 2 * v + b.toNat) 0)

/-- The command a mnemonic makes of its operands (R102, R103). -/
def assembleOp (mnemonic : List Char) (inBrackets : Bool) (vs : List Nat) : Option Instr :=
  match String.ofList mnemonic, inBrackets, vs with
  | "RESET", false, [] => some .reset
  | "ISINIT", false, [] => some .isinit
  | "GETPOLL", false, [] => some .getpoll
  | "STEST", false, [] => some .stest
  | "PROCESS", false, [] => some .process
  | "DRAIN", false, [] => some .drain
  | "SETLED", true, pins => (pins.mapM (fieldOperand 8)).map .setled
  | "SETSNS", true, pins => (pins.mapM (fieldOperand 8)).map .setsns
  | "SETPOL", true, bits => (polarityOperand bits).map .setpol
  | "SETPOLL", false, [b] => (bitOperand b).map .setpoll
  | "EDGE", false, [c] => (fieldOperand 5 c).map .edge
  | "TICK", false, [c] => (fieldOperand 5 c).map .tick
  | "GEDGE", false, [p, e] => do
    let pin ← fieldOperand 8 p
    let evm ← fieldOperand 4 e
    some (.gedge pin evm)
  | "RETARGET", false, [c, b] => do
    let ch ← fieldOperand 5 c
    let on ← bitOperand b
    some (.retarget ch on)
  | "RESOLVE", false, [c, r, t] => do
    let ch ← fieldOperand 5 c
    let raw ← bitOperand r
    let now ← fieldOperand 64 t
    some (.resolve ch (levelOfBit raw) now)
  | "POLL", false, [c, r, t] => do
    let ch ← fieldOperand 5 c
    let raw ← bitOperand r
    let now ← fieldOperand 64 t
    some (.poll ch (levelOfBit raw) now)
  | "OPEN", false, [c] => (fieldOperand 5 c).map Instr.pseudoOpen
  | "CLOSE", false, [c] => (fieldOperand 5 c).map Instr.pseudoClose
  | "POLLON", false, [] => some Instr.pseudoPollOn
  | "POLLOFF", false, [] => some Instr.pseudoPollOff
  | _, _, _ => none

/-- How many entries a bracketed array of the command has; a polarity array's length is not in its word (R102). -/
def arrayFits (cfg : Config) (inBrackets : Bool) (vs : List Nat) : Bool := !inBrackets || vs.length == cfg.n

/-- A transaction of a program: who issues it, and its words (R61, R62). -/
abbrev Transaction := Agent × List Word

/-- One line without its port prefix (R102). -/
def assembleCommand (cfg : Config) : List Token → Option (List Word)
  | .word m :: rest => do
    let (inBrackets, vs) ← operands rest
    let i ← assembleOp m inBrackets vs
    if i.wf cfg && arrayFits cfg inBrackets vs then some (encode i) else none
  | _ => none

/-- One line: prefixed `edge:` an event on the edge port, else a command on the command port (R102). That an `edge:` line of a
command with operand words gives all the words of its encoding, each then a word of the edge stream (R62, R100), is the model's
choice (log 25, DESIGN CHOICE). -/
def assembleTokens (cfg : Config) : List Token → Option Transaction
  | .word m :: .colon :: rest =>
    if m = "edge".toList then (assembleCommand cfg rest).map fun ws => (.edge, ws) else none
  | ts => (assembleCommand cfg ts).map fun ws => (.mainline, ws)

/-- One source line (R102). -/
def assembleLine (cfg : Config) (line : String) : Option Transaction := assembleTokens cfg (tokenize [] line.toList)

/-! ### The table of R102 and R103 as lines to write -/

/-- What a line spells: a mnemonic and its operands, in brackets or not (R102). -/
structure SourceForm where
  /-- The mnemonic. -/
  mnemonic : String
  /-- Whether the operands stand in brackets. -/
  inBrackets : Bool
  /-- The operands, first to last. -/
  operands : List Nat
deriving DecidableEq, Repr

/-- The forms that spell a command: the row of R102's table, and the pseudo-instruction of R103 where there is one. -/
def sourceForms (cfg : Config) : Instr → List SourceForm
  | .reset => [⟨"RESET", false, []⟩]
  | .isinit => [⟨"ISINIT", false, []⟩]
  | .setled pins => [⟨"SETLED", true, pins.map BitVec.toNat⟩]
  | .setsns pins => [⟨"SETSNS", true, pins.map BitVec.toNat⟩]
  | .setpol pol => [⟨"SETPOL", true, (List.range cfg.n).map fun c => (pol.getLsbD c).toNat⟩]
  | .setpoll on => [⟨"SETPOLL", false, [on.toNat]⟩, ⟨if on then "POLLON" else "POLLOFF", false, []⟩]
  | .getpoll => [⟨"GETPOLL", false, []⟩]
  | .stest => [⟨"STEST", false, []⟩]
  | .process => [⟨"PROCESS", false, []⟩]
  | .edge ch => [⟨"EDGE", false, [ch.toNat]⟩]
  | .gedge pin evm => [⟨"GEDGE", false, [pin.toNat, evm.toNat]⟩]
  | .drain => [⟨"DRAIN", false, []⟩]
  | .resolve ch raw now => [⟨"RESOLVE", false, [ch.toNat, (bitOfLevel raw).toNat, now.toNat]⟩]
  | .retarget ch on =>
    [⟨"RETARGET", false, [ch.toNat, on.toNat]⟩, ⟨if on then "OPEN" else "CLOSE", false, [ch.toNat]⟩]
  | .tick ch => [⟨"TICK", false, [ch.toNat]⟩]
  | .poll ch raw now => [⟨"POLL", false, [ch.toNat, (bitOfLevel raw).toNat, now.toNat]⟩]

/-- How a line begins: `edge:` for the edge port, nothing for the command port (R102). -/
def portPrefix : Agent → List Token
  | .mainline => []
  | .edge => [.word "edge".toList, .colon]

/-- The characters of that beginning. -/
def portPrefixText : Agent → List Char
  | .mainline => []
  | .edge => "edge: ".toList

/-- The spellings of an operand: a decimal numeral, a `0x` hexadecimal one, and `LOW` and `HIGH` for 0 and 1 (R102, log 23). -/
def SpellsOperand (cs : List Char) (v : Nat) : Prop :=
  cs = Nat.toDigits 10 v ∨ cs = '0' :: 'x' :: Nat.toDigits 16 v ∨
    cs = '0' :: 'x' :: (Nat.toDigits 16 v).map Char.toUpper ∨
    (cs = "LOW".toList ∧ v = 0) ∨ (cs = "HIGH".toList ∧ v = 1)

/-- The characters of a line without its port prefix, its operands spelled by `texts` (R102). -/
def sourceText (mnemonic : String) (inBrackets : Bool) (texts : List (List Char)) : List Char :=
  mnemonic.toList ++ ' ' ::
    if inBrackets then '[' :: [',', ' '].intercalate texts ++ [']'] else [',', ' '].intercalate texts

/-- The words one agent issues in a program, in order. -/
def wordsOf (a : Agent) (prog : List Transaction) : List Word :=
  prog.flatMap fun t => if t.1 = a then t.2 else []

/-- A program loaded from outside the machine: both streams, and the turns in the program's order (log 6). That `cpos` stays, so that
it is an offset in the loaded stream only where it was 0 (R22), is the model's choice (log 24, DESIGN CHOICE). -/
def loadProgram (prog : List Transaction) (s : State) : State :=
  { s with cmds := wordsOf .mainline prog, edges := wordsOf .edge prog, turns := prog.map Prod.fst }

end Sys2Proof.Machine
end

