-- ==== Sys2Proof/Machine/Mux.lean ====
section
/-! DEFINITION. The GPIO/PWM output mux: what drives a pin and which channels a pin feeds, both functions of the state (R260). -/

namespace Sys2Proof.Machine

open Sys2Proof

/-- What the block does with a pin as an output (R260). -/
inductive PinDrive where
  /-- The block does not drive the pin. -/
  | none
  /-- The pin is driven by the PWM resource of channel `c`. -/
  | pwm (c : Nat)
deriving DecidableEq, Repr

/-- Channel `c` is functional on its LED side and bound to the pin (R260). -/
def drivesPin (s : State) (p : Pin) (c : Nat) : Bool := (s.chan c).ledOk s.cfg && (s.chan c).ledPin == p

/-- Channel `c` is functional on its sensor side and bound to the pin (R260). -/
def sensesPin (s : State) (p : Pin) (c : Nat) : Bool := (s.chan c).snsOk s.cfg && (s.chan c).snsPin == p

/-- `Drive(p)`: the lowest-numbered functional LED channel bound to the pin (R260, R261). -/
def drive (s : State) (p : Pin) : PinDrive :=
  match (List.range s.cfg.n).find? (drivesPin s p) with
  | some c => .pwm c
  | none => .none

/-- `Sense(p)`, in ascending order: the functional sensor channels bound to the pin (R260). -/
def sense (s : State) (p : Pin) : List Nat := (List.range s.cfg.n).filter (sensesPin s p)

/-- The duty value the pin shows, where the block drives it (R260, R263). -/
def pinDuty (s : State) (p : Pin) : Option Intensity :=
  match drive s p with
  | .pwm c => some (s.chan c).duty
  | .none => .none

/-- `Obs(c)`, the observable state of a channel (R202). -/
def obs (s : State) (c : Nat) : Obs := (s.chan c).obs s.cfg

end Sys2Proof.Machine
end

