-- ==== Sys2Proof/Safety.lean ====
section
/-! DEFINITION. The terms statements are made in: the invariant of the machine (R24, R38, R39), the correspondence of target and
door state (R40), sequences of commands and of edge events, and what an edge event signals. -/

namespace Sys2Proof.Machine

open Sys2Proof

/-- One channel's invariant: levels within the range and targets at an end of it (R38), a channel at rest is at its target (R39),
a time of TS_W bits (R34), and a latch that is always valid when TS_RESET_MODE is ZERO (R34). -/
abbrev Channel.Ok (cfg : Config) (ch : Channel) : Prop :=
  ch.cur.toNat ≤ cfg.wrap.toNat ∧ (ch.tgt = 0 ∨ ch.tgt = cfg.wrap) ∧ ch.duty.toNat ≤ cfg.wrap.toNat ∧
    (ch.fading = false → ch.cur = ch.tgt) ∧ ch.lastTrig.toNat < 2 ^ cfg.tsW ∧
    (cfg.tsResetMode = .zero → ch.tsValid = true)

/-- The machine's invariant: legal parameters (R7), N channels (R23), no latch bit at or above N (R24, R133), every channel as
above, and a set `ERR` only after a recorded fault (R27, R282). -/
abbrev State.Inv (s : State) : Prop :=
  s.cfg.Legal ∧ s.chans.length = s.cfg.n ∧ s.pending.toNat < 2 ^ s.cfg.n ∧ (∀ ch ∈ s.chans, ch.Ok s.cfg) ∧
    (s.err = true → s.faultMark = true)

/-- Every channel's target is the one its door state asks for (R40). -/
abbrev State.TargetFollowsDoor (s : State) : Prop :=
  ∀ ch ∈ s.chans, ch.tgt = if ch.doorOpen then s.cfg.wrap else 0

/-- Commands of the command port, one after the other (R75). -/
def execAll : List Instr → State → Result
  | [], s => .next s
  | i :: is, s =>
    match exec i s with
    | .next t => execAll is t
    | .fault f => .fault f
    | .refused r => .refused r

/-- Edge events, one after the other (R75). -/
def edgeEvents (ws : List Word) (s : State) : State := ws.foldl (fun t w => edgeEvent w t) s

/-- Whether an edge-port word signals channel `c`: an EDGE of `c`, or a GEDGE of the pin of `c`'s functional sensor (R130, R131). -/
def signals (s : State) (w : Word) (c : Nat) : Bool :=
  match decode s.cfg w [] with
  | .ok (.edge ch) => ch.toNat == c
  | .ok (.gedge pin _) => decide (c < s.cfg.n) && sensesPin s pin c
  | _ => false

/-- Phase 1 of PROCESS samples the sensor of channel `c` (R201). -/
def edgeSamples (s : State) (c : Nat) : Bool := s.pending.getLsbD c && (s.chan c).snsOk s.cfg

/-- Phase 2 of PROCESS, while enabled, samples the sensor of channel `c` (R201). -/
def pollSamples (s : State) (c : Nat) : Bool := (s.chan c).snsOk s.cfg

/-- How many of the channels below `c` are sampled: the number of the draw channel `c` takes (R15, R201). -/
def drawsBelow (sampled : Nat → Bool) (c : Nat) : Nat := ((List.range c).filter sampled).length

/-- The time the read numbered `k` gives when the time source moves on by `ds` before the reads (R69). -/
def timeOfRead (s : State) (ds : List Nat) (k : Nat) : Timestamp :=
  BitVec.ofNat 64 ((s.clock + (ds.take (k + 1)).sum) % 2 ^ s.cfg.tsW)

/-- The channels after one sampling phase: a sampled channel takes its draw, the others stay (R201). -/
def sampledChannels (s : State) (sampled : Nat → Bool) (f : Config → Level → Timestamp → Channel → Channel)
    (raws : List Level) (ds : List Nat) : List Channel :=
  (List.range s.cfg.n).map fun c =>
    if sampled c then
      f s.cfg (raws.getD (drawsBelow sampled c) .low) (timeOfRead s ds (drawsBelow sampled c)) (s.chan c)
    else s.chan c

/-- The channel phase 3 of PROCESS leaves (R201). -/
def tickIfFading (cfg : Config) (ch : Channel) : Channel := if ch.fading then tickChannel cfg ch else ch

/-- The duty events phase 3 of PROCESS emits for channels in this condition, in ascending order (R201, R266). -/
def tickEvents (cfg : Config) (chs : List Channel) : List Event :=
  (List.range chs.length).flatMap fun c =>
    if (chs.getD c default).fading then [Event.duty c (tickChannel cfg (chs.getD c default)).duty] else []

/-- A transaction of either port (R64). -/
inductive Txn where
  /-- An edge event on the edge port. -/
  | edge (w : Word)
  /-- A command on the command port. -/
  | command (i : Instr)
  /-- Words on the command port that encode no command (R281). -/
  | rejected (r : Rejection)
deriving DecidableEq, Repr

/-- The state a transaction leaves; every command answers a next state. -/
def Txn.perform (s : State) : Txn → State
  | .edge w => edgeEvent w s
  | .command i =>
    match exec i s with
    | .next t => t
    | _ => s
  | .rejected r => rejectCommand r s

/-- Whether a transaction signals channel `c`, on either port (R134). -/
def Txn.signals (s : State) (c : Nat) : Txn → Bool
  | .edge w => Machine.signals s w c
  | .command (.edge ch) => decide (ch.toNat < s.cfg.n) && ch.toNat == c
  | .command (.gedge pin _) => decide (c < s.cfg.n) && sensesPin s pin c
  | .command _ => false
  | .rejected _ => false

/-- Whether a transaction clears the latch: a drain or a reset (R24). -/
def Txn.clears : Txn → Bool
  | .command .drain => true
  | .command .process => true
  | .command .reset => true
  | _ => false

/-- Transactions, one after the other (R64). -/
def performAll (ts : List Txn) (s : State) : State := ts.foldl (fun t x => x.perform t) s

/-- Whether one of the transactions signals channel `c`, each judged in the state it is performed on (R136). -/
def signalledIn : List Txn → State → Nat → Bool
  | [], _, _ => false
  | x :: xs, s, c => x.signals s c || signalledIn xs (x.perform s) c

end Sys2Proof.Machine
end

