-- ==== Sys2Proof/Certificates/Slice0/Obligations.lean ====
section
/-! DEFINITION. The statements for the provers. Every statement is over all states, so over all legal parameters (log 1), all draws
(logs 4 and 5) and all interleavings (log 7). -/

open Sys2Proof Sys2Proof.Machine

/-! ### Encoding -/

/-- R90 to R97, R101: every well-formed command, at every value of its operands, is read back from its words. -/
def Obligations.DecodeInvertsEncode : Prop :=
  ∀ (cfg : Config) (i : Instr), cfg.Legal → i.wf cfg = true → decodeWords cfg (encode i) = some (.ok i)

/-- R90 to R98, R101: a word sequence that decodes to a command is that command's encoding, and the command is well formed. -/
def Obligations.EncodeInvertsDecode : Prop :=
  ∀ (cfg : Config) (w0 : Word) (ops : List Word) (i : Instr), cfg.Legal → ops.length = operandCount cfg w0 →
    decode cfg w0 ops = .ok i → i.wf cfg = true ∧ encode i = w0 :: ops

/-- R98, R101, R280, R281: which of the three causes a rejection names, and that there is no fourth. -/
def Obligations.RejectionNamesTheFirstCause : Prop :=
  ∀ (cfg : Config) (w0 : Word) (ops : List Word),
    (decode cfg w0 ops = .rejected .illegalOp ↔ w0.toNat / 2 ^ 27 = 0 ∨ 0x11 ≤ w0.toNat / 2 ^ 27) ∧
    ∀ o : Opcode, w0.toNat / 2 ^ 27 = o.code.toNat →
      (decode cfg w0 ops = .rejected .reservedBits ↔
        w0 &&& ~~~ o.format.free ≠ o.baseHeader ∨ operandReserved cfg o.format ops = true) ∧
      (decode cfg w0 ops = .rejected .badChannel ↔
        w0 &&& ~~~ o.format.free = o.baseHeader ∧ operandReserved cfg o.format ops = false ∧
          (o.format = .c ∨ o.format = .cb ∨ o.format = .cbt) ∧ cfg.n ≤ w0.toNat / 2 ^ 22 % 32)

/-- R104: the encoding examples, and the rejected words, at N = 4. -/
def Obligations.SpecEncodingExamplesHold : Prop :=
  encode .process = [0x48000000] ∧ encode (.edge 3) = [0x50C00000] ∧ encode (.gedge 2 4) = [0x58000204] ∧
  encode (.retarget 1 true) = [0x70600000] ∧ encode (.tick 0) = [0x78000000] ∧
  encode (.resolve 0 .low 150000) = [0x68000000, 0x000249F0, 0x00000000] ∧
  encode (.poll 0 .high 5) = [0x80200000, 0x00000005, 0x00000000] ∧
  encode (.setsns [2, 3, 4, 5]) = [0x20000000, 0x05040302] ∧ encode (.setpol 0x0000000D) = [0x28000000, 0x0000000D] ∧
  encode (.setpoll true) = [0x30200000] ∧
  decode Config.defaults 0x48000000 [] = .ok .process ∧ decode Config.defaults 0x50C00000 [] = .ok (.edge 3) ∧
  decode Config.defaults 0x58000204 [] = .ok (.gedge 2 4) ∧
  decode Config.defaults 0x68000000 [0x000249F0, 0x00000000] = .ok (.resolve 0 .low 150000) ∧
  decode Config.defaults 0x20000000 [0x05040302] = .ok (.setsns [2, 3, 4, 5]) ∧
  decode Config.defaults 0x00000000 [] = .rejected .illegalOp ∧
  decode Config.defaults 0x88000000 [] = .rejected .illegalOp ∧
  decode Config.defaults 0x48000001 [] = .rejected .reservedBits ∧
  decode Config.defaults 0x79400000 [] = .rejected .badChannel

/-- R102, R103: a line is one command exactly when it is the port's prefix, a mnemonic of the table or of the four
pseudo-instructions, and operands as that form has them, well formed at the parameters; its words are then that command's encoding,
issued on the port the prefix names. A line of any other form has no words. What is a token, and that a line of another form has
no words at all, is the model's choice (log 23); so is that an `edge:` line of a command with operand words gives all its words
(log 25). -/
def Obligations.AssembledLinesAreCommands : Prop :=
  ∀ (cfg : Config) (line : String) (a : Agent) (ws : List Word), cfg.Legal →
    (assembleLine cfg line = some (a, ws) ↔
      ∃ (m : List Char) (ts : List Token) (inBrackets : Bool) (vs : List Nat) (i : Instr),
        tokenize [] line.toList = portPrefix a ++ .word m :: ts ∧ operands ts = some (inBrackets, vs) ∧
        ⟨String.ofList m, inBrackets, vs⟩ ∈ sourceForms cfg i ∧ i.wf cfg = true ∧ ws = encode i)

/-- R102, R103, character by character: each form of each well-formed command, printed with any numerals for its operands, on either
port, with or without a comment, assembles to that port and that command's encoding. `LOW` and `HIGH` for an operand other than a
raw level, and digits of either case, are the model's choice (log 23); so is that an `edge:` line of a command with operand words
gives all its words (log 25). -/
def Obligations.PrintedLinesAssemble : Prop :=
  ∀ (cfg : Config) (i : Instr) (f : SourceForm) (texts : List (List Char)) (a : Agent) (comment : List Char),
    cfg.Legal → i.wf cfg = true → f ∈ sourceForms cfg i → List.Forall₂ SpellsOperand texts f.operands →
    let text := portPrefixText a ++ sourceText f.mnemonic f.inBrackets texts
    assembleLine cfg (String.ofList text) = some (a, encode i) ∧
    assembleLine cfg (String.ofList (text ++ ';' :: comment)) = some (a, encode i)

/-! ### Steps and ports -/

/-- A step runs the decoded command (R61, R71, R72, R75): when a command's words stand first in the command stream and no edge
event is left, the step is that command's meaning; its words have left the stream and `cpos` has advanced by their number (R22).
Where an edge event is left too, which of the two the step is, is the model's choice (log 7, DESIGN CHOICE): the command where the
list `turns` gives the mainline agent the next turn; either of the two where no turn is listed. -/
def Obligations.StepRunsDecodedCommand : Prop :=
  ∀ (s : State) (w0 : Word) (ops rest : List Word) (i : Instr),
    s.cmds = w0 :: (ops ++ rest) → ops.length = operandCount s.cfg w0 → decode s.cfg w0 ops = .ok i →
    (s.edges = [] → step s = exec i { s with cmds := rest, cpos := s.cpos + (1 + ops.length) }) ∧
    (∀ w ws ts, s.edges = w :: ws → s.turns = .mainline :: ts →
      step s = exec i { s with cmds := rest, cpos := s.cpos + (1 + ops.length), turns := ts }) ∧
    (∀ w ws, s.edges = w :: ws → s.turns = [] →
      step s = exec i { s with cmds := rest, cpos := s.cpos + (1 + ops.length), draws := s.draws + 1 } ∨
      step s = .next (edgeEvent w { s with edges := ws, draws := s.draws + 1 }))

/-- The words `withFetchWord` places are what the very next step runs (log 6: a program is loaded from outside; log 24: placing
leaves `cpos`, and the step counts the placed words). -/
def Obligations.PlacedWordRunsNext : Prop :=
  ∀ (s : State) (nbits w : Nat) (i : Instr), decodeWords s.cfg (tableWords s.cfg nbits w) = some (.ok i) →
    step (s.withFetchWord nbits w) = exec i { s with cpos := s.cpos + (tableWords s.cfg nbits w).length }

/-- R282: a rejected command writes nothing but `ERR` (and the fault a model records), responds `(code, 0)`, consumes its length
(R281), and the next command follows. Where an edge event is left too, which of the two the step is, is the model's choice (log 7,
DESIGN CHOICE): the command where `turns` gives the mainline agent the next turn; either of the two where no turn is listed. -/
def Obligations.RejectedCommandOnlySetsErr : Prop :=
  ∀ (s : State) (w0 : Word) (ops rest : List Word) (r : Rejection),
    s.cmds = w0 :: (ops ++ rest) → ops.length = operandCount s.cfg w0 → decode s.cfg w0 ops = .rejected r →
    let rejected : State := { s with
      cmds := rest, cpos := s.cpos + (1 + ops.length), err := true, faultMark := true
      responses := s.responses ++ [⟨.rejected r, 0⟩] }
    (s.edges = [] → step s = .next rejected) ∧
    (∀ w ws ts, s.edges = w :: ws → s.turns = .mainline :: ts → step s = .next { rejected with turns := ts }) ∧
    (∀ w ws, s.edges = w :: ws → s.turns = [] →
      step s = .next { rejected with draws := s.draws + 1 } ∨
      step s = .next (edgeEvent w { s with edges := ws, draws := s.draws + 1 }))

/-- R6, R62, R64: the edge agent's step is one edge event, when no whole command is left. Where a whole command is left too, which
of the two the step is, is the model's choice (log 7, DESIGN CHOICE): the edge event where `turns` gives the edge agent the next
turn; where no turn is listed, the edge event or the command, performed or rejected. -/
def Obligations.StepPerformsEdgeEvent : Prop :=
  ∀ (s : State) (w : Word) (ws : List Word), s.edges = w :: ws →
    (takeCommand s.cfg s.cmds = none → step s = .next (edgeEvent w { s with edges := ws })) ∧
    (∀ ts, takeCommand s.cfg s.cmds ≠ none → s.turns = .edge :: ts →
      step s = .next (edgeEvent w { s with edges := ws, turns := ts })) ∧
    (∀ w0 ops rest, takeCommand s.cfg s.cmds = some (w0, ops, rest) → s.turns = [] →
      let t : State := { s with cmds := rest, cpos := s.cpos + (1 + ops.length), draws := s.draws + 1 }
      step s = .next (edgeEvent w { s with edges := ws, draws := s.draws + 1 }) ∨
      (∃ i, decode s.cfg w0 ops = .ok i ∧ step s = exec i t) ∨
      (∃ r, decode s.cfg w0 ops = .rejected r ∧ step s = .next (rejectCommand r t)))

/-- R22, R296: the machine stops exactly where the command stream ends inside a command (and no edge event is left: log 10), and it
refuses nothing. -/
def Obligations.StepStopsOnlyInsideACommand : Prop :=
  ∀ s : State,
    (step s = .fault .stuckInCommand ↔
      s.edges = [] ∧ ∃ w0 rest, s.cmds = w0 :: rest ∧ rest.length < operandCount s.cfg w0) ∧
    ∀ r, step s ≠ .refused r

/-- R301 with log 6 (the model's choice): with no word left on either port the machine waits as it is. -/
def Obligations.MachineWaitsWithoutWords : Prop :=
  ∀ s : State, s.cmds = [] → s.edges = [] → step s = .next s

/-- R61, R99, R282: every command answers a next state with exactly one more response; a response other than OK has the value 0 and
its command has changed nothing else but `ERR` and the recorded fault; after a response OK, `ERR` is as before, but for RESET, which
clears it (R27). -/
def Obligations.EveryCommandRespondsOnce : Prop :=
  ∀ (i : Instr) (s : State), ∃ t r, exec i s = .next t ∧ t.responses = s.responses ++ [r] ∧
    (r.status ≠ .ok → r.value = 0 ∧
      t = { s with err := true, faultMark := true, responses := s.responses ++ [r] }) ∧
    (r.status = .ok → t.err = (s.err && decide (i ≠ .reset)) ∧ t.faultMark = s.faultMark)

/-- R94, R97, R98 as the commands themselves judge their operands (log 11): an operand the encoding does not admit rejects the
command, a reserved bit before a channel. -/
def Obligations.IllFormedOperandsAreRejected : Prop :=
  ∀ (i : Instr) (s : State), i.wf s.cfg = false →
    ∃ r, exec i s = .next { s with
        err := true, faultMark := true, responses := s.responses ++ [⟨.rejected r, 0⟩] } ∧
      (r = .badChannel ↔
        (∃ ch, i = .edge ch ∨ i = .tick ch) ∨ (∃ ch on, i = .retarget ch on) ∨
        (∃ ch raw now, (i = .resolve ch raw now ∨ i = .poll ch raw now) ∧ now.toNat < 2 ^ s.cfg.tsW)) ∧
      (r = .reservedBits ∨ r = .badChannel)

/-- The model's choice (log 11, DESIGN CHOICE): what `exec` does on a term that no word decodes to, a command on a channel at or
above N. It rejects it with BAD_CHANNEL, as R94 and R280 have the decoder reject its words. -/
def Obligations.ChannelAtOrAboveNIsRejected : Prop :=
  ∀ (s : State) (ch : ChannelField), s.cfg.n ≤ ch.toNat →
    let rejected : State := { s with
      err := true, faultMark := true, responses := s.responses ++ [⟨.rejected .badChannel, 0⟩] }
    exec (.edge ch) s = .next rejected ∧ exec (.tick ch) s = .next rejected ∧
    (∀ on, exec (.retarget ch on) s = .next rejected) ∧
    (∀ raw now, now.toNat < 2 ^ s.cfg.tsW →
      exec (.resolve ch raw now) s = .next rejected ∧ exec (.poll ch raw now) s = .next rejected)

/-! ### The edge latch -/

/-- R130: EDGE sets the channel's bit of the latch and nothing else. -/
def Obligations.EdgeSetsItsBit : Prop :=
  ∀ (s : State) (ch : ChannelField), ch.toNat < s.cfg.n →
    exec (.edge ch) s = .next { s with
      pending := s.pending ||| BitVec.ofNat 32 (2 ^ ch.toNat), responses := s.responses ++ [⟨.ok, 0⟩] }

/-- R131: GEDGE sets the bits of exactly the functional sensor channels bound to the pin, whatever the event mask, and nothing
else. -/
def Obligations.GedgeSetsTheBitsOfThePin : Prop :=
  ∀ (s : State) (pin : Pin) (evm : BitVec 4), s.cfg.n ≤ 32 →
    ∃ p : BitVec 32,
      exec (.gedge pin evm) s = .next { s with pending := p, responses := s.responses ++ [⟨.ok, 0⟩] } ∧
      ∀ c, p.getLsbD c = (s.pending.getLsbD c ||
        decide (c < s.cfg.n ∧ (s.chan c).snsPin.toNat ≤ s.cfg.pinMax.toNat ∧ (s.chan c).snsPin = pin))

/-- R132: DRAIN responds with the latch, clears it and does nothing else. -/
def Obligations.DrainTakesAndClearsTheLatch : Prop :=
  ∀ s : State, exec .drain s = .next { s with pending := 0, responses := s.responses ++ [⟨.ok, s.pending⟩] }

/-- R62, R66, R100: an edge event sets the bits of exactly the channels it signals and touches nothing else, not even `ERR`; a word
that is no EDGE and no GEDGE signals none. -/
def Obligations.EdgeEventWritesOnlyTheLatch : Prop :=
  ∀ (s : State) (w : Word), s.cfg.n ≤ 32 →
    ∃ p : BitVec 32, edgeEvent w s = { s with pending := p } ∧
      (∀ c, p.getLsbD c = (s.pending.getLsbD c || signals s w c)) ∧
      ((∀ ch, decode s.cfg w [] ≠ .ok (.edge ch)) → (∀ pin evm, decode s.cfg w [] ≠ .ok (.gedge pin evm)) →
        p = s.pending)

/-- R135, R288: only which edge events were performed matters, not how often or in which order; and after them the bit of a channel
is set exactly where it was before or one of them signals the channel. -/
def Obligations.EdgeEventsCoalesceAndCommute : Prop :=
  ∀ (s : State) (ws vs : List Word), s.cfg.n ≤ 32 → (∀ w, w ∈ ws ↔ w ∈ vs) →
    edgeEvents ws s = edgeEvents vs s ∧
    ∀ c, (edgeEvents ws s).pending.getLsbD c = (s.pending.getLsbD c || ws.any fun w => signals s w c)

/-- R136, R75 (d), R24: what a drain takes, DRAIN's or the one of PROCESS, is exactly the set of channels signalled since the
transaction that last cleared the latch (a DRAIN, a PROCESS or a RESET), over any transactions of both ports in between, rejected
commands and dropped edge words among them. -/
def Obligations.NoSignalIsLost : Prop :=
  ∀ (s : State) (last : Instr) (xs : List Txn), s.cfg.n ≤ 32 →
    (last = .drain ∨ last = .process ∨ last = .reset) → (∀ x ∈ xs, x.clears = false) →
    ∃ t m, exec last s = .next t ∧ (∀ c, m.getLsbD c = signalledIn xs t c) ∧
      exec .drain (performAll xs t) = .next { performAll xs t with
        pending := 0, responses := (performAll xs t).responses ++ [⟨.ok, m⟩] } ∧
      exec .process (performAll xs t) =
        .next ((processDrained m { performAll xs t with pending := 0 }).respond 0)

/-- R68: an edge event and a DRAIN that overlap: whichever goes first, no bit is lost. That the list `turns` says who goes first, as
in the last two clauses, is the model's choice (log 7, DESIGN CHOICE); they show that both of R68's orders happen. -/
def Obligations.EdgeOverlappingDrainIsNeverLost : Prop :=
  ∀ (s : State) (w : Word), s.cfg.n ≤ 32 → s.cmds = [0x60000000] → s.edges = [w] →
    ∃ t u r m, step s = .next t ∧ step t = .next u ∧ u.cmds = [] ∧ u.edges = [] ∧
      u.responses = s.responses ++ [⟨.ok, r⟩] ∧ (∀ c, m.getLsbD c = signals s w c) ∧
      ((r = s.pending ||| m ∧ u.pending = 0) ∨ (r = s.pending ∧ u.pending = m)) ∧
      (∀ ts, s.turns = .edge :: ts → r = s.pending ||| m ∧ u.pending = 0) ∧
      (∀ ts, s.turns = .mainline :: ts → r = s.pending ∧ u.pending = m)

/-- R65: an edge event during a PROCESS that has drained `m`, after that drain, has the effect of the same event just after the
PROCESS: performed before phase 1, between phases 1 and 2, or between phases 2 and 3. -/
def Obligations.EdgeEventDuringProcessIsAsAfterIt : Prop :=
  ∀ (s : State) (w : Word) (m : BitVec 32),
    processDrained m (edgeEvent w s) = edgeEvent w (processDrained m s) ∧
    fadePath (pollPath (edgeEvent w (edgePath m s))) = edgeEvent w (processDrained m s) ∧
    fadePath (edgeEvent w (pollPath (edgePath m s))) = edgeEvent w (processDrained m s)

/-! ### The debounce comparator -/

/-- R150, R152, R153: RESOLVE accepts exactly when the comparator does not reject (R151) and the level means another door state; then
it writes the latch and the door state; otherwise it writes nothing. -/
def Obligations.ResolveAcceptsOnlyNewStatesAfterTheWindow : Prop :=
  ∀ (s : State) (ch : ChannelField) (raw : Level) (now : Timestamp),
    ch.toNat < s.cfg.n → now.toNat < 2 ^ s.cfg.tsW →
    let old := s.chan ch.toNat
    let rejected : Prop := old.tsValid = true ∧ (now - old.lastTrig).toNat % 2 ^ s.cfg.tsW < s.cfg.debounceWindow
    let opened : Bool := decide ((old.activeLow = true ∧ raw = .low) ∨ (old.activeLow = false ∧ raw = .high))
    (¬ rejected → opened ≠ old.doorOpen →
      exec (.resolve ch raw now) s = .next { s with
        chans := s.chans.set ch.toNat { old with lastTrig := now, tsValid := true, doorOpen := opened }
        responses := s.responses ++ [⟨.ok, if opened then 3 else 2⟩] }) ∧
    (rejected ∨ opened = old.doorOpen →
      exec (.resolve ch raw now) s = .next { s with responses := s.responses ++ [⟨.ok, 0⟩] })

/-- R156: every call inside the window, and every call whose level maps to the present door state, returns none and writes nothing;
the first call after the window whose level maps to another state is accepted; and no call inside the new window is. -/
def Obligations.OneTransitionForABurst : Prop :=
  ∀ (s : State) (ch : ChannelField) (before after : List (Level × Timestamp)) (raw : Level) (now : Timestamp),
    s.chans.length = s.cfg.n → ch.toNat < s.cfg.n → now.toNat < 2 ^ s.cfg.tsW →
    let old := s.chan ch.toNat
    let opens (l : Level) : Bool := if old.activeLow then l == .low else l == .high
    let inWindow (since : Timestamp) (p : Level × Timestamp) : Prop :=
      (p.2 - since).toNat % 2 ^ s.cfg.tsW < s.cfg.debounceWindow
    let call (p : Level × Timestamp) : Instr := .resolve ch p.1 p.2
    old.tsValid = true → (∀ p ∈ before ++ after, p.2.toNat < 2 ^ s.cfg.tsW) →
    (∀ p ∈ before, inWindow old.lastTrig p ∨ opens p.1 = old.doorOpen) →
    execAll (before.map call) s =
        .next { s with responses := s.responses ++ List.replicate before.length ⟨.ok, 0⟩ } ∧
    (¬ inWindow old.lastTrig (raw, now) → opens raw ≠ old.doorOpen → (∀ p ∈ after, inWindow now p) →
      execAll (before.map call ++ call (raw, now) :: after.map call) s = .next { s with
        chans := s.chans.set ch.toNat { old with lastTrig := now, tsValid := true, doorOpen := opens raw }
        responses := s.responses ++ List.replicate before.length ⟨.ok, 0⟩ ++
          [⟨.ok, if opens raw then 3 else 2⟩] ++ List.replicate after.length ⟨.ok, 0⟩ })

/-- R157, R226, R311: flipping the polarity of a channel whose input is unchanged reverses the door state at the next resolve after
the window, and not before it. -/
def Obligations.PolarityFlipReversesTheDoor : Prop :=
  ∀ (s : State) (ch : ChannelField) (raw : Level) (now : Timestamp) (pol : Word),
    s.chans.length = s.cfg.n → ch.toNat < s.cfg.n → now.toNat < 2 ^ s.cfg.tsW → pol.toNat < 2 ^ s.cfg.n →
    let old := s.chan ch.toNat
    pol.getLsbD ch.toNat = !old.activeLow →
    old.doorOpen = (if old.activeLow then raw == .low else raw == .high) →
    ¬ (old.tsValid = true ∧ (now - old.lastTrig).toNat % 2 ^ s.cfg.tsW < s.cfg.debounceWindow) →
    ∃ t u, exec (.setpol pol) s = .next t ∧ (t.chan ch.toNat).doorOpen = old.doorOpen ∧
      exec (.resolve ch raw now) t = .next u ∧ (u.chan ch.toNat).doorOpen = !old.doorOpen ∧
      u.responses = s.responses ++ [⟨.ok, 0⟩, ⟨.ok, if old.doorOpen then 2 else 3⟩]

/-! ### The fade engine -/

/-- R170: RETARGET writes the target and sets `FADING` when the target changes, and writes nothing otherwise; where the level is
already at the new target, `FADING` is set all the same and the next tick clears it. -/
def Obligations.RetargetMarksAFadeOnlyOnChange : Prop :=
  ∀ (s : State) (ch : ChannelField) (on : Bool), ch.toNat < s.cfg.n →
    let old := s.chan ch.toNat
    let target : Intensity := if on then s.cfg.wrap else 0
    (target ≠ old.tgt → exec (.retarget ch on) s = .next { s with
      chans := s.chans.set ch.toNat { old with tgt := target, fading := true }
      responses := s.responses ++ [⟨.ok, 0⟩] }) ∧
    (target = old.tgt → exec (.retarget ch on) s = .next { s with responses := s.responses ++ [⟨.ok, 0⟩] }) ∧
    (s.chans.length = s.cfg.n → target ≠ old.tgt → old.cur = target →
      ∃ t u, exec (.retarget ch on) s = .next t ∧ (t.chan ch.toNat).fading = true ∧
        exec (.tick ch) t = .next u ∧ (u.chan ch.toNat).fading = false ∧ (u.chan ch.toNat).cur = target)

/-- R172, R173: TICK moves the level of a fading channel toward its target by at most `FADE_STEP`, saturating at the target, clears
`FADING` when it gets there, and writes the duty register, with one event; on a channel that is not fading it does nothing. -/
def Obligations.TickMovesTowardTheTarget : Prop :=
  ∀ (s : State) (ch : ChannelField), ch.toNat < s.cfg.n →
    let old := s.chan ch.toNat
    (old.fading = false → exec (.tick ch) s = .next { s with responses := s.responses ++ [⟨.ok, 0⟩] }) ∧
    (old.fading = true → ∃ v : Intensity,
      (v.toNat : Int) =
        (if old.cur.toNat < old.tgt.toNat then min (old.cur.toNat + s.cfg.fadeStep.toNat : Int) old.tgt.toNat
        else if old.tgt.toNat < old.cur.toNat then max (old.cur.toNat - s.cfg.fadeStep.toNat : Int) old.tgt.toNat
        else old.cur.toNat) ∧
      exec (.tick ch) s = .next { s with
        chans := s.chans.set ch.toNat { old with cur := v, fading := decide (v ≠ old.tgt), duty := v }
        trace := s.trace ++ [.duty ch.toNat v]
        responses := s.responses ++ [⟨.ok, 0⟩] })

/-- R175: with no retarget in between, the level after `j` ticks, the exact tick it reaches the target at, and that `FADING` clears
at that tick and not before; on the way the distance shrinks strictly. -/
def Obligations.FadeConvergesInExactlyCeilTicks : Prop :=
  ∀ (s : State) (ch : ChannelField), s.chans.length = s.cfg.n → ch.toNat < s.cfg.n → 1 ≤ s.cfg.fadeStep.toNat →
    let a := (s.chan ch.toNat).cur.toNat
    let z := (s.chan ch.toNat).tgt.toNat
    let f := s.cfg.fadeStep.toNat
    let k := ((max a z - min a z) + f - 1) / f
    (s.chan ch.toNat).fading = true → a ≠ z →
    ∀ j, ∃ t, execAll (List.replicate j (.tick ch)) s = .next t ∧
      (t.chan ch.toNat).tgt = (s.chan ch.toNat).tgt ∧
      (t.chan ch.toNat).cur.toNat = (if a < z then min (a + j * f) z else max (a - j * f) z) ∧
      ((t.chan ch.toNat).cur = (t.chan ch.toNat).tgt ↔ k ≤ j) ∧
      (t.chan ch.toNat).fading = decide (j < k) ∧
      (j < k → ∀ u, exec (.tick ch) t = .next u →
        if a < z then (t.chan ch.toNat).cur.toNat < (u.chan ch.toNat).cur.toNat
        else (u.chan ch.toNat).cur.toNat < (t.chan ch.toNat).cur.toNat)

/-- R175 with R177: the same of a fade with other commands between its ticks: any but a RESET, a PROCESS (which ticks and may
retarget) and a RETARGET or a POLL of that very channel. Fades of other channels make no difference. -/
def Obligations.FadeIsIndependentOfOtherCommands : Prop :=
  ∀ (s : State) (ch : ChannelField) (xs : List Instr),
    s.chans.length = s.cfg.n → ch.toNat < s.cfg.n → 1 ≤ s.cfg.fadeStep.toNat →
    (∀ i ∈ xs, i ≠ .reset ∧ i ≠ .process ∧ (∀ on, i ≠ .retarget ch on) ∧ (∀ raw now, i ≠ .poll ch raw now)) →
    let a := (s.chan ch.toNat).cur.toNat
    let z := (s.chan ch.toNat).tgt.toNat
    let f := s.cfg.fadeStep.toNat
    let k := ((max a z - min a z) + f - 1) / f
    let j := xs.count (.tick ch)
    (s.chan ch.toNat).fading = true → a ≠ z →
    ∃ t, execAll xs s = .next t ∧ (t.chan ch.toNat).tgt = (s.chan ch.toNat).tgt ∧
      (t.chan ch.toNat).cur.toNat = (if a < z then min (a + j * f) z else max (a - j * f) z) ∧
      ((t.chan ch.toNat).cur = (t.chan ch.toNat).tgt ↔ k ≤ j) ∧ (t.chan ch.toNat).fading = decide (j < k)

/-- R9: a full fade, either way, needs exactly `FULL_FADE_TICKS`, the quotient of WRAP by FADE_STEP rounded up; 13 at the defaults. -/
def Obligations.FullFadeNeedsFullFadeTicks : Prop :=
  Config.defaults.fullFadeTicks = 13 ∧
  ∀ (s : State) (ch : ChannelField), s.cfg.Legal → s.chans.length = s.cfg.n → ch.toNat < s.cfg.n →
    (s.chan ch.toNat).fading = true →
    (((s.chan ch.toNat).cur = 0 ∧ (s.chan ch.toNat).tgt = s.cfg.wrap) ∨
      ((s.chan ch.toNat).cur = s.cfg.wrap ∧ (s.chan ch.toNat).tgt = 0)) →
    (s.cfg.fullFadeTicks * s.cfg.fadeStep.toNat ≥ s.cfg.wrap.toNat ∧
      (s.cfg.fullFadeTicks - 1) * s.cfg.fadeStep.toNat < s.cfg.wrap.toNat) ∧
    ∀ j, ∃ t, execAll (List.replicate j (.tick ch)) s = .next t ∧
      ((t.chan ch.toNat).cur = (s.chan ch.toNat).tgt ↔ s.cfg.fullFadeTicks ≤ j)

/-- R176: a retarget to the opposite target in mid-fade keeps the level, and the next tick moves it toward the new target from
there. -/
def Obligations.MidFadeRedirectionKeepsTheLevel : Prop :=
  ∀ (s : State) (ch : ChannelField) (on : Bool), s.chans.length = s.cfg.n → ch.toNat < s.cfg.n →
    let old := s.chan ch.toNat
    let target : Intensity := if on then s.cfg.wrap else 0
    old.fading = true → target ≠ old.tgt →
    ∃ t u, exec (.retarget ch on) s = .next t ∧ (t.chan ch.toNat).cur = old.cur ∧ (t.chan ch.toNat).tgt = target ∧
      exec (.tick ch) t = .next u ∧
      (u.chan ch.toNat).cur.toNat =
        (if old.cur.toNat < target.toNat then min (old.cur.toNat + s.cfg.fadeStep.toNat) target.toNat
        else max (old.cur.toNat - s.cfg.fadeStep.toNat) target.toNat)

/-! ### The polling fallback -/

/-- R190: POLL resolves, and retargets on a transition, only when the level differs from the last one polled, and records the level
always. -/
def Obligations.PollResolvesOnlyARawChange : Prop :=
  ∀ (s : State) (ch : ChannelField) (raw : Level) (now : Timestamp),
    ch.toNat < s.cfg.n → now.toNat < 2 ^ s.cfg.tsW →
    let old := s.chan ch.toNat
    let rejected : Prop := old.tsValid = true ∧ (now - old.lastTrig).toNat % 2 ^ s.cfg.tsW < s.cfg.debounceWindow
    let opened : Bool := decide ((old.activeLow = true ∧ raw = .low) ∨ (old.activeLow = false ∧ raw = .high))
    let target : Intensity := if opened then s.cfg.wrap else 0
    (raw ≠ old.lastRaw → ¬ rejected → opened ≠ old.doorOpen →
      exec (.poll ch raw now) s = .next { s with
        chans := s.chans.set ch.toNat { old with
          lastTrig := now, tsValid := true, doorOpen := opened, tgt := target
          fading := old.fading || decide (target ≠ old.tgt), lastRaw := raw }
        responses := s.responses ++ [⟨.ok, if opened then 3 else 2⟩] }) ∧
    (raw = old.lastRaw ∨ rejected ∨ opened = old.doorOpen →
      exec (.poll ch raw now) s = .next { s with
        chans := s.chans.set ch.toNat { old with lastRaw := raw }
        responses := s.responses ++ [⟨.ok, 0⟩] })

/-- R192, R310: a raw change that the comparator rejects is consumed: later polls with the same level, at whatever times, see
nothing. -/
def Obligations.RejectedRawChangeIsConsumed : Prop :=
  ∀ (s : State) (ch : ChannelField) (raw : Level) (now : Timestamp) (later : List Timestamp),
    s.chans.length = s.cfg.n → ch.toNat < s.cfg.n → now.toNat < 2 ^ s.cfg.tsW →
    (∀ x ∈ later, x.toNat < 2 ^ s.cfg.tsW) →
    let old := s.chan ch.toNat
    old.tsValid = true → (now - old.lastTrig).toNat % 2 ^ s.cfg.tsW < s.cfg.debounceWindow →
    execAll (.poll ch raw now :: later.map (.poll ch raw ·)) s = .next { s with
      chans := s.chans.set ch.toNat { old with lastRaw := raw }
      responses := s.responses ++ List.replicate (later.length + 1) ⟨.ok, 0⟩ }

/-! ### The tick sequencer -/

/-- R200, R201, R204: what every PROCESS does and leaves alone, whatever the draws: it answers (OK, 0) in one step, clears the
latch, keeps every pin and polarity, keeps `LAST_RAW` unless polling is on, and time does not go back (R69). -/
def Obligations.ProcessFrame : Prop :=
  ∀ s : State, ∃ t, exec .process s = .next t ∧
    t.pending = 0 ∧ t.responses = s.responses ++ [⟨.ok, 0⟩] ∧ s.trace <+: t.trace ∧ s.clock ≤ t.clock ∧
    t.cfg = s.cfg ∧ t.pollEn = s.pollEn ∧ t.init = s.init ∧ t.err = s.err ∧ t.faultMark = s.faultMark ∧
    t.cpos = s.cpos ∧ t.cmds = s.cmds ∧ t.edges = s.edges ∧ t.turns = s.turns ∧
    t.chans.length = s.chans.length ∧
    ∀ c, (t.chan c).ledPin = (s.chan c).ledPin ∧ (t.chan c).snsPin = (s.chan c).snsPin ∧
      (t.chan c).activeLow = (s.chan c).activeLow ∧
      (s.pollEn = false → (t.chan c).lastRaw = (s.chan c).lastRaw)

/-- R201 phase 3: with nothing signalled and polling off, PROCESS ticks every fading channel, in ascending order, draws nothing and
does nothing else. -/
def Obligations.QuietProcessOnlyTicks : Prop :=
  ∀ s : State, s.chans.length = s.cfg.n → s.pollEn = false →
    (∀ c < s.cfg.n, s.pending.getLsbD c = true → s.cfg.pinMax.toNat < (s.chan c).snsPin.toNat) →
    exec .process s = .next { s with
      pending := 0
      chans := s.chans.map (tickIfFading s.cfg)
      trace := s.trace ++ tickEvents s.cfg s.chans
      responses := s.responses ++ [⟨.ok, 0⟩] }

/-- R201, R69, R70: the whole of PROCESS when its draws are listed: each signalled functional channel is sampled once, resolved and
retargeted; then, with polling on, each functional channel is sampled once more and polled; then every fading channel ticks. The
samples and the time steps are taken in that order, each read giving the running sum of the steps. -/
def Obligations.ProcessResolvesPollsAndTicks : Prop :=
  ∀ (s : State) (raws₁ raws₂ restS : List Level) (ds₁ ds₂ restT : List Nat),
    s.chans.length = s.cfg.n → s.samples = raws₁ ++ raws₂ ++ restS → s.timeSteps = ds₁ ++ ds₂ ++ restT →
    raws₁.length = drawsBelow (edgeSamples s) s.cfg.n → ds₁.length = raws₁.length →
    raws₂.length = (if s.pollEn then drawsBelow (pollSamples s) s.cfg.n else 0) → ds₂.length = raws₂.length →
    let resolved : State := { s with
      chans := sampledChannels s (edgeSamples s) resolveAndRetarget raws₁ ds₁
      clock := s.clock + ds₁.sum }
    let polled : List Channel :=
      if s.pollEn then sampledChannels resolved (pollSamples s) pollChannel raws₂ ds₂ else resolved.chans
    exec .process s = .next { s with
      pending := 0
      chans := polled.map (tickIfFading s.cfg)
      trace := s.trace ++ tickEvents s.cfg polled
      samples := restS, timeSteps := restT, clock := s.clock + ds₁.sum + ds₂.sum
      responses := s.responses ++ [⟨.ok, 0⟩] }

/-- R201, R69, R70 where too few draws are listed: whatever the free values are (logs 4 and 5), PROCESS does what it does with some
`k` samples and `k` time steps listed, `k` the number of reads of its phases 1 and 2, that agree with the listed ones as far as
these go; what is listed beyond them stays. -/
def Obligations.ProcessTakesSomeDraws : Prop :=
  ∀ s : State, s.chans.length = s.cfg.n →
    let k := drawsBelow (edgeSamples s) s.cfg.n + (if s.pollEn then drawsBelow (pollSamples s) s.cfg.n else 0)
    ∃ (raws : List Level) (ds : List Nat) (t u : State),
      raws.length = k ∧ ds.length = k ∧ (raws <+: s.samples ∨ s.samples <+: raws) ∧
      (ds <+: s.timeSteps ∨ s.timeSteps <+: ds) ∧
      exec .process s = .next t ∧ exec .process { s with samples := raws, timeSteps := ds } = .next u ∧
      t = { u with samples := s.samples.drop k, timeSteps := s.timeSteps.drop k, draws := t.draws }

/-- R202, R203: one PROCESS, from a state where each target follows its door (R40): whatever it resolved, each channel's level has
made one step, from where it was, toward the target its door state now asks for; and its observable state is the one that level and
door state give. -/
def Obligations.ProcessMovesTheObservableState : Prop :=
  ∀ (s t : State) (c : Nat), s.Inv → s.TargetFollowsDoor → c < s.cfg.n → exec .process s = .next t →
    let target : Intensity := if (t.chan c).doorOpen then s.cfg.wrap else 0
    let from' := (s.chan c).cur.toNat
    (t.chan c).tgt = target ∧
    (t.chan c).cur.toNat =
      (if from' < target.toNat then min (from' + s.cfg.fadeStep.toNat) target.toNat
      else max (from' - s.cfg.fadeStep.toNat) target.toNat) ∧
    obs t c =
      (if (t.chan c).cur = target then (if (t.chan c).doorOpen then .idleOpen else .idleClosed)
      else (if (t.chan c).doorOpen then .fadingUp else .fadingDown))

/-! ### Configuration, self-test and reset -/

/-- R42: the reset value of every element, for all parameters, after power-up; and RESET leaves the same ones. -/
def Obligations.ResetValuesAreTheSpecs : Prop :=
  (∀ s : State, s.chans.length = s.cfg.n → ∃ t, exec .reset s = .next t ∧ t.cfg = s.cfg ∧
    t.pending = (State.resetWith s.cfg).pending ∧ t.pollEn = (State.resetWith s.cfg).pollEn ∧
    t.init = (State.resetWith s.cfg).init ∧ t.err = (State.resetWith s.cfg).err ∧
    t.chans = (State.resetWith s.cfg).chans) ∧
  ∀ cfg : Config,
    (State.resetWith cfg).pending = 0 ∧ (State.resetWith cfg).pollEn = false ∧ (State.resetWith cfg).err = false ∧
    ((State.resetWith cfg).init = true ↔ ∀ c < cfg.n,
      (cfg.defaultLedPin.getD c 0).toNat ≤ cfg.pinMax.toNat ∧ (cfg.defaultSnsPin.getD c 0).toNat ≤ cfg.pinMax.toNat) ∧
    (State.resetWith cfg).chans.length = cfg.n ∧
    ∀ c < cfg.n, (State.resetWith cfg).chan c = {
      ledPin := cfg.defaultLedPin.getD c 0, snsPin := cfg.defaultSnsPin.getD c 0
      activeLow := cfg.activeLowReset.getD c true
      cur := 0, tgt := 0, fading := false, doorOpen := false
      lastTrig := 0, tsValid := decide (cfg.tsResetMode = .zero)
      lastRaw := if cfg.activeLowReset.getD c true then .high else .low
      duty := 0 }

/-- R220, R300: RESET leaves the machine as power-up does, emits the zero duty writes of all channels and then the pulses of the
functional ones, and responds with INIT; the inputs, the position in the stream, the earlier responses and the recorded fault (R282)
stay. -/
def Obligations.ResetRestoresThePowerUpState : Prop :=
  ∀ s : State, s.chans.length = s.cfg.n →
    exec .reset s = .next { State.resetWith s.cfg with
      trace := s.trace ++ (List.range s.cfg.n).map (Event.duty · 0) ++
        (List.range s.cfg.n).flatMap fun c =>
          if (s.cfg.defaultLedPin.getD c 0).toNat ≤ s.cfg.pinMax.toNat then [Event.pulse c, Event.duty c 0] else []
      responses := s.responses ++ [⟨.ok, if (State.resetWith s.cfg).init then 1 else 0⟩]
      faultMark := s.faultMark, cpos := s.cpos, cmds := s.cmds, edges := s.edges, turns := s.turns
      samples := s.samples, timeSteps := s.timeSteps, clock := s.clock, draws := s.draws }

/-- R221, R227, R228: ISINIT and GETPOLL respond with their flag and write nothing; SETPOLL writes the polling enable and nothing
else. -/
def Obligations.FlagCommandsReadAndWriteTheirFlag : Prop :=
  ∀ s : State,
    exec .isinit s = .next { s with responses := s.responses ++ [⟨.ok, if s.init then 1 else 0⟩] } ∧
    exec .getpoll s = .next { s with responses := s.responses ++ [⟨.ok, if s.pollEn then 1 else 0⟩] } ∧
    ∀ on, exec (.setpoll on) s = .next { s with pollEn := on, responses := s.responses ++ [⟨.ok, 0⟩] }

/-- R222, R223, R229: SETLED with valid pins rebinds exactly the channels whose pin changes, each with a pulse that ends at the
channel's level, in ascending order, and responds 1. -/
def Obligations.SetledRebindsChangedPins : Prop :=
  ∀ (s : State) (pins : List Pin), s.chans.length = s.cfg.n → pins.length = s.cfg.n →
    (∀ p ∈ pins, p.toNat ≤ s.cfg.pinMax.toNat) →
    exec (.setled pins) s = .next { s with
      chans := (List.range s.cfg.n).map fun c =>
        if pins.getD c 0 = (s.chan c).ledPin then s.chan c
        else { s.chan c with ledPin := pins.getD c 0, duty := (s.chan c).cur }
      trace := s.trace ++ (List.range s.cfg.n).flatMap fun c =>
        if pins.getD c 0 = (s.chan c).ledPin then [] else [Event.pulse c, Event.duty c (s.chan c).cur]
      responses := s.responses ++ [⟨.ok, 1⟩] }

/-- R224, R225: SETSNS with valid pins rebinds exactly the channels whose pin changes and resets their timestamp latch, and
responds 1. -/
def Obligations.SetsnsRebindsChangedPins : Prop :=
  ∀ (s : State) (pins : List Pin), s.chans.length = s.cfg.n → pins.length = s.cfg.n →
    (∀ p ∈ pins, p.toNat ≤ s.cfg.pinMax.toNat) →
    exec (.setsns pins) s = .next { s with
      chans := (List.range s.cfg.n).map fun c =>
        if pins.getD c 0 = (s.chan c).snsPin then s.chan c
        else { s.chan c with
          snsPin := pins.getD c 0, lastTrig := 0, tsValid := decide (s.cfg.tsResetMode = .zero) }
      responses := s.responses ++ [⟨.ok, 1⟩] }

/-- R232, R283: one invalid pin refuses SETLED or SETSNS as a whole: value 0, nothing written, no rejection. -/
def Obligations.OneInvalidPinRefusesTheWholeArray : Prop :=
  ∀ (s : State) (pins : List Pin), pins.length = s.cfg.n → (∃ p ∈ pins, s.cfg.pinMax.toNat < p.toNat) →
    exec (.setled pins) s = .next { s with responses := s.responses ++ [⟨.ok, 0⟩] } ∧
    exec (.setsns pins) s = .next { s with responses := s.responses ++ [⟨.ok, 0⟩] }

/-- R226: SETPOL writes every channel's polarity and nothing else. -/
def Obligations.SetpolWritesOnlyPolarities : Prop :=
  ∀ (s : State) (pol : Word), s.chans.length = s.cfg.n → pol.toNat < 2 ^ s.cfg.n →
    exec (.setpol pol) s = .next { s with
      chans := (List.range s.cfg.n).map fun c => { s.chan c with activeLow := pol.getLsbD c }
      responses := s.responses ++ [⟨.ok, 0⟩] }

/-- R234, R309: STEST sweeps every functional LED channel fully on then off, in sequence, and leaves levels and targets alone. -/
def Obligations.StestSweepsFunctionalChannels : Prop :=
  ∀ s : State, s.chans.length = s.cfg.n →
    exec .stest s = .next { s with
      chans := (List.range s.cfg.n).map fun c =>
        if (s.chan c).ledPin.toNat ≤ s.cfg.pinMax.toNat then { s.chan c with duty := 0 } else s.chan c
      trace := s.trace ++ (List.range s.cfg.n).flatMap fun c =>
        if (s.chan c).ledPin.toNat ≤ s.cfg.pinMax.toNat then [Event.duty c s.cfg.wrap, Event.duty c 0] else []
      responses := s.responses ++ [⟨.ok, 0⟩] }

/-- R230: the configuration and self-test commands never write a level, a target, `FADING` or a door state, and never the latch. -/
def Obligations.ConfigurationNeverTouchesFades : Prop :=
  ∀ (i : Instr) (s t : State),
    i.opcode ∈ [Opcode.setled, .setsns, .setpol, .setpoll, .getpoll, .isinit, .stest] → exec i s = .next t →
    t.pending = s.pending ∧
    ∀ c, (t.chan c).cur = (s.chan c).cur ∧ (t.chan c).tgt = (s.chan c).tgt ∧
      (t.chan c).fading = (s.chan c).fading ∧ (t.chan c).doorOpen = (s.chan c).doorOpen

/-- R41, the W marks of its table, with R26 and R233: which commands may write each element; every other command leaves it alone. -/
def Obligations.CommandsWriteOnlyTheirElements : Prop :=
  ∀ (i : Instr) (s t : State), exec i s = .next t →
    (i.opcode ∉ [Opcode.edge, .gedge, .drain, .process, .reset] → t.pending = s.pending) ∧
    (i.opcode ∉ [Opcode.setpoll, .reset] → t.pollEn = s.pollEn) ∧
    (i.opcode ≠ .reset → t.init = s.init) ∧
    ∀ c,
      (i.opcode ∉ [Opcode.setled, .reset] → (t.chan c).ledPin = (s.chan c).ledPin) ∧
      (i.opcode ∉ [Opcode.setsns, .reset] → (t.chan c).snsPin = (s.chan c).snsPin) ∧
      (i.opcode ∉ [Opcode.setpol, .reset] → (t.chan c).activeLow = (s.chan c).activeLow) ∧
      (i.opcode ∉ [Opcode.tick, .process, .reset] → (t.chan c).cur = (s.chan c).cur) ∧
      (i.opcode ∉ [Opcode.retarget, .poll, .process, .reset] → (t.chan c).tgt = (s.chan c).tgt) ∧
      (i.opcode ∉ [Opcode.retarget, .tick, .poll, .process, .reset] → (t.chan c).fading = (s.chan c).fading) ∧
      (i.opcode ∉ [Opcode.resolve, .poll, .process, .reset] → (t.chan c).doorOpen = (s.chan c).doorOpen) ∧
      (i.opcode ∉ [Opcode.resolve, .poll, .process, .reset, .setsns] →
        (t.chan c).lastTrig = (s.chan c).lastTrig ∧ (t.chan c).tsValid = (s.chan c).tsValid) ∧
      (i.opcode ∉ [Opcode.poll, .process, .reset] → (t.chan c).lastRaw = (s.chan c).lastRaw) ∧
      (i.opcode ∉ [Opcode.tick, .process, .reset, .setled, .stest] → (t.chan c).duty = (s.chan c).duty)

/-! ### The output mux -/

/-- R260, R261: a pin is driven by the lowest-numbered functional LED channel bound to it, at that channel's duty value, or by none;
`Sense` is the set of functional sensor channels bound to it; a pin above PIN_MAX is neither driven nor sensed. -/
def Obligations.PinFunctionsFollowTheBindings : Prop :=
  ∀ (s : State) (p : Pin),
    (∀ c, drive s p = .pwm c ↔
      c < s.cfg.n ∧ (s.chan c).ledPin = p ∧ p.toNat ≤ s.cfg.pinMax.toNat ∧ ∀ d < c, (s.chan d).ledPin ≠ p) ∧
    (drive s p = .none ↔ ∀ c < s.cfg.n, (s.chan c).ledPin = p → s.cfg.pinMax.toNat < p.toNat) ∧
    (∀ c, c ∈ sense s p ↔ c < s.cfg.n ∧ (s.chan c).snsPin = p ∧ p.toNat ≤ s.cfg.pinMax.toNat) ∧
    (s.cfg.pinMax.toNat < p.toNat → drive s p = .none ∧ sense s p = []) ∧
    (∀ c, drive s p = .pwm c → pinDuty s p = some (s.chan c).duty) ∧ (drive s p = .none → pinDuty s p = none)

/-- R265: after an accepted SETLED a pin is driven as the new array says: released when no channel names it, else driven by the
lowest channel that does. -/
def Obligations.SetledReleasesAndBindsPins : Prop :=
  ∀ (s t : State) (pins : List Pin) (p : Pin), s.chans.length = s.cfg.n → pins.length = s.cfg.n →
    (∀ q ∈ pins, q.toNat ≤ s.cfg.pinMax.toNat) → exec (.setled pins) s = .next t →
    (p ∉ pins → drive t p = .none) ∧
    (∀ c, c < s.cfg.n → pins.getD c 0 = p → (∀ d < c, pins.getD d 0 ≠ p) → drive t p = .pwm c)

/-! ### Invariants -/

/-- R7, R24, R34, R38, R39, R133: from every state that meets it, a step keeps the machine's invariant. -/
def Obligations.StepKeepsTheInvariant : Prop :=
  ∀ s t : State, s.Inv → step s = .next t → t.Inv

/-- R42, R38, R39: power-up at any legal parameters meets the invariant, and every target follows its door. -/
def Obligations.PowerUpMeetsTheInvariant : Prop :=
  ∀ cfg : Config, cfg.Legal → (State.resetWith cfg).Inv ∧ (State.resetWith cfg).TargetFollowsDoor

/-- The reset state meets the invariant. -/
def Obligations.ResetStateMeetsTheInvariant : Prop := State.reset.Inv

/-- R39: after a tick that found the channel fading, `FADING` says exactly whether the level is still off its target, and the duty
register holds the level; after a PROCESS the first holds of every channel, and the second of every channel it ticked: one that
emitted a duty event (R266), and so one that was fading before, one that still is, and one whose target the PROCESS has changed,
that with a step of at least WRAP is at rest again. -/
def Obligations.FadingMeansOffTargetAfterATick : Prop :=
  ∀ s t : State, s.Inv →
    (∀ ch : ChannelField, ch.toNat < s.cfg.n → (s.chan ch.toNat).fading = true → exec (.tick ch) s = .next t →
      (t.chan ch.toNat).fading = decide ((t.chan ch.toNat).cur ≠ (t.chan ch.toNat).tgt) ∧
      (t.chan ch.toNat).duty = (t.chan ch.toNat).cur) ∧
    (exec .process s = .next t → ∀ c < s.cfg.n,
      (t.chan c).fading = decide ((t.chan c).cur ≠ (t.chan c).tgt) ∧
      (∀ v, Event.duty c v ∈ t.trace.drop s.trace.length → v = (t.chan c).cur ∧ (t.chan c).duty = (t.chan c).cur) ∧
      ((s.chan c).fading = true ∨ (t.chan c).fading = true ∨ (t.chan c).tgt ≠ (s.chan c).tgt →
        Event.duty c (t.chan c).cur ∈ t.trace.drop s.trace.length ∧ (t.chan c).duty = (t.chan c).cur))

/-- R40 (log 21: POLL keeps it too, which R40's list does not say): every command but RESOLVE and RETARGET keeps each target
following its door. -/
def Obligations.TargetsFollowDoors : Prop :=
  ∀ (i : Instr) (s t : State), s.chans.length = s.cfg.n → i.opcode ≠ .resolve → i.opcode ≠ .retarget →
    s.TargetFollowsDoor → exec i s = .next t → t.TargetFollowsDoor

/-- R40: a direct RESOLVE, and a direct RETARGET, can break that correspondence. -/
def Obligations.ResolveAndRetargetCanBreakIt : Prop :=
  State.reset.TargetFollowsDoor ∧
  (∃ t, exec (.resolve 0 .low 50000) State.reset = .next t ∧ ¬ t.TargetFollowsDoor) ∧
  (∃ t, exec (.retarget 0 true) State.reset = .next t ∧ ¬ t.TargetFollowsDoor)

/-- R22, R43, R61, R69, R99, R266, R282: no step changes the parameters, takes back an output or a response, takes time or the
position in the command stream back, or clears a recorded fault. That the events and the responses stand in lists that only grow is
the model's choice (log 15, DESIGN CHOICE). -/
def Obligations.StepsOnlyExtendTheRecord : Prop :=
  ∀ s t : State, step s = .next t →
    t.cfg = s.cfg ∧ s.trace <+: t.trace ∧ s.responses <+: t.responses ∧ s.clock ≤ t.clock ∧ s.cpos ≤ t.cpos ∧
    (s.faultMark = true → t.faultMark = true)
end

