-- ==== Sys2Proof/Laws/Assembler.lean ====
section
/-! SUPPORT. What the parts of the assembler accept, said once: operands, numerals and words. -/

namespace Sys2Proof.Machine

open Sys2Proof

/-! ### Operands -/

/-- A number is taken as a field exactly when it is that field's value. -/
theorem fieldOperand_eq_some_iff {w v : Nat} {b : BitVec w} : fieldOperand w v = some b ↔ b.toNat = v := by
  unfold fieldOperand
  split
  · next h =>
    constructor
    · intro e; cases e; simp [Nat.mod_eq_of_lt h]
    · rintro rfl; simp
  · next h =>
    constructor
    · intro e; cases e
    · rintro rfl; exact absurd b.isLt h

/-- A number is taken as a bit exactly when it is that bit's value. -/
theorem bitOperand_eq_some_iff {v : Nat} {b : Bool} : bitOperand v = some b ↔ b.toNat = v := by
  unfold bitOperand
  split <;> cases b <;> simp_all
  all_goals omega

/-- An array of numbers is taken exactly when it is the values of what is taken. -/
theorem mapM_eq_some_iff {α : Type} {f : Nat → Option α} {g : α → Nat} (h : ∀ v a, f v = some a ↔ g a = v) :
    ∀ {vs : List Nat} {as : List α}, vs.mapM f = some as ↔ as.map g = vs := by
  intro vs
  induction vs with
  | nil => intro as; simp [eq_comm]
  | cons v vs ih =>
    intro as
    cases as with
    | nil => simp [List.mapM_cons]; cases f v <;> cases List.mapM f vs <;> simp
    | cons a as =>
      simp only [List.mapM_cons, List.map_cons, List.cons.injEq]
      rw [← h, ← ih]
      cases f v <;> cases List.mapM f vs <;> simp

/-- A word made of bits, channel 0 first, is below the power its number of bits gives. -/
theorem foldr_bits_lt (bs : List Bool) : bs.foldr (fun (b : Bool) v => 2 * v + b.toNat) 0 < 2 ^ bs.length := by
  induction bs with
  | nil => simp
  | cons b bs ih =>
    simp only [List.foldr_cons, List.length_cons]
    have := b.toNat_lt
    omega

/-- Bit c of a word made of bits, channel 0 first, is the bit of channel c. -/
theorem foldr_bits_testBit (bs : List Bool) (c : Nat) :
    (bs.foldr (fun (b : Bool) v => 2 * v + b.toNat) 0).testBit c = bs.getD c false := by
  induction bs generalizing c with
  | nil => simp
  | cons b bs ih =>
    simp only [List.foldr_cons]
    cases c with
    | zero => cases b <;> simp [Nat.testBit_zero]
    | succ c =>
      have h (v : Nat) : (2 * v + b.toNat) / 2 = v := by cases b <;> simp; omega
      rw [Nat.testBit_succ, h, ih]
      simp

/-! ### Numerals -/

/-- A property of every digit character holds of every character of a numeral. -/
theorem forall_mem_toDigits {b v : Nat} (hb : 2 ≤ b) {P : Char → Prop} (hP : ∀ d < b, P (Nat.digitChar d)) :
    ∀ c ∈ Nat.toDigits b v, P c := by
  induction v using Nat.strongRecOn with
  | ind v ih =>
    by_cases h : v < b
    · rw [Nat.toDigits_of_lt_base h]; simpa using hP v h
    · rw [Nat.toDigits_of_base_le (b := b) (n := v) (by omega) (by omega)]
      intro c hc
      rw [List.mem_append] at hc
      rcases hc with hc | hc
      · exact ih _ (Nat.div_lt_self (by omega) (by omega)) c hc
      · rw [List.mem_singleton.1 hc]
        exact hP _ (Nat.mod_lt v (by omega))

/-- A numeral in a base is read back as its number, also after a change of its digits' case. -/
theorem digits_map_toDigits (b v : Nat) (hb : 2 ≤ b) (f : Char → Char)
    (hf : ∀ d < b, hexDigit (f (Nat.digitChar d)) = some d) : digits b ((Nat.toDigits b v).map f) = some v := by
  have key : ((Nat.toDigits b v).map f) ≠ [] ∧ ((Nat.toDigits b v).map f).foldl (fun v c => do
      let v ← v
      let d ← hexDigit c
      if d < b then some (v * b + d) else none) (some 0) = some v := by
    induction v using Nat.strongRecOn with
    | ind v ih =>
      by_cases h : v < b
      · rw [Nat.toDigits_of_lt_base h]
        simp [hf v h, h]
      · have hm := Nat.mod_lt v (show b > 0 by omega)
        rw [Nat.toDigits_of_base_le (b := b) (n := v) (by omega) (by omega), List.map_append, List.foldl_append,
          (ih (v / b) (Nat.div_lt_self (by omega) (by omega))).2]
        simp only [List.map_cons, List.map_nil, List.foldl_cons, List.foldl_nil, hf _ hm, Option.bind_eq_bind,
          Option.bind_some, hm, if_true, Option.some.injEq, ne_eq, List.append_eq_nil_iff, List.cons_ne_self,
          and_false, not_false_eq_true, true_and]
        have := Nat.div_add_mod v b
        rw [Nat.mul_comm]
        omega
  unfold digits
  simp only [List.isEmpty_iff, key.1, if_false]
  exact key.2

/-! ### Words of a line -/

/-- A run of letters and digits, read to its end. -/
theorem tokenize_append (w : List Char) (hw : ∀ c ∈ w, c.isAlphanum = true) (acc rest : List Char) :
    tokenize acc (w ++ rest) = tokenize (w.reverse ++ acc) rest := by
  induction w generalizing acc with
  | nil => rfl
  | cons c w ih =>
    simp only [List.cons_append, tokenize, hw c List.mem_cons_self, if_true]
    rw [ih fun d hd => hw d (List.mem_cons_of_mem _ hd)]
    simp

/-- Where the rest of a line begins with no letter and no digit, the word read so far is a token of its own. -/
theorem tokenize_flush (acc rest : List Char) (h : ∀ c ∈ rest.head?, c.isAlphanum = false) :
    tokenize acc rest = flushWord acc (tokenize [] rest) := by
  cases rest with
  | nil => simp [tokenize, flushWord]
  | cons c cs =>
    have hf : ∀ ts, flushWord [] ts = ts := fun ts => rfl
    simp only [tokenize, h c (by simp), hf]
    split_ifs <;> simp_all

end Sys2Proof.Machine
end

