-- ==== Sys2Proof/Laws/Decode.lean ====
section
/-! SUPPORT. What the fields of a header and of the operand words read back, and what the decoder can answer. -/

namespace Sys2Proof

/-- The opcode map reads its own codes back (R93). -/
@[simp] theorem opcodeOf_code (o : Opcode) : opcodeOf o.code = some o := by cases o <;> rfl

/-- An `OP` field that assigns an opcode is that opcode's code (R93). -/
theorem code_of_opcodeOf {op : BitVec 5} {o : Opcode} (h : opcodeOf op = some o) : o.code = op := by
  revert h
  revert o
  revert op
  decide

/-- The unassigned `OP` fields are 0x00 and 0x11 to 0x1F (R93, R98). -/
theorem opcodeOf_eq_none_iff (op : BitVec 5) : opcodeOf op = none ↔ op.toNat = 0 ∨ 0x11 ≤ op.toNat := by
  revert op
  decide

@[simp] theorem opField_header (o : Opcode) (ch : ChannelField) (b : Bool) (pin : Pin) (evm : BitVec 4) :
    opField (header o ch b pin evm) = o.code := by
  apply BitVec.eq_of_getLsbD_eq
  intro i hi
  simp only [opField, header, BitVec.getLsbD_extractLsb', BitVec.getLsbD_append]
  have h : i < 5 := hi
  interval_cases i <;> simp

@[simp] theorem chField_header (o : Opcode) (ch : ChannelField) (b : Bool) (pin : Pin) (evm : BitVec 4) :
    chField (header o ch b pin evm) = ch := by
  apply BitVec.eq_of_getLsbD_eq
  intro i hi
  simp only [chField, header, BitVec.getLsbD_extractLsb', BitVec.getLsbD_append]
  have h : i < 5 := hi
  interval_cases i <;> simp

@[simp] theorem bField_header (o : Opcode) (ch : ChannelField) (b : Bool) (pin : Pin) (evm : BitVec 4) :
    bField (header o ch b pin evm) = b := by
  simp only [bField, header, BitVec.getLsbD_append]
  cases b <;> simp

@[simp] theorem pinField_header (o : Opcode) (ch : ChannelField) (b : Bool) (pin : Pin) (evm : BitVec 4) :
    pinField (header o ch b pin evm) = pin := by
  apply BitVec.eq_of_getLsbD_eq
  intro i hi
  simp only [pinField, header, BitVec.getLsbD_extractLsb', BitVec.getLsbD_append]
  have h : i < 8 := hi
  interval_cases i <;> simp

@[simp] theorem evmField_header (o : Opcode) (ch : ChannelField) (b : Bool) (pin : Pin) (evm : BitVec 4) :
    evmField (header o ch b pin evm) = evm := by
  apply BitVec.eq_of_getLsbD_eq
  intro i hi
  simp only [evmField, header, BitVec.getLsbD_extractLsb', BitVec.getLsbD_append]
  have h : i < 4 := hi
  interval_cases i <;> simp

@[simp] theorem levelOfBit_bitOfLevel (l : Level) : levelOfBit (bitOfLevel l) = l := by cases l <;> rfl

@[simp] theorem bitOfLevel_levelOfBit (b : Bool) : bitOfLevel (levelOfBit b) = b := by cases b <;> rfl

/-- A time is read back from its two words (R71, R97). -/
@[simp] theorem timeOf_packTime (now : Timestamp) : timeOf (packTime now) = now := by
  apply BitVec.eq_of_getLsbD_eq
  intro i hi
  simp only [timeOf, packTime, List.getD_cons_zero, List.getD_cons_succ, BitVec.getLsbD_append,
    BitVec.getLsbD_extractLsb']
  by_cases h : i < 32
  · simp [h]
  · simp only [h, if_false]
    have : i - 32 < 32 := by omega
    simp [this, show 32 + (i - 32) = i by omega]

/-- The number of pin-array words (R91). -/
@[simp] theorem packPins_length (pins : List Pin) : (packPins pins).length = pinWords pins.length := by
  simp [packPins]

/-- Every slot of the packed words reads its pin back, and an absent slot reads zero (R97). -/
theorem pinSlot_packPins (pins : List Pin) (c : Nat) (h : c < 4 * pinWords pins.length) :
    pinSlot (packPins pins) c = pins.getD c 0 := by
  have hk : c / 4 < pinWords pins.length := by omega
  have hj : c % 4 = 0 ∨ c % 4 = 1 ∨ c % 4 = 2 ∨ c % 4 = 3 := by omega
  have e : (packPins pins).getD (c / 4) 0 =
      pins.getD (4 * (c / 4) + 3) 0 ++ pins.getD (4 * (c / 4) + 2) 0 ++ pins.getD (4 * (c / 4) + 1) 0 ++
        pins.getD (4 * (c / 4)) 0 := by
    simp [packPins, List.getD_eq_getElem?_getD, hk]
  unfold pinSlot
  rw [e]
  rcases hj with hj | hj | hj | hj <;> rw [hj] <;> apply BitVec.eq_of_getLsbD_eq <;> intro i hi <;>
    simp only [BitVec.getLsbD_extractLsb', BitVec.getLsbD_append]
  · rw [show 4 * (c / 4) = c by omega]
    simp [hi]
  · rw [show 4 * (c / 4) + 1 = c by omega]
    simp [hi, show ¬ 8 * 1 + i < 8 by omega, show 8 * 1 + i - 8 = i by omega]
  · rw [show 4 * (c / 4) + 2 = c by omega]
    simp [hi, show ¬ 8 * 2 + i < 8 by omega, show 8 * 2 + i - 8 - 8 = i by omega,
      show ¬ 8 * 2 + i - 8 < 8 by omega]
  · rw [show 4 * (c / 4) + 3 = c by omega]
    simp [hi, show ¬ 8 * 3 + i < 8 by omega, show 8 * 3 + i - 8 - 8 - 8 = i by omega,
      show ¬ 8 * 3 + i - 8 < 8 by omega, show ¬ 8 * 3 + i - 8 - 8 < 8 by omega]

/-- A pin array of N pins is read back (R97). -/
theorem pinsOf_packPins (pins : List Pin) : pinsOf pins.length (packPins pins) = pins := by
  apply List.ext_getElem
  · simp [pinsOf]
  · intro i h1 h2
    have h : i < 4 * pinWords pins.length := by unfold pinWords; omega
    simp [pinsOf, pinSlot_packPins pins i h, h2]

/-- The packed words have no reserved slot set (R97). -/
theorem packPins_not_reserved (cfg : Config) (pins : List Pin) (h : pins.length = cfg.n) :
    operandReserved cfg .a8 (packPins pins) = false := by
  simp only [operandReserved, List.any_eq_false, List.mem_range, Bool.and_eq_true, decide_eq_true_eq, bne_iff_ne]
  rintro c hc ⟨hn, hne⟩
  apply hne
  rw [← h] at hc hn
  rw [pinSlot_packPins pins c hc]
  simp [List.getD_eq_getElem?_getD, hn]

/-- What the decoder can answer: a rejection for one of the three causes in their order, or the command (R101). -/
theorem decode_cases (cfg : Config) (w0 : Word) (ops : List Word) :
    (opcodeOf (opField w0) = none ∧ decode cfg w0 ops = .rejected .illegalOp) ∨
    ∃ o, opcodeOf (opField w0) = some o ∧
      ((w0 &&& o.format.legalMask ≠ o.baseHeader ∧ decode cfg w0 ops = .rejected .reservedBits) ∨
       (w0 &&& o.format.legalMask = o.baseHeader ∧ operandReserved cfg o.format ops = true ∧
          decode cfg w0 ops = .rejected .reservedBits) ∨
       (w0 &&& o.format.legalMask = o.baseHeader ∧ operandReserved cfg o.format ops = false ∧
          o.format.namesChannel = true ∧ cfg.n ≤ (chField w0).toNat ∧ decode cfg w0 ops = .rejected .badChannel) ∨
       (w0 &&& o.format.legalMask = o.baseHeader ∧ operandReserved cfg o.format ops = false ∧
          (o.format.namesChannel = true → (chField w0).toNat < cfg.n) ∧
          decode cfg w0 ops = .ok (instrOf cfg o w0 ops))) := by
  cases ho : opcodeOf (opField w0) with
  | none => exact .inl ⟨rfl, by simp [decode, ho]⟩
  | some o =>
    refine .inr ⟨o, rfl, ?_⟩
    have hd : decode cfg w0 ops = decodeAs cfg o w0 ops := by simp [decode, ho]
    rw [hd]
    unfold decodeAs
    by_cases h1 : w0 &&& o.format.legalMask = o.baseHeader
    · cases h2 : operandReserved cfg o.format ops
      · by_cases h3 : o.format.namesChannel = true ∧ cfg.n ≤ (chField w0).toNat
        · exact .inr (.inr (.inl ⟨h1, rfl, h3.1, h3.2, by simp [h1, h3]⟩))
        · refine .inr (.inr (.inr ⟨h1, rfl, fun h => Nat.lt_of_not_le fun hc => h3 ⟨h, hc⟩, ?_⟩))
          have : (o.format.namesChannel && decide (cfg.n ≤ (chField w0).toNat)) = false := by
            simpa [Bool.and_eq_false_iff] using h3
          simp [h1, this]
      · exact .inr (.inl ⟨h1, rfl, by simp [h1]⟩)
    · exact .inl ⟨h1, by simp [h1]⟩

/-- A header whose fields outside the opcode's format are zero passes the header check (R91, R98). -/
theorem header_legal (o : Opcode) (ch : ChannelField) (b : Bool) (pin : Pin) (evm : BitVec 4)
    (h : o.format.free = 0x07C00000 ∧ b = false ∧ pin = 0 ∧ evm = 0 ∨
      o.format.free = 0x07E00000 ∧ pin = 0 ∧ evm = 0 ∨
      o.format.free = 0x00200000 ∧ ch = 0 ∧ pin = 0 ∧ evm = 0 ∨
      o.format.free = 0x0000FF0F ∧ ch = 0 ∧ b = false ∨
      o.format.free = 0 ∧ ch = 0 ∧ b = false ∧ pin = 0 ∧ evm = 0) :
    header o ch b pin evm &&& o.format.legalMask = o.baseHeader := by
  apply BitVec.eq_of_getLsbD_eq
  intro i hi
  simp only [header, Format.legalMask, BitVec.getLsbD_and, BitVec.getLsbD_not, BitVec.getLsbD_append,
    Opcode.baseHeader, BitVec.getLsbD_shiftLeft, BitVec.getLsbD_setWidth]
  rcases h with ⟨hf, h⟩ | ⟨hf, h⟩ | ⟨hf, h⟩ | ⟨hf, h⟩ | ⟨hf, h⟩ <;> rw [hf] <;> interval_cases i <;> simp [h]

/-- A header and operand words that pass the three checks decode to the command (R101). -/
theorem decode_of_checks {cfg : Config} {o : Opcode} {w0 : Word} {ops : List Word} (h1 : opField w0 = o.code)
    (h2 : w0 &&& o.format.legalMask = o.baseHeader) (h3 : operandReserved cfg o.format ops = false)
    (h4 : o.format.namesChannel = true → (chField w0).toNat < cfg.n) :
    decode cfg w0 ops = .ok (instrOf cfg o w0 ops) := by
  have h5 : (o.format.namesChannel && decide (cfg.n ≤ (chField w0).toNat)) = false := by
    cases h : o.format.namesChannel <;> simp
    exact h4 h
  simp [decode, h1, decodeAs, h2, h3, h5]

end Sys2Proof
end

