-- ==== Sys2Proof/Laws/State.lean ====
section
/-! SUPPORT. Every field after every plain update of the state, so that no later proof unfolds a record update. -/

namespace Sys2Proof.Machine

open Sys2Proof

/-! ### `setChan` -/

@[simp] theorem setChan_cfg (s : State) (c : Nat) (ch : Channel) : (s.setChan c ch).cfg = s.cfg := rfl
@[simp] theorem setChan_pending (s : State) (c : Nat) (ch : Channel) : (s.setChan c ch).pending = s.pending := rfl
@[simp] theorem setChan_pollEn (s : State) (c : Nat) (ch : Channel) : (s.setChan c ch).pollEn = s.pollEn := rfl
@[simp] theorem setChan_init (s : State) (c : Nat) (ch : Channel) : (s.setChan c ch).init = s.init := rfl
@[simp] theorem setChan_err (s : State) (c : Nat) (ch : Channel) : (s.setChan c ch).err = s.err := rfl
@[simp] theorem setChan_chans (s : State) (c : Nat) (ch : Channel) : (s.setChan c ch).chans = s.chans.set c ch := rfl
@[simp] theorem setChan_trace (s : State) (c : Nat) (ch : Channel) : (s.setChan c ch).trace = s.trace := rfl
@[simp] theorem setChan_responses (s : State) (c : Nat) (ch : Channel) : (s.setChan c ch).responses = s.responses := rfl
@[simp] theorem setChan_faultMark (s : State) (c : Nat) (ch : Channel) : (s.setChan c ch).faultMark = s.faultMark := rfl
@[simp] theorem setChan_cpos (s : State) (c : Nat) (ch : Channel) : (s.setChan c ch).cpos = s.cpos := rfl
@[simp] theorem setChan_cmds (s : State) (c : Nat) (ch : Channel) : (s.setChan c ch).cmds = s.cmds := rfl
@[simp] theorem setChan_edges (s : State) (c : Nat) (ch : Channel) : (s.setChan c ch).edges = s.edges := rfl
@[simp] theorem setChan_turns (s : State) (c : Nat) (ch : Channel) : (s.setChan c ch).turns = s.turns := rfl
@[simp] theorem setChan_samples (s : State) (c : Nat) (ch : Channel) : (s.setChan c ch).samples = s.samples := rfl
@[simp] theorem setChan_timeSteps (s : State) (c : Nat) (ch : Channel) : (s.setChan c ch).timeSteps = s.timeSteps := rfl
@[simp] theorem setChan_clock (s : State) (c : Nat) (ch : Channel) : (s.setChan c ch).clock = s.clock := rfl
@[simp] theorem setChan_draws (s : State) (c : Nat) (ch : Channel) : (s.setChan c ch).draws = s.draws := rfl

/-! ### `respond` -/

@[simp] theorem respond_cfg (s : State) (v : Word) : (s.respond v).cfg = s.cfg := rfl
@[simp] theorem respond_pending (s : State) (v : Word) : (s.respond v).pending = s.pending := rfl
@[simp] theorem respond_pollEn (s : State) (v : Word) : (s.respond v).pollEn = s.pollEn := rfl
@[simp] theorem respond_init (s : State) (v : Word) : (s.respond v).init = s.init := rfl
@[simp] theorem respond_err (s : State) (v : Word) : (s.respond v).err = s.err := rfl
@[simp] theorem respond_chans (s : State) (v : Word) : (s.respond v).chans = s.chans := rfl
@[simp] theorem respond_trace (s : State) (v : Word) : (s.respond v).trace = s.trace := rfl
@[simp] theorem respond_responses (s : State) (v : Word) : (s.respond v).responses = s.responses ++ [⟨.ok, v⟩] := rfl
@[simp] theorem respond_faultMark (s : State) (v : Word) : (s.respond v).faultMark = s.faultMark := rfl
@[simp] theorem respond_cpos (s : State) (v : Word) : (s.respond v).cpos = s.cpos := rfl
@[simp] theorem respond_cmds (s : State) (v : Word) : (s.respond v).cmds = s.cmds := rfl
@[simp] theorem respond_edges (s : State) (v : Word) : (s.respond v).edges = s.edges := rfl
@[simp] theorem respond_turns (s : State) (v : Word) : (s.respond v).turns = s.turns := rfl
@[simp] theorem respond_samples (s : State) (v : Word) : (s.respond v).samples = s.samples := rfl
@[simp] theorem respond_timeSteps (s : State) (v : Word) : (s.respond v).timeSteps = s.timeSteps := rfl
@[simp] theorem respond_clock (s : State) (v : Word) : (s.respond v).clock = s.clock := rfl
@[simp] theorem respond_draws (s : State) (v : Word) : (s.respond v).draws = s.draws := rfl

/-! ### `rejectCommand` -/

@[simp] theorem rejectCommand_cfg (r : Rejection) (s : State) : (rejectCommand r s).cfg = s.cfg := rfl
@[simp] theorem rejectCommand_pending (r : Rejection) (s : State) : (rejectCommand r s).pending = s.pending := rfl
@[simp] theorem rejectCommand_pollEn (r : Rejection) (s : State) : (rejectCommand r s).pollEn = s.pollEn := rfl
@[simp] theorem rejectCommand_init (r : Rejection) (s : State) : (rejectCommand r s).init = s.init := rfl
@[simp] theorem rejectCommand_err (r : Rejection) (s : State) : (rejectCommand r s).err = true := rfl
@[simp] theorem rejectCommand_chans (r : Rejection) (s : State) : (rejectCommand r s).chans = s.chans := rfl
@[simp] theorem rejectCommand_trace (r : Rejection) (s : State) : (rejectCommand r s).trace = s.trace := rfl
@[simp] theorem rejectCommand_responses (r : Rejection) (s : State) :
    (rejectCommand r s).responses = s.responses ++ [⟨.rejected r, 0⟩] := rfl
@[simp] theorem rejectCommand_faultMark (r : Rejection) (s : State) : (rejectCommand r s).faultMark = true := rfl
@[simp] theorem rejectCommand_cpos (r : Rejection) (s : State) : (rejectCommand r s).cpos = s.cpos := rfl
@[simp] theorem rejectCommand_cmds (r : Rejection) (s : State) : (rejectCommand r s).cmds = s.cmds := rfl
@[simp] theorem rejectCommand_edges (r : Rejection) (s : State) : (rejectCommand r s).edges = s.edges := rfl
@[simp] theorem rejectCommand_turns (r : Rejection) (s : State) : (rejectCommand r s).turns = s.turns := rfl
@[simp] theorem rejectCommand_samples (r : Rejection) (s : State) : (rejectCommand r s).samples = s.samples := rfl
@[simp] theorem rejectCommand_timeSteps (r : Rejection) (s : State) : (rejectCommand r s).timeSteps = s.timeSteps := rfl
@[simp] theorem rejectCommand_clock (r : Rejection) (s : State) : (rejectCommand r s).clock = s.clock := rfl
@[simp] theorem rejectCommand_draws (r : Rejection) (s : State) : (rejectCommand r s).draws = s.draws := rfl

/-! ### `atomicOr` -/

@[simp] theorem atomicOr_cfg (v : BitVec 32) (s : State) : (atomicOr v s).cfg = s.cfg := rfl
@[simp] theorem atomicOr_pending (v : BitVec 32) (s : State) : (atomicOr v s).pending = s.pending ||| v := rfl
@[simp] theorem atomicOr_pollEn (v : BitVec 32) (s : State) : (atomicOr v s).pollEn = s.pollEn := rfl
@[simp] theorem atomicOr_init (v : BitVec 32) (s : State) : (atomicOr v s).init = s.init := rfl
@[simp] theorem atomicOr_err (v : BitVec 32) (s : State) : (atomicOr v s).err = s.err := rfl
@[simp] theorem atomicOr_chans (v : BitVec 32) (s : State) : (atomicOr v s).chans = s.chans := rfl
@[simp] theorem atomicOr_trace (v : BitVec 32) (s : State) : (atomicOr v s).trace = s.trace := rfl
@[simp] theorem atomicOr_responses (v : BitVec 32) (s : State) : (atomicOr v s).responses = s.responses := rfl
@[simp] theorem atomicOr_faultMark (v : BitVec 32) (s : State) : (atomicOr v s).faultMark = s.faultMark := rfl
@[simp] theorem atomicOr_cpos (v : BitVec 32) (s : State) : (atomicOr v s).cpos = s.cpos := rfl
@[simp] theorem atomicOr_cmds (v : BitVec 32) (s : State) : (atomicOr v s).cmds = s.cmds := rfl
@[simp] theorem atomicOr_edges (v : BitVec 32) (s : State) : (atomicOr v s).edges = s.edges := rfl
@[simp] theorem atomicOr_turns (v : BitVec 32) (s : State) : (atomicOr v s).turns = s.turns := rfl
@[simp] theorem atomicOr_samples (v : BitVec 32) (s : State) : (atomicOr v s).samples = s.samples := rfl
@[simp] theorem atomicOr_timeSteps (v : BitVec 32) (s : State) : (atomicOr v s).timeSteps = s.timeSteps := rfl
@[simp] theorem atomicOr_clock (v : BitVec 32) (s : State) : (atomicOr v s).clock = s.clock := rfl
@[simp] theorem atomicOr_draws (v : BitVec 32) (s : State) : (atomicOr v s).draws = s.draws := rfl

/-! ### `atomicClear` -/

@[simp] theorem atomicClear_cfg (s : State) : (atomicClear s).cfg = s.cfg := rfl
@[simp] theorem atomicClear_pending (s : State) : (atomicClear s).pending = 0 := rfl
@[simp] theorem atomicClear_pollEn (s : State) : (atomicClear s).pollEn = s.pollEn := rfl
@[simp] theorem atomicClear_init (s : State) : (atomicClear s).init = s.init := rfl
@[simp] theorem atomicClear_err (s : State) : (atomicClear s).err = s.err := rfl
@[simp] theorem atomicClear_chans (s : State) : (atomicClear s).chans = s.chans := rfl
@[simp] theorem atomicClear_trace (s : State) : (atomicClear s).trace = s.trace := rfl
@[simp] theorem atomicClear_responses (s : State) : (atomicClear s).responses = s.responses := rfl
@[simp] theorem atomicClear_faultMark (s : State) : (atomicClear s).faultMark = s.faultMark := rfl
@[simp] theorem atomicClear_cpos (s : State) : (atomicClear s).cpos = s.cpos := rfl
@[simp] theorem atomicClear_cmds (s : State) : (atomicClear s).cmds = s.cmds := rfl
@[simp] theorem atomicClear_edges (s : State) : (atomicClear s).edges = s.edges := rfl
@[simp] theorem atomicClear_turns (s : State) : (atomicClear s).turns = s.turns := rfl
@[simp] theorem atomicClear_samples (s : State) : (atomicClear s).samples = s.samples := rfl
@[simp] theorem atomicClear_timeSteps (s : State) : (atomicClear s).timeSteps = s.timeSteps := rfl
@[simp] theorem atomicClear_clock (s : State) : (atomicClear s).clock = s.clock := rfl
@[simp] theorem atomicClear_draws (s : State) : (atomicClear s).draws = s.draws := rfl

/-! ### `emit` -/

@[simp] theorem emit_cfg (e : Event) (s : State) : (emit e s).cfg = s.cfg := rfl
@[simp] theorem emit_pending (e : Event) (s : State) : (emit e s).pending = s.pending := rfl
@[simp] theorem emit_pollEn (e : Event) (s : State) : (emit e s).pollEn = s.pollEn := rfl
@[simp] theorem emit_init (e : Event) (s : State) : (emit e s).init = s.init := rfl
@[simp] theorem emit_err (e : Event) (s : State) : (emit e s).err = s.err := rfl
@[simp] theorem emit_chans (e : Event) (s : State) : (emit e s).chans = s.chans := rfl
@[simp] theorem emit_trace (e : Event) (s : State) : (emit e s).trace = s.trace ++ [e] := rfl
@[simp] theorem emit_responses (e : Event) (s : State) : (emit e s).responses = s.responses := rfl
@[simp] theorem emit_faultMark (e : Event) (s : State) : (emit e s).faultMark = s.faultMark := rfl
@[simp] theorem emit_cpos (e : Event) (s : State) : (emit e s).cpos = s.cpos := rfl
@[simp] theorem emit_cmds (e : Event) (s : State) : (emit e s).cmds = s.cmds := rfl
@[simp] theorem emit_edges (e : Event) (s : State) : (emit e s).edges = s.edges := rfl
@[simp] theorem emit_turns (e : Event) (s : State) : (emit e s).turns = s.turns := rfl
@[simp] theorem emit_samples (e : Event) (s : State) : (emit e s).samples = s.samples := rfl
@[simp] theorem emit_timeSteps (e : Event) (s : State) : (emit e s).timeSteps = s.timeSteps := rfl
@[simp] theorem emit_clock (e : Event) (s : State) : (emit e s).clock = s.clock := rfl
@[simp] theorem emit_draws (e : Event) (s : State) : (emit e s).draws = s.draws := rfl

/-! ### `dutyWrite` -/

@[simp] theorem dutyWrite_cfg (c : Nat) (v : Intensity) (s : State) : (dutyWrite c v s).cfg = s.cfg := rfl
@[simp] theorem dutyWrite_pending (c : Nat) (v : Intensity) (s : State) : (dutyWrite c v s).pending = s.pending := rfl
@[simp] theorem dutyWrite_pollEn (c : Nat) (v : Intensity) (s : State) : (dutyWrite c v s).pollEn = s.pollEn := rfl
@[simp] theorem dutyWrite_init (c : Nat) (v : Intensity) (s : State) : (dutyWrite c v s).init = s.init := rfl
@[simp] theorem dutyWrite_err (c : Nat) (v : Intensity) (s : State) : (dutyWrite c v s).err = s.err := rfl
@[simp] theorem dutyWrite_chans (c : Nat) (v : Intensity) (s : State) :
    (dutyWrite c v s).chans = s.chans.set c { s.chan c with duty := v } := rfl
@[simp] theorem dutyWrite_trace (c : Nat) (v : Intensity) (s : State) : (dutyWrite c v s).trace = s.trace ++ [.duty c v] := rfl
@[simp] theorem dutyWrite_responses (c : Nat) (v : Intensity) (s : State) : (dutyWrite c v s).responses = s.responses := rfl
@[simp] theorem dutyWrite_faultMark (c : Nat) (v : Intensity) (s : State) : (dutyWrite c v s).faultMark = s.faultMark := rfl
@[simp] theorem dutyWrite_cpos (c : Nat) (v : Intensity) (s : State) : (dutyWrite c v s).cpos = s.cpos := rfl
@[simp] theorem dutyWrite_cmds (c : Nat) (v : Intensity) (s : State) : (dutyWrite c v s).cmds = s.cmds := rfl
@[simp] theorem dutyWrite_edges (c : Nat) (v : Intensity) (s : State) : (dutyWrite c v s).edges = s.edges := rfl
@[simp] theorem dutyWrite_turns (c : Nat) (v : Intensity) (s : State) : (dutyWrite c v s).turns = s.turns := rfl
@[simp] theorem dutyWrite_samples (c : Nat) (v : Intensity) (s : State) : (dutyWrite c v s).samples = s.samples := rfl
@[simp] theorem dutyWrite_timeSteps (c : Nat) (v : Intensity) (s : State) : (dutyWrite c v s).timeSteps = s.timeSteps := rfl
@[simp] theorem dutyWrite_clock (c : Nat) (v : Intensity) (s : State) : (dutyWrite c v s).clock = s.clock := rfl
@[simp] theorem dutyWrite_draws (c : Nat) (v : Intensity) (s : State) : (dutyWrite c v s).draws = s.draws := rfl

/-! ### `pulse` -/

@[simp] theorem pulse_cfg (c : Nat) (s : State) : (pulse c s).cfg = s.cfg := rfl
@[simp] theorem pulse_pending (c : Nat) (s : State) : (pulse c s).pending = s.pending := rfl
@[simp] theorem pulse_pollEn (c : Nat) (s : State) : (pulse c s).pollEn = s.pollEn := rfl
@[simp] theorem pulse_init (c : Nat) (s : State) : (pulse c s).init = s.init := rfl
@[simp] theorem pulse_err (c : Nat) (s : State) : (pulse c s).err = s.err := rfl
@[simp] theorem pulse_chans (c : Nat) (s : State) :
    (pulse c s).chans = s.chans.set c { s.chan c with duty := (s.chan c).cur } := rfl
@[simp] theorem pulse_trace (c : Nat) (s : State) : (pulse c s).trace = s.trace ++ [.pulse c] ++ [.duty c (s.chan c).cur] := rfl
@[simp] theorem pulse_responses (c : Nat) (s : State) : (pulse c s).responses = s.responses := rfl
@[simp] theorem pulse_faultMark (c : Nat) (s : State) : (pulse c s).faultMark = s.faultMark := rfl
@[simp] theorem pulse_cpos (c : Nat) (s : State) : (pulse c s).cpos = s.cpos := rfl
@[simp] theorem pulse_cmds (c : Nat) (s : State) : (pulse c s).cmds = s.cmds := rfl
@[simp] theorem pulse_edges (c : Nat) (s : State) : (pulse c s).edges = s.edges := rfl
@[simp] theorem pulse_turns (c : Nat) (s : State) : (pulse c s).turns = s.turns := rfl
@[simp] theorem pulse_samples (c : Nat) (s : State) : (pulse c s).samples = s.samples := rfl
@[simp] theorem pulse_timeSteps (c : Nat) (s : State) : (pulse c s).timeSteps = s.timeSteps := rfl
@[simp] theorem pulse_clock (c : Nat) (s : State) : (pulse c s).clock = s.clock := rfl
@[simp] theorem pulse_draws (c : Nat) (s : State) : (pulse c s).draws = s.draws := rfl

/-! ### `rebindSensor` -/

@[simp] theorem rebindSensor_cfg (c : Nat) (p : Pin) (s : State) : (rebindSensor c p s).cfg = s.cfg := rfl
@[simp] theorem rebindSensor_pending (c : Nat) (p : Pin) (s : State) : (rebindSensor c p s).pending = s.pending := rfl
@[simp] theorem rebindSensor_pollEn (c : Nat) (p : Pin) (s : State) : (rebindSensor c p s).pollEn = s.pollEn := rfl
@[simp] theorem rebindSensor_init (c : Nat) (p : Pin) (s : State) : (rebindSensor c p s).init = s.init := rfl
@[simp] theorem rebindSensor_err (c : Nat) (p : Pin) (s : State) : (rebindSensor c p s).err = s.err := rfl
@[simp] theorem rebindSensor_chans (c : Nat) (p : Pin) (s : State) :
    (rebindSensor c p s).chans = s.chans.set c { s.chan c with snsPin := p, lastTrig := 0, tsValid := tsValidAtReset s.cfg } := rfl
@[simp] theorem rebindSensor_trace (c : Nat) (p : Pin) (s : State) : (rebindSensor c p s).trace = s.trace := rfl
@[simp] theorem rebindSensor_responses (c : Nat) (p : Pin) (s : State) : (rebindSensor c p s).responses = s.responses := rfl
@[simp] theorem rebindSensor_faultMark (c : Nat) (p : Pin) (s : State) : (rebindSensor c p s).faultMark = s.faultMark := rfl
@[simp] theorem rebindSensor_cpos (c : Nat) (p : Pin) (s : State) : (rebindSensor c p s).cpos = s.cpos := rfl
@[simp] theorem rebindSensor_cmds (c : Nat) (p : Pin) (s : State) : (rebindSensor c p s).cmds = s.cmds := rfl
@[simp] theorem rebindSensor_edges (c : Nat) (p : Pin) (s : State) : (rebindSensor c p s).edges = s.edges := rfl
@[simp] theorem rebindSensor_turns (c : Nat) (p : Pin) (s : State) : (rebindSensor c p s).turns = s.turns := rfl
@[simp] theorem rebindSensor_samples (c : Nat) (p : Pin) (s : State) : (rebindSensor c p s).samples = s.samples := rfl
@[simp] theorem rebindSensor_timeSteps (c : Nat) (p : Pin) (s : State) : (rebindSensor c p s).timeSteps = s.timeSteps := rfl
@[simp] theorem rebindSensor_clock (c : Nat) (p : Pin) (s : State) : (rebindSensor c p s).clock = s.clock := rfl
@[simp] theorem rebindSensor_draws (c : Nat) (p : Pin) (s : State) : (rebindSensor c p s).draws = s.draws := rfl

/-! ### The draws -/

@[simp] theorem afterSample_cfg (s : State) : (afterSample s).cfg = s.cfg := by unfold afterSample; split <;> rfl
@[simp] theorem afterSample_pending (s : State) : (afterSample s).pending = s.pending := by unfold afterSample; split <;> rfl
@[simp] theorem afterSample_pollEn (s : State) : (afterSample s).pollEn = s.pollEn := by unfold afterSample; split <;> rfl
@[simp] theorem afterSample_init (s : State) : (afterSample s).init = s.init := by unfold afterSample; split <;> rfl
@[simp] theorem afterSample_err (s : State) : (afterSample s).err = s.err := by unfold afterSample; split <;> rfl
@[simp] theorem afterSample_chans (s : State) : (afterSample s).chans = s.chans := by unfold afterSample; split <;> rfl
@[simp] theorem afterSample_trace (s : State) : (afterSample s).trace = s.trace := by unfold afterSample; split <;> rfl
@[simp] theorem afterSample_responses (s : State) : (afterSample s).responses = s.responses := by unfold afterSample; split <;> rfl
@[simp] theorem afterSample_faultMark (s : State) : (afterSample s).faultMark = s.faultMark := by unfold afterSample; split <;> rfl
@[simp] theorem afterSample_cpos (s : State) : (afterSample s).cpos = s.cpos := by unfold afterSample; split <;> rfl
@[simp] theorem afterSample_cmds (s : State) : (afterSample s).cmds = s.cmds := by unfold afterSample; split <;> rfl
@[simp] theorem afterSample_edges (s : State) : (afterSample s).edges = s.edges := by unfold afterSample; split <;> rfl
@[simp] theorem afterSample_turns (s : State) : (afterSample s).turns = s.turns := by unfold afterSample; split <;> rfl
@[simp] theorem afterSample_timeSteps (s : State) : (afterSample s).timeSteps = s.timeSteps := by unfold afterSample; split <;> rfl
@[simp] theorem afterSample_clock (s : State) : (afterSample s).clock = s.clock := by unfold afterSample; split <;> rfl
@[simp] theorem afterReadTime_cfg (s : State) : (afterReadTime s).cfg = s.cfg := by unfold afterReadTime; split <;> rfl
@[simp] theorem afterReadTime_pending (s : State) : (afterReadTime s).pending = s.pending := by unfold afterReadTime; split <;> rfl
@[simp] theorem afterReadTime_pollEn (s : State) : (afterReadTime s).pollEn = s.pollEn := by unfold afterReadTime; split <;> rfl
@[simp] theorem afterReadTime_init (s : State) : (afterReadTime s).init = s.init := by unfold afterReadTime; split <;> rfl
@[simp] theorem afterReadTime_err (s : State) : (afterReadTime s).err = s.err := by unfold afterReadTime; split <;> rfl
@[simp] theorem afterReadTime_chans (s : State) : (afterReadTime s).chans = s.chans := by unfold afterReadTime; split <;> rfl
@[simp] theorem afterReadTime_trace (s : State) : (afterReadTime s).trace = s.trace := by unfold afterReadTime; split <;> rfl
@[simp] theorem afterReadTime_responses (s : State) : (afterReadTime s).responses = s.responses := by unfold afterReadTime; split <;> rfl
@[simp] theorem afterReadTime_faultMark (s : State) : (afterReadTime s).faultMark = s.faultMark := by unfold afterReadTime; split <;> rfl
@[simp] theorem afterReadTime_cpos (s : State) : (afterReadTime s).cpos = s.cpos := by unfold afterReadTime; split <;> rfl
@[simp] theorem afterReadTime_cmds (s : State) : (afterReadTime s).cmds = s.cmds := by unfold afterReadTime; split <;> rfl
@[simp] theorem afterReadTime_edges (s : State) : (afterReadTime s).edges = s.edges := by unfold afterReadTime; split <;> rfl
@[simp] theorem afterReadTime_turns (s : State) : (afterReadTime s).turns = s.turns := by unfold afterReadTime; split <;> rfl
@[simp] theorem afterReadTime_samples (s : State) : (afterReadTime s).samples = s.samples := by unfold afterReadTime; split <;> rfl
@[simp] theorem afterReadTime_clock (s : State) : (afterReadTime s).clock = nextClock s := by unfold afterReadTime; split <;> rfl

end Sys2Proof.Machine
end

