-- ==== Sys2Proof/Laws/Ops.lean ====
section
/-! SUPPORT. What each shared operation can do, said once: channels, the loop over the channels, the draws, the resolver, the fade
engine, the polling path, the rebinds and the operand forms. -/

namespace Sys2Proof.Machine

open Sys2Proof

/-! ### Channels -/

theorem chan_eq_getElem (s : State) {c : Nat} (h : c < s.chans.length) : s.chan c = s.chans[c] := by
  simp [State.chan, List.getD_eq_getElem?_getD, h]

theorem chan_setChan_same (s : State) {c : Nat} (ch : Channel) (h : c < s.chans.length) :
    (s.setChan c ch).chan c = ch := by
  simp [State.chan, State.setChan, List.getD_eq_getElem?_getD, h]

theorem chan_setChan_ne (s : State) {c d : Nat} (ch : Channel) (h : c ≠ d) :
    (s.setChan c ch).chan d = s.chan d := by
  simp [State.chan, State.setChan, List.getD_eq_getElem?_getD, List.getElem?_set_ne h]

/-- After a write of channel `c`, every channel is the written one or as before; out of range nothing is written. -/
theorem chan_setChan (s : State) (c d : Nat) (ch : Channel) :
    (s.setChan c ch).chan d = if c = d ∧ c < s.chans.length then ch else s.chan d := by
  by_cases h : c = d
  · subst h
    by_cases hc : c < s.chans.length
    · simp [hc, chan_setChan_same]
    · simp only [hc, and_false, if_false, State.chan, State.setChan]
      rw [List.set_eq_of_length_le (by omega)]
  · simp [h, chan_setChan_ne]

theorem setChan_chan (s : State) (c : Nat) : s.setChan c (s.chan c) = s := by
  by_cases h : c < s.chans.length
  · simp [State.setChan, chan_eq_getElem s h]
  · simp only [State.setChan]
    rw [List.set_eq_of_length_le (by omega)]

theorem setChan_setChan (s : State) (c : Nat) (a b : Channel) : (s.setChan c a).setChan c b = s.setChan c b := by
  simp [State.setChan, List.set_set]

@[simp] theorem chan_respond (s : State) (v : Word) (c : Nat) : (s.respond v).chan c = s.chan c := rfl

@[simp] theorem chan_rejectCommand (r : Rejection) (s : State) (c : Nat) : (rejectCommand r s).chan c = s.chan c := rfl

@[simp] theorem chan_emit (e : Event) (s : State) (c : Nat) : (emit e s).chan c = s.chan c := rfl

@[simp] theorem chan_atomicOr (v : BitVec 32) (s : State) (c : Nat) : (atomicOr v s).chan c = s.chan c := rfl

@[simp] theorem chan_atomicClear (s : State) (c : Nat) : (atomicClear s).chan c = s.chan c := rfl

@[simp] theorem chan_afterSample (s : State) (c : Nat) : (afterSample s).chan c = s.chan c := by simp [State.chan]

@[simp] theorem chan_afterReadTime (s : State) (c : Nat) : (afterReadTime s).chan c = s.chan c := by simp [State.chan]

/-- The channels of a state with N of them, read one by one. -/
theorem map_chan_range (s : State) {n : Nat} (h : s.chans.length = n) : (List.range n).map s.chan = s.chans := by
  subst h
  apply List.ext_getElem
  · simp
  · intro i h1 h2
    simp [chan_eq_getElem s h2]

theorem mem_chans_iff (s : State) (ch : Channel) : ch ∈ s.chans ↔ ∃ c, c < s.chans.length ∧ s.chan c = ch := by
  constructor
  · intro h
    obtain ⟨c, hc, rfl⟩ := List.getElem_of_mem h
    exact ⟨c, hc, chan_eq_getElem s hc⟩
  · rintro ⟨c, hc, rfl⟩
    rw [chan_eq_getElem s hc]
    exact List.getElem_mem hc

/-- A channel of the state, in range, is one of its channels. -/
theorem chan_mem (s : State) {c : Nat} (h : c < s.chans.length) : s.chan c ∈ s.chans :=
  (mem_chans_iff s _).2 ⟨c, h, rfl⟩

/-! ### The loop over the channels -/

/-- What holds before the loop and is kept by every turn of it holds after it. -/
theorem forChannels_induction {P : State → Prop} (s : State) (f : Nat → State → State) (h0 : P s)
    (hf : ∀ c t, c < s.cfg.n → P t → P (f c t)) : P (s.forChannels f) := by
  unfold State.forChannels
  suffices h : ∀ (l : List Nat) (t : State), (∀ c ∈ l, c < s.cfg.n) → P t → P (l.foldl (fun t c => f c t) t) from
    h _ _ (fun c hc => List.mem_range.1 hc) h0
  intro l
  induction l with
  | nil => intro t _ ht; exact ht
  | cons c l ih =>
    intro t hl ht
    exact ih _ (fun d hd => hl d (List.mem_cons_of_mem _ hd)) (hf c t (hl c List.mem_cons_self) ht)

/-- A field, or any function of the state, that no turn changes is as before after the loop. -/
theorem forChannels_preserves {α : Type} (φ : State → α) (s : State) (f : Nat → State → State)
    (hf : ∀ c t, φ (f c t) = φ t) : φ (s.forChannels f) = φ s :=
  forChannels_induction (P := fun t => φ t = φ s) s f rfl fun c t _ h => (hf c t).trans h

/-- A function that every turn commutes with, and that keeps N, commutes with the loop. -/
theorem forChannels_commutes (g : State → State) (s : State) (f : Nat → State → State) (hn : (g s).cfg.n = s.cfg.n)
    (hf : ∀ c t, f c (g t) = g (f c t)) : (g s).forChannels f = g (s.forChannels f) := by
  unfold State.forChannels
  rw [hn]
  generalize List.range s.cfg.n = l
  clear hn
  induction l generalizing s with
  | nil => rfl
  | cons c l ih => simp only [List.foldl_cons, hf, ih]

/-- A loop whose turn `c` rewrites channel `c` from its own old value and appends events of it is one map over the channels and one
concatenation of their events. -/
theorem forChannels_local (s : State) (f : Nat → State → State) (g : Nat → Channel → Channel)
    (ev : Nat → Channel → List Event) (hlen : s.chans.length = s.cfg.n)
    (hf : ∀ c t, t.cfg = s.cfg → c < t.chans.length →
      f c t = { t with chans := t.chans.set c (g c (t.chan c)), trace := t.trace ++ ev c (t.chan c) }) :
    s.forChannels f =
      { s with
        chans := (List.range s.cfg.n).map fun c => g c (s.chan c)
        trace := s.trace ++ (List.range s.cfg.n).flatMap fun c => ev c (s.chan c) } := by
  have key : ∀ k ≤ s.cfg.n, (List.range k).foldl (fun t c => f c t) s =
      { s with
        chans := (List.range s.cfg.n).map fun c => if c < k then g c (s.chan c) else s.chan c
        trace := s.trace ++ (List.range k).flatMap fun c => ev c (s.chan c) } := by
    intro k hk
    induction k with
    | zero =>
      have h := map_chan_range s hlen
      simpa using congrArg (fun l => { s with chans := l }) h.symm
    | succ k ih =>
      rw [List.range_succ, List.foldl_append, ih (by omega)]
      simp only [List.foldl_cons, List.foldl_nil]
      refine (hf k _ ?_ ?_).trans ?_
      · rfl
      · simpa using Nat.lt_of_succ_le hk
      have hk' : k < s.cfg.n := by omega
      have hch : ∀ t : List Event,
          State.chan { s with
            chans := (List.range s.cfg.n).map fun c => if c < k then g c (s.chan c) else s.chan c
            trace := t } k = s.chan k := by
        intro t
        simp [State.chan, List.getD_eq_getElem?_getD, hk']
      rw [hch]
      congr 1
      · apply List.ext_getElem
        · simp
        · intro i h1 h2
          simp only [List.getElem_set, List.getElem_map, List.getElem_range]
          by_cases hik : k = i
          · subst hik; simp
          · have : (i < k + 1) ↔ (i < k) := by omega
            simp [hik, this]
      · simp [List.append_assoc]
  have h := key s.cfg.n (Nat.le_refl _)
  unfold State.forChannels
  rw [h]
  congr 1
  apply List.map_congr_left
  intro c hc
  simp [List.mem_range.1 hc]

/-! ### The debounce comparator and the resolver -/

/-- The comparator rejects exactly while the latch is valid and less than the window has passed (R151). -/
theorem debounceRejects_iff (cfg : Config) (ch : Channel) (now : Timestamp) :
    debounceRejects cfg ch now = true ↔
      ch.tsValid = true ∧ (now - ch.lastTrig).toNat % 2 ^ cfg.tsW < cfg.debounceWindow := by
  unfold debounceRejects
  rw [Bool.and_eq_true, decide_eq_true_eq]
  rfl

/-- The polarity map as a condition: low under active-low, or high under active-high (R152). -/
theorem logicalOpen_eq (ch : Channel) (raw : Level) :
    logicalOpen ch raw = decide ((ch.activeLow = true ∧ raw = .low) ∨ (ch.activeLow = false ∧ raw = .high)) := by
  unfold logicalOpen
  cases ch.activeLow <;> cases raw <;> rfl

/-- The resolver accepts exactly when the comparator does not reject and the door state would change (R150). -/
theorem resolverAccepts_iff (cfg : Config) (raw : Level) (now : Timestamp) (ch : Channel) :
    resolverAccepts cfg raw now ch = true ↔
      debounceRejects cfg ch now = false ∧ logicalOpen ch raw ≠ ch.doorOpen := by
  simp [resolverAccepts]

/-- What a resolve can do: accept and write the latch and the door state, or nothing (R150, R153). -/
theorem resolve_cases (cfg : Config) (raw : Level) (now : Timestamp) (ch : Channel) :
    (resolverAccepts cfg raw now ch = true ∧ resolveResult cfg raw now ch = some (logicalOpen ch raw) ∧
      resolveChannel cfg raw now ch =
        { ch with lastTrig := now, tsValid := true, doorOpen := logicalOpen ch raw }) ∨
    (resolverAccepts cfg raw now ch = false ∧ resolveResult cfg raw now ch = none ∧
      resolveChannel cfg raw now ch = ch) := by
  cases h : resolverAccepts cfg raw now ch <;> simp [resolveResult, resolveChannel, h]

/-! ### The fade engine -/

/-- The step stays between where it is and where it goes (R173). -/
theorem saturatingStep_between (step cur tgt : Nat) :
    min cur tgt ≤ saturatingStep step cur tgt ∧ saturatingStep step cur tgt ≤ max cur tgt := by
  unfold saturatingStep
  split
  · omega
  · split <;> omega

/-- The 16-bit step is the integer one: nothing is lost (R11, R173). -/
theorem fadeStep_toNat (cfg : Config) (cur tgt : Intensity) :
    (fadeStep cfg cur tgt).toNat = saturatingStep cfg.fadeStep.toNat cur.toNat tgt.toNat := by
  have h := saturatingStep_between cfg.fadeStep.toNat cur.toNat tgt.toNat
  have h1 := cur.isLt
  have h2 := tgt.isLt
  simp only [fadeStep, BitVec.toNat_ofNat]
  exact Nat.mod_eq_of_lt (by omega)

/-- What a retarget can do (R170). -/
theorem retarget_cases (cfg : Config) (on : Bool) (ch : Channel) :
    (targetLevel cfg on = ch.tgt ∧ retargetChannel cfg on ch = ch) ∨
    (targetLevel cfg on ≠ ch.tgt ∧
      retargetChannel cfg on ch = { ch with tgt := targetLevel cfg on, fading := true }) := by
  by_cases h : targetLevel cfg on = ch.tgt <;> simp [retargetChannel, h]

@[simp] theorem retargetChannel_tgt (cfg : Config) (on : Bool) (ch : Channel) :
    (retargetChannel cfg on ch).tgt = targetLevel cfg on := by
  unfold retargetChannel; split <;> simp_all

@[simp] theorem retargetChannel_doorOpen (cfg : Config) (on : Bool) (ch : Channel) :
    (retargetChannel cfg on ch).doorOpen = ch.doorOpen := by
  unfold retargetChannel; split <;> rfl

/-- What a tick can do (R172). -/
theorem tickAt_cases (c : Nat) (s : State) :
    ((s.chan c).fading = false ∧ tickAt c s = s) ∨
    ((s.chan c).fading = true ∧ tickAt c s =
      { s with
        chans := s.chans.set c (tickChannel s.cfg (s.chan c))
        trace := s.trace ++ [.duty c (tickChannel s.cfg (s.chan c)).duty] }) := by
  cases h : (s.chan c).fading <;> simp [tickAt, h, emit, State.setChan]

/-! ### The loops of the commands, each as one map -/

/-- No event a channel is no event at all. -/
theorem flatMap_no_events (n : Nat) : (List.range n).flatMap (fun _ => ([] : List Event)) = [] := by
  simp [List.flatMap_eq_nil_iff]

/-- One event a channel. -/
theorem flatMap_one_event (n : Nat) (e : Nat → Event) :
    (List.range n).flatMap (fun c => [e c]) = (List.range n).map e := by
  induction List.range n with
  | nil => rfl
  | cons c l ih => simp [ih]

/-- A write of the same value, with no event, is no write. -/
theorem set_chan_self (t : State) {c : Nat} :
    { t with chans := t.chans.set c (t.chan c), trace := t.trace ++ [] } = t := by
  have h := setChan_chan t c
  simpa [State.setChan] using h

/-- Phase 3 of PROCESS (R201). -/
theorem fadePath_eq (s : State) (hlen : s.chans.length = s.cfg.n) :
    fadePath s =
      { s with
        chans := (List.range s.cfg.n).map fun c =>
          if (s.chan c).fading then tickChannel s.cfg (s.chan c) else s.chan c
        trace := s.trace ++ (List.range s.cfg.n).flatMap fun c =>
          if (s.chan c).fading then [Event.duty c (tickChannel s.cfg (s.chan c)).duty] else [] } := by
  refine forChannels_local s tickAt (fun _ ch => if ch.fading then tickChannel s.cfg ch else ch)
    (fun c ch => if ch.fading then [Event.duty c (tickChannel s.cfg ch).duty] else []) hlen ?_
  intro c t ht _
  rcases tickAt_cases c t with ⟨h, e⟩ | ⟨h, e⟩
  · rw [e]
    simpa [h] using (set_chan_self t (c := c)).symm
  · rw [e]
    simp [h, ht]

/-- The polarity loop of SETPOL (R226). -/
theorem setpol_loop_eq (s : State) (pol : Word) (hlen : s.chans.length = s.cfg.n) :
    (s.forChannels fun c t => t.setChan c { t.chan c with activeLow := pol.getLsbD c }) =
      { s with chans := (List.range s.cfg.n).map fun c => { s.chan c with activeLow := pol.getLsbD c } } := by
  have h := forChannels_local s (fun c t => t.setChan c { t.chan c with activeLow := pol.getLsbD c })
    (fun c ch => { ch with activeLow := pol.getLsbD c }) (fun _ _ => []) hlen
    (fun c t _ _ => by simp [State.setChan])
  rw [h]
  simp [flatMap_no_events]

/-- A duty write rewrites the channel's duty register and appends its event (R262). -/
theorem dutyWrite_eq (c : Nat) (v : Intensity) (s : State) :
    dutyWrite c v s =
      { s with chans := s.chans.set c { s.chan c with duty := v }, trace := s.trace ++ [.duty c v] } := rfl

/-- The sweep of STEST (R234). -/
theorem sweep_loop_eq (s : State) (hlen : s.chans.length = s.cfg.n) :
    s.forChannels sweepAt =
      { s with
        chans := (List.range s.cfg.n).map fun c =>
          if (s.chan c).ledOk s.cfg then { s.chan c with duty := 0 } else s.chan c
        trace := s.trace ++ (List.range s.cfg.n).flatMap fun c =>
          if (s.chan c).ledOk s.cfg then [Event.duty c s.cfg.wrap, Event.duty c 0] else [] } := by
  refine forChannels_local s sweepAt (fun _ ch => if ch.ledOk s.cfg then { ch with duty := 0 } else ch)
    (fun c ch => if ch.ledOk s.cfg then [Event.duty c s.cfg.wrap, Event.duty c 0] else []) hlen ?_
  intro c t ht hc
  unfold sweepAt
  rw [← ht]
  by_cases h : (t.chan c).ledOk t.cfg
  · have e : (dutyWrite c t.cfg.wrap t).chan c = { t.chan c with duty := t.cfg.wrap } :=
      chan_setChan_same t _ hc
    simp only [h, if_true, dutyWrite_eq c 0, e, dutyWrite_chans, dutyWrite_trace, List.set_set]
    simp [dutyWrite, emit, State.setChan]
  · simpa [h] using (set_chan_self t (c := c)).symm

/-- The rebinds of an accepted SETLED (R222, R223). -/
theorem rebindLed_loop_eq (s : State) (pins : List Pin) (hlen : s.chans.length = s.cfg.n) :
    s.forChannels (rebindLedAt pins) =
      { s with
        chans := (List.range s.cfg.n).map fun c =>
          if pins.getD c 0 = (s.chan c).ledPin then s.chan c
          else { s.chan c with ledPin := pins.getD c 0, duty := (s.chan c).cur }
        trace := s.trace ++ (List.range s.cfg.n).flatMap fun c =>
          if pins.getD c 0 = (s.chan c).ledPin then [] else [Event.pulse c, Event.duty c (s.chan c).cur] } := by
  refine forChannels_local s (rebindLedAt pins)
    (fun c ch => if pins.getD c 0 = ch.ledPin then ch else { ch with ledPin := pins.getD c 0, duty := ch.cur })
    (fun c ch => if pins.getD c 0 = ch.ledPin then [] else [Event.pulse c, Event.duty c ch.cur]) hlen ?_
  intro c t ht hc
  unfold rebindLedAt
  by_cases h : pins.getD c 0 = (t.chan c).ledPin
  · simp only [h, if_true]
    exact (set_chan_self t).symm
  · simp only [h, if_false, rebindLed, pulse, dutyWrite, chan_emit, chan_setChan_same t _ hc]
    simp [emit, State.setChan]

/-- The rebinds of an accepted SETSNS (R224, R225). -/
theorem rebindSensor_loop_eq (s : State) (pins : List Pin) (hlen : s.chans.length = s.cfg.n) :
    s.forChannels (rebindSensorAt pins) =
      { s with
        chans := (List.range s.cfg.n).map fun c =>
          if pins.getD c 0 = (s.chan c).snsPin then s.chan c
          else { s.chan c with snsPin := pins.getD c 0, lastTrig := 0, tsValid := tsValidAtReset s.cfg } } := by
  have h := forChannels_local s (rebindSensorAt pins)
    (fun c ch => if pins.getD c 0 = ch.snsPin then ch
      else { ch with snsPin := pins.getD c 0, lastTrig := 0, tsValid := tsValidAtReset s.cfg })
    (fun _ _ => []) hlen
    (fun c t ht hc => by
      unfold rebindSensorAt
      by_cases h : pins.getD c 0 = (t.chan c).snsPin
      · simp only [h, if_true]
        exact (set_chan_self t).symm
      · simp only [h, if_false, rebindSensor, ht]
        simp [State.setChan, ht])
  rw [h]
  simp [flatMap_no_events]

/-- The second loop of the reset sequence (R300). -/
theorem pulse_loop_eq (s : State) (hlen : s.chans.length = s.cfg.n) :
    s.forChannels pulseIfFunctional =
      { s with
        chans := (List.range s.cfg.n).map fun c =>
          if (s.chan c).ledOk s.cfg then { s.chan c with duty := (s.chan c).cur } else s.chan c
        trace := s.trace ++ (List.range s.cfg.n).flatMap fun c =>
          if (s.chan c).ledOk s.cfg then [Event.pulse c, Event.duty c (s.chan c).cur] else [] } := by
  refine forChannels_local s pulseIfFunctional
    (fun _ ch => if ch.ledOk s.cfg then { ch with duty := ch.cur } else ch)
    (fun c ch => if ch.ledOk s.cfg then [Event.pulse c, Event.duty c ch.cur] else []) hlen ?_
  intro c t ht hc
  unfold pulseIfFunctional
  rw [← ht]
  by_cases h : (t.chan c).ledOk t.cfg
  · simp only [h, if_true, pulse, dutyWrite, chan_emit]
    simp [emit, State.setChan]
  · simpa [h] using (set_chan_self t (c := c)).symm

/-- The first loop of the reset sequence (R300). -/
theorem reset_loop_eq (s : State) (hlen : s.chans.length = s.cfg.n) :
    s.forChannels resetChannelAt =
      { s with
        chans := channelsAtReset s.cfg
        trace := s.trace ++ (List.range s.cfg.n).map fun c => Event.duty c 0 } := by
  have h := forChannels_local s resetChannelAt (fun c _ => channelAtReset s.cfg c) (fun c _ => [Event.duty c 0]) hlen
    (fun c t ht hc => by
      rw [← ht]
      simp only [resetChannelAt, dutyWrite, chan_setChan_same t _ hc, setChan_setChan]
      simp [emit, State.setChan, channelAtReset])
  rw [h, flatMap_one_event]
  rfl

/-! ### The latch, the draws and the operand forms -/

/-- The mask GEDGE sets has exactly the bits of the functional sensor channels bound to the pin (R131). -/
theorem senseMask_getLsbD (s : State) (p : Pin) (hn : s.cfg.n ≤ 32) (c : Nat) :
    (senseMask s p).getLsbD c = (decide (c < s.cfg.n) && sensesPin s p c) := by
  have key : ∀ k ≤ s.cfg.n, ((List.range k).foldl
      (fun m c => if (s.chan c).snsOk s.cfg && (s.chan c).snsPin == p then m ||| channelBit c else m)
      (0 : BitVec 32)).getLsbD c = (decide (c < k) && sensesPin s p c) := by
    intro k hk
    induction k with
    | zero => simp
    | succ k ih =>
      rw [List.range_succ, List.foldl_append]
      simp only [List.foldl_cons, List.foldl_nil]
      have hbit : (channelBit k).getLsbD c = decide (c = k) := by
        simp only [channelBit, BitVec.getLsbD_ofNat, Nat.testBit_two_pow]
        by_cases hck : c = k
        · subst hck; simp; omega
        · simp [hck]; omega
      split
      · next h =>
        rw [BitVec.getLsbD_or, ih (by omega), hbit]
        by_cases hck : c = k
        · subst hck; simp [sensesPin, h]
        · have : c < k + 1 ↔ c < k := by omega
          simp [hck, this]
      · next h =>
        rw [ih (by omega)]
        by_cases hck : c = k
        · subst hck; simp [sensesPin, h]
        · have : c < k + 1 ↔ c < k := by omega
          simp [this]
  exact key _ (Nat.le_refl _)

/-- An edge by pin is one OR of the pin's mask, also when the mask is empty (R131). -/
theorem recordPinEdge_eq (p : Pin) (s : State) : recordPinEdge p s = atomicOr (senseMask s p) s := by
  unfold recordPinEdge
  split
  · next h => simp [atomicOr, h]
  · rfl

/-- Time does not decrease (R69). -/
theorem clock_le_nextClock (s : State) : s.clock ≤ nextClock s := by
  unfold nextClock; split <;> omega

/-- A channel operand hands the channel on or rejects the command (R94). -/
theorem withChannel_cases (ch : ChannelField) (s : State) (body : Nat → State → State) :
    (ch.toNat < s.cfg.n ∧ withChannel ch s body = body ch.toNat s) ∨
    (s.cfg.n ≤ ch.toNat ∧ withChannel ch s body = rejectCommand .badChannel s) := by
  by_cases h : ch.toNat < s.cfg.n
  · exact .inl ⟨h, by simp [withChannel, h]⟩
  · exact .inr ⟨by omega, by simp [withChannel, h]⟩

/-- A time operand is accepted or the command rejected (R97). -/
theorem withTime_cases (now : Timestamp) (s : State) (body : State → State) :
    (now.toNat < 2 ^ s.cfg.tsW ∧ withTime now s body = body s) ∨
    (2 ^ s.cfg.tsW ≤ now.toNat ∧ withTime now s body = rejectCommand .reservedBits s) := by
  by_cases h : now.toNat < 2 ^ s.cfg.tsW
  · exact .inl ⟨h, by simp [withTime, h]⟩
  · exact .inr ⟨by omega, by simp [withTime, h]⟩

/-- A pin array is accepted or the command rejected (R97). -/
theorem withPins_cases (pins : List Pin) (s : State) (body : State → State) :
    (pins.length = s.cfg.n ∧ withPins pins s body = body s) ∨
    (pins.length ≠ s.cfg.n ∧ withPins pins s body = rejectCommand .reservedBits s) := by
  by_cases h : pins.length = s.cfg.n
  · exact .inl ⟨h, by simp [withPins, h]⟩
  · exact .inr ⟨h, by simp [withPins, h]⟩

/-- A polarity word is accepted or the command rejected (R97). -/
theorem withPolarity_cases (pol : Word) (s : State) (body : State → State) :
    (pol.toNat < 2 ^ s.cfg.n ∧ withPolarity pol s body = body s) ∨
    (2 ^ s.cfg.n ≤ pol.toNat ∧ withPolarity pol s body = rejectCommand .reservedBits s) := by
  by_cases h : pol.toNat < 2 ^ s.cfg.n
  · exact .inl ⟨h, by simp [withPolarity, h]⟩
  · exact .inr ⟨by omega, by simp [withPolarity, h]⟩

end Sys2Proof.Machine
end

