-- ==== Sys2Proof/Laws/PerInstr.lean ====
section
/-! SUPPORT. The one family of statements made per instruction: a well-formed command's encoding has the length its header asks
for. -/

namespace Sys2Proof.Laws.EncodedLength

open Sys2Proof

/-- The encoding of a well-formed command is its header, with the command's opcode, and as many operand words as that header asks
for (R92). -/
def Statement (i : Instr) : Prop :=
  ∀ cfg : Config, i.wf cfg = true →
    ∃ w0 ops, encode i = w0 :: ops ∧ opField w0 = i.opcode.code ∧ ops.length = operandCount cfg w0

/-- A header and its operand words, counted by the opcode's format. -/
theorem of_parts {i : Instr} {o : Opcode} {ch : ChannelField} {b : Bool} {pin : Pin} {evm : BitVec 4} {ops : List Word}
    (he : encode i = header o ch b pin evm :: ops) (ho : i.opcode = o)
    (hl : ∀ cfg, i.wf cfg = true → ops.length = o.format.operandWords cfg) : Statement i := fun cfg h =>
  ⟨_, ops, he, by simp [ho], by simp [operandCount, hl cfg h]⟩

theorem reset : Statement .reset := of_parts rfl rfl fun _ _ => rfl

theorem isinit : Statement .isinit := of_parts rfl rfl fun _ _ => rfl

theorem setled (pins : List Pin) : Statement (.setled pins) :=
  of_parts rfl rfl fun cfg h => by
    have h' : pins.length = cfg.n := by simpa [Instr.wf] using h
    simp [Opcode.format, Format.operandWords, h']

theorem setsns (pins : List Pin) : Statement (.setsns pins) :=
  of_parts rfl rfl fun cfg h => by
    have h' : pins.length = cfg.n := by simpa [Instr.wf] using h
    simp [Opcode.format, Format.operandWords, h']

theorem setpol (pol : Word) : Statement (.setpol pol) := of_parts rfl rfl fun _ _ => rfl

theorem setpoll (on : Bool) : Statement (.setpoll on) := of_parts rfl rfl fun _ _ => rfl

theorem getpoll : Statement .getpoll := of_parts rfl rfl fun _ _ => rfl

theorem stest : Statement .stest := of_parts rfl rfl fun _ _ => rfl

theorem process : Statement .process := of_parts rfl rfl fun _ _ => rfl

theorem edge (ch : ChannelField) : Statement (.edge ch) := of_parts rfl rfl fun _ _ => rfl

theorem gedge (pin : Pin) (evm : BitVec 4) : Statement (.gedge pin evm) := of_parts rfl rfl fun _ _ => rfl

theorem drain : Statement .drain := of_parts rfl rfl fun _ _ => rfl

theorem resolve (ch : ChannelField) (raw : Level) (now : Timestamp) : Statement (.resolve ch raw now) :=
  of_parts rfl rfl fun _ _ => rfl

theorem retarget (ch : ChannelField) (on : Bool) : Statement (.retarget ch on) := of_parts rfl rfl fun _ _ => rfl

theorem tick (ch : ChannelField) : Statement (.tick ch) := of_parts rfl rfl fun _ _ => rfl

theorem poll (ch : ChannelField) (raw : Level) (now : Timestamp) : Statement (.poll ch raw now) :=
  of_parts rfl rfl fun _ _ => rfl

end Sys2Proof.Laws.EncodedLength
end

