-- ==== Sys2Proof/Laws/Sequencer.lean ====
section
/-! SUPPORT. What the phases of PROCESS leave alone, and a sampling phase as one map over the channels. -/

namespace Sys2Proof.Machine

open Sys2Proof

/-! ### One sampled turn -/

/-- What a sampled turn changes: its channel and the draws (R69, R70, R201). -/
theorem withSample_eq (f : Config → Level → Timestamp → Channel → Channel) (c : Nat) (s : State) :
    withSample f c s =
      (afterReadTime (afterSample s)).setChan c
        (f s.cfg (sampledLevel (s.chan c).snsPin s) (readTime (afterSample s)) (s.chan c)) := rfl

/-- A sampled turn with a sample and a time step listed (R69, R70). -/
theorem withSample_listed (f : Config → Level → Timestamp → Channel → Channel) (c : Nat) (s : State) (l : Level)
    (ls : List Level) (d : Nat) (ds : List Nat) (hl : s.samples = l :: ls) (hd : s.timeSteps = d :: ds) :
    withSample f c s =
      { s with
        chans := s.chans.set c (f s.cfg l (BitVec.ofNat 64 ((s.clock + d) % 2 ^ s.cfg.tsW)) (s.chan c))
        samples := ls, timeSteps := ds, clock := s.clock + d } := by
  simp [withSample, sampledLevel, afterSample, readTime, afterReadTime, nextClock, hl, hd, State.setChan]

/-! ### The frame of the phases -/

/-- A part of the state that the draws, a channel write and a duty event leave alone. -/
structure SparedByProcess {α : Type} (φ : State → α) : Prop where
  /-- A channel write leaves it alone. -/
  setChan : ∀ s c ch, φ (s.setChan c ch) = φ s
  /-- A pin sample leaves it alone. -/
  afterSample : ∀ s, φ (afterSample s) = φ s
  /-- A time read leaves it alone. -/
  afterReadTime : ∀ s, φ (afterReadTime s) = φ s
  /-- An output event leaves it alone. -/
  emit : ∀ s e, φ (emit e s) = φ s

/-- Such a part is as before after the phases of PROCESS (R201). -/
theorem processDrained_spares {α : Type} {φ : State → α} (h : SparedByProcess φ) (m : BitVec 32) (s : State) :
    φ (processDrained m s) = φ s := by
  have hs : ∀ f c t, φ (withSample f c t) = φ t := fun f c t => by
    rw [withSample_eq, h.setChan, h.afterReadTime, h.afterSample]
  have h1 : ∀ t, φ (edgePath m t) = φ t := fun t =>
    forChannels_preserves φ t _ fun c u => by unfold edgePathAt; split <;> simp [hs]
  have h2 : ∀ t, φ (pollPath t) = φ t := fun t => by
    unfold pollPath
    split
    · exact forChannels_preserves φ t _ fun c u => by unfold pollPathAt; split <;> simp [hs]
    · rfl
  have h3 : ∀ t, φ (fadePath t) = φ t := fun t =>
    forChannels_preserves φ t _ fun c u => by unfold tickAt; split <;> simp [h.emit, h.setChan]
  simp [processDrained, h1, h2, h3]

@[simp] theorem processDrained_cfg (m : BitVec 32) (s : State) : (processDrained m s).cfg = s.cfg :=
  processDrained_spares (φ := State.cfg) ⟨by simp, by simp, by simp, by simp⟩ m s

@[simp] theorem processDrained_pending (m : BitVec 32) (s : State) : (processDrained m s).pending = s.pending :=
  processDrained_spares (φ := State.pending) ⟨by simp, by simp, by simp, by simp⟩ m s

@[simp] theorem processDrained_pollEn (m : BitVec 32) (s : State) : (processDrained m s).pollEn = s.pollEn :=
  processDrained_spares (φ := State.pollEn) ⟨by simp, by simp, by simp, by simp⟩ m s

@[simp] theorem processDrained_init (m : BitVec 32) (s : State) : (processDrained m s).init = s.init :=
  processDrained_spares (φ := State.init) ⟨by simp, by simp, by simp, by simp⟩ m s

@[simp] theorem processDrained_err (m : BitVec 32) (s : State) : (processDrained m s).err = s.err :=
  processDrained_spares (φ := State.err) ⟨by simp, by simp, by simp, by simp⟩ m s

@[simp] theorem processDrained_responses (m : BitVec 32) (s : State) :
    (processDrained m s).responses = s.responses :=
  processDrained_spares (φ := State.responses) ⟨by simp, by simp, by simp, by simp⟩ m s

@[simp] theorem processDrained_faultMark (m : BitVec 32) (s : State) :
    (processDrained m s).faultMark = s.faultMark :=
  processDrained_spares (φ := State.faultMark) ⟨by simp, by simp, by simp, by simp⟩ m s

@[simp] theorem processDrained_cpos (m : BitVec 32) (s : State) : (processDrained m s).cpos = s.cpos :=
  processDrained_spares (φ := State.cpos) ⟨by simp, by simp, by simp, by simp⟩ m s

@[simp] theorem processDrained_cmds (m : BitVec 32) (s : State) : (processDrained m s).cmds = s.cmds :=
  processDrained_spares (φ := State.cmds) ⟨by simp, by simp, by simp, by simp⟩ m s

@[simp] theorem processDrained_edges (m : BitVec 32) (s : State) : (processDrained m s).edges = s.edges :=
  processDrained_spares (φ := State.edges) ⟨by simp, by simp, by simp, by simp⟩ m s

@[simp] theorem processDrained_turns (m : BitVec 32) (s : State) : (processDrained m s).turns = s.turns :=
  processDrained_spares (φ := State.turns) ⟨by simp, by simp, by simp, by simp⟩ m s

@[simp] theorem processDrained_chans_length (m : BitVec 32) (s : State) :
    (processDrained m s).chans.length = s.chans.length :=
  processDrained_spares (φ := fun t => t.chans.length) ⟨by simp, by simp, by simp, by simp⟩ m s

/-! ### What holds of every channel after the phases -/

/-- A predicate on the channels that a resolve with its retarget, a poll and a tick keep holds of every channel after the phases of
PROCESS: the time handed to a resolve has TS_W bits (R201). -/
theorem processDrained_channels (P : Channel → Prop) (m : BitVec 32) (s : State)
    (hr : ∀ raw now ch, now.toNat < 2 ^ s.cfg.tsW → P ch → P (resolveAndRetarget s.cfg raw now ch))
    (hp : ∀ raw now ch, now.toNat < 2 ^ s.cfg.tsW → P ch → P (pollChannel s.cfg raw now ch))
    (ht : ∀ ch, P ch → P (tickChannel s.cfg ch)) (h : ∀ ch ∈ s.chans, P ch) :
    ∀ ch ∈ (processDrained m s).chans, P ch := by
  have hset : ∀ (t : State) c ch, P ch → (∀ x ∈ t.chans, P x) → ∀ x ∈ (t.setChan c ch).chans, P x := by
    intro t c ch hch hx x hm
    rcases List.mem_or_eq_of_mem_set hm with hm | rfl
    · exact hx x hm
    · exact hch
  have htime : ∀ t : State, t.cfg = s.cfg → (readTime t).toNat < 2 ^ s.cfg.tsW := by
    intro t e
    have h0 : 0 < 2 ^ s.cfg.tsW := Nat.two_pow_pos _
    have h1 := Nat.mod_lt (nextClock t) h0
    have h2 : (readTime t).toNat ≤ nextClock t % 2 ^ s.cfg.tsW := by
      simp only [readTime, e, BitVec.toNat_ofNat]
      exact Nat.mod_le _ _
    omega
  have hws : ∀ (f : Config → Level → Timestamp → Channel → Channel)
      (_ : ∀ raw now ch, now.toNat < 2 ^ s.cfg.tsW → P ch → P (f s.cfg raw now ch)) (c : Nat) (t : State),
      t.cfg = s.cfg → c < t.chans.length → (∀ x ∈ t.chans, P x) → ∀ x ∈ (withSample f c t).chans, P x := by
    intro f hf c t e hc hx
    rw [withSample_eq]
    apply hset
    · rw [e]
      exact hf _ _ _ (htime _ (by simp [e])) (hx _ (chan_mem t hc))
    · simpa using hx
  let Q : State → Prop := fun t => t.cfg = s.cfg ∧ ∀ x ∈ t.chans, P x
  have houtside : ∀ (f : Config → Level → Timestamp → Channel → Channel) c t, ¬ c < t.chans.length →
      Q t → Q (withSample f c t) := by
    intro f c t hc hq
    rw [withSample_eq]
    refine ⟨by simpa using hq.1, ?_⟩
    rw [setChan_chans, List.set_eq_of_length_le (by simpa using Nat.le_of_not_lt hc)]
    simpa using hq.2
  have hwsQ : ∀ (f : Config → Level → Timestamp → Channel → Channel)
      (_ : ∀ raw now ch, now.toNat < 2 ^ s.cfg.tsW → P ch → P (f s.cfg raw now ch)) c t, Q t → Q (withSample f c t) := by
    intro f hf c t hq
    by_cases hc : c < t.chans.length
    · exact ⟨by rw [withSample_eq]; simpa using hq.1, hws f hf c t hq.1 hc hq.2⟩
    · exact houtside f c t hc hq
  have h1 : Q (edgePath m s) := forChannels_induction s _ ⟨rfl, h⟩ fun c t _ hq => by
    unfold edgePathAt
    split
    · exact hwsQ _ hr c t hq
    · exact hq
  have h2 : Q (pollPath (edgePath m s)) := by
    unfold pollPath
    split
    · exact forChannels_induction _ _ h1 fun c t _ hq => by
        unfold pollPathAt
        split
        · exact hwsQ _ hp c t hq
        · exact hq
    · exact h1
  have h3 : Q (fadePath (pollPath (edgePath m s))) := forChannels_induction _ _ h2 fun c t _ hq => by
    rcases tickAt_cases c t with ⟨_, e⟩ | ⟨hf, e⟩
    · rw [e]; exact hq
    · rw [e]
      refine ⟨hq.1, fun x hx => ?_⟩
      by_cases hc : c < t.chans.length
      · rcases List.mem_or_eq_of_mem_set hx with hx | rfl
        · exact hq.2 x hx
        · rw [hq.1]; exact ht _ (hq.2 _ (chan_mem t hc))
      · rw [List.set_eq_of_length_le (Nat.le_of_not_lt hc)] at hx
        exact hq.2 x hx
  exact h3.2

/-! ### A sampling phase as one map -/

theorem drawsBelow_succ (sampled : Nat → Bool) (c : Nat) :
    drawsBelow sampled (c + 1) = drawsBelow sampled c + if sampled c then 1 else 0 := by
  simp only [drawsBelow, List.range_succ, List.filter_append, List.length_append]
  congr 1
  by_cases h : sampled c <;> simp [h]

theorem drawsBelow_mono (sampled : Nat → Bool) {a b : Nat} (h : a ≤ b) : drawsBelow sampled a ≤ drawsBelow sampled b := by
  induction b, h using Nat.le_induction with
  | base => exact Nat.le_refl _
  | succ b _ ih => rw [drawsBelow_succ]; omega

/-- With the samples and time steps of the phase listed, the phase gives each sampled channel its draw and moves the clock by the
sum of the steps (R69, R70, R201). -/
theorem sampling_loop_eq (s : State) (sampled : Nat → Bool) (f : Config → Level → Timestamp → Channel → Channel)
    (raws restS : List Level) (ds restT : List Nat) (hlen : s.chans.length = s.cfg.n)
    (hs : s.samples = raws ++ restS) (ht : s.timeSteps = ds ++ restT)
    (hr : raws.length = drawsBelow sampled s.cfg.n) (hd : ds.length = drawsBelow sampled s.cfg.n)
    (F : Nat → State → State)
    (hF : ∀ c t, c < s.cfg.n → t.cfg = s.cfg → t.chan c = s.chan c →
      F c t = if sampled c then withSample f c t else t) :
    s.forChannels F =
      { s with
        chans := sampledChannels s sampled f raws ds
        samples := restS, timeSteps := restT, clock := s.clock + ds.sum } := by
  let G : Nat → Channel := fun c =>
    if sampled c then
      f s.cfg (raws.getD (drawsBelow sampled c) .low) (timeOfRead s ds (drawsBelow sampled c)) (s.chan c)
    else s.chan c
  have key : ∀ k ≤ s.cfg.n, (List.range k).foldl (fun t c => F c t) s =
      { s with
        chans := (List.range s.cfg.n).map fun c => if c < k then G c else s.chan c
        samples := raws.drop (drawsBelow sampled k) ++ restS
        timeSteps := ds.drop (drawsBelow sampled k) ++ restT
        clock := s.clock + (ds.take (drawsBelow sampled k)).sum } := by
    intro k hk
    induction k with
    | zero =>
      have h := map_chan_range s hlen
      have e : (List.range s.cfg.n).map (fun c => if c < 0 then G c else s.chan c) = s.chans := by simpa using h
      rw [e]
      simp [drawsBelow, ← hs, ← ht]
    | succ k ih =>
      rw [List.range_succ, List.foldl_append, ih (by omega)]
      simp only [List.foldl_cons, List.foldl_nil]
      have hk' : k < s.cfg.n := hk
      have hmono := drawsBelow_mono sampled hk
      rw [drawsBelow_succ] at hmono
      have hch : ∀ (a : List Level) (b : List Nat) (n : Nat),
          State.chan { s with
            chans := (List.range s.cfg.n).map fun c => if c < k then G c else s.chan c
            samples := a, timeSteps := b, clock := n } k = s.chan k := by
        intro a b n
        simp [State.chan, List.getD_eq_getElem?_getD, hk']
      have hmap : ∀ x, x = G k → ((List.range s.cfg.n).map fun c => if c < k then G c else s.chan c).set k x =
          (List.range s.cfg.n).map fun c => if c < k + 1 then G c else s.chan c := by
        rintro x rfl
        apply List.ext_getElem
        · simp
        · intro i h1 h2
          simp only [List.getElem_set, List.getElem_map, List.getElem_range]
          by_cases hik : k = i
          · subst hik; simp
          · have : (i < k + 1) ↔ (i < k) := by omega
            simp [hik, this]
      refine (hF k _ hk' ?_ ?_).trans ?_
      · rfl
      · exact hch _ _ _
      by_cases hsel : sampled k
      · simp only [hsel, if_true] at hmono ⊢
        have hlt : drawsBelow sampled k < raws.length := by omega
        have hlt' : drawsBelow sampled k < ds.length := by omega
        rw [withSample_listed f k _ raws[drawsBelow sampled k] (raws.drop (drawsBelow sampled k + 1) ++ restS)
          ds[drawsBelow sampled k] (ds.drop (drawsBelow sampled k + 1) ++ restT)
          (by simp only []; rw [List.drop_eq_getElem_cons hlt]; rfl)
          (by simp only []; rw [List.drop_eq_getElem_cons hlt']; rfl)]
        have hsum : (ds.take (drawsBelow sampled k + 1)).sum =
            (ds.take (drawsBelow sampled k)).sum + ds[drawsBelow sampled k] := by
          rw [List.take_succ_eq_append_getElem hlt', List.sum_append]
          simp
        rw [drawsBelow_succ, hch]
        simp only [hsel, if_true, hsum, Nat.add_assoc]
        congr 1
        apply hmap
        simp [G, hsel, timeOfRead, hsum, List.getD_eq_getElem?_getD, hlt]
      · rw [drawsBelow_succ]
        simp only [hsel, if_false, Bool.false_eq_true, Nat.add_zero]
        congr 1
        have := hmap (G k) rfl
        rw [← this]
        apply List.ext_getElem
        · simp
        · intro i h1 h2
          simp only [List.getElem_set, List.getElem_map, List.getElem_range]
          by_cases hik : k = i
          · subst hik; simp [G, hsel]
          · simp [hik]
  have h := key s.cfg.n (Nat.le_refl _)
  unfold State.forChannels
  rw [h, ← hr, List.drop_length, hr, ← hd, List.drop_length, List.take_length]
  simp only [List.nil_append]
  congr 1
  unfold sampledChannels
  apply List.map_congr_left
  intro c hc
  simp [List.mem_range.1 hc, G]

/-! ### One channel through the phases -/

/-- A resolve with its retarget leaves the pins, the polarity, `LAST_RAW` and the level alone (R150, R170). -/
theorem resolveAndRetarget_frame (cfg : Config) (raw : Level) (now : Timestamp) (ch : Channel) :
    (resolveAndRetarget cfg raw now ch).ledPin = ch.ledPin ∧ (resolveAndRetarget cfg raw now ch).snsPin = ch.snsPin ∧
    (resolveAndRetarget cfg raw now ch).activeLow = ch.activeLow ∧
    (resolveAndRetarget cfg raw now ch).lastRaw = ch.lastRaw ∧
    (resolveAndRetarget cfg raw now ch).cur = ch.cur ∧ (resolveAndRetarget cfg raw now ch).duty = ch.duty := by
  unfold resolveAndRetarget
  rcases resolve_cases cfg raw now ch with ⟨_, e, e'⟩ | ⟨_, e, e'⟩ <;> rw [e, e']
  · simp only [retargetChannel]
    split <;> exact ⟨rfl, rfl, rfl, rfl, rfl, rfl⟩
  · exact ⟨rfl, rfl, rfl, rfl, rfl, rfl⟩

/-- A poll leaves the pins, the polarity and the level alone (R190). -/
theorem pollChannel_frame (cfg : Config) (raw : Level) (now : Timestamp) (ch : Channel) :
    (pollChannel cfg raw now ch).ledPin = ch.ledPin ∧ (pollChannel cfg raw now ch).snsPin = ch.snsPin ∧
    (pollChannel cfg raw now ch).activeLow = ch.activeLow ∧
    (pollChannel cfg raw now ch).cur = ch.cur ∧ (pollChannel cfg raw now ch).duty = ch.duty := by
  have h := resolveAndRetarget_frame cfg raw now ch
  unfold pollChannel
  split
  · exact ⟨rfl, rfl, rfl, rfl, rfl⟩
  · exact ⟨h.1, h.2.1, h.2.2.1, h.2.2.2.2⟩

/-- After a sampled turn a channel is as before or the sampled function's (R201). -/
theorem withSample_chan (f : Config → Level → Timestamp → Channel → Channel) (c : Nat) (s : State) (d : Nat) :
    (withSample f c s).chan d = s.chan d ∨ ∃ raw now, (withSample f c s).chan d = f s.cfg raw now (s.chan d) := by
  rw [withSample_eq, chan_setChan]
  split
  · next h =>
    right
    rw [h.1]
    exact ⟨_, _, rfl⟩
  · left
    simp

/-- After a tick a channel is as before, or it was fading and has made its step (R172). -/
theorem tickAt_chan (c : Nat) (s : State) (d : Nat) :
    (tickAt c s).chan d = s.chan d ∨
    ((s.chan d).fading = true ∧ (tickAt c s).chan d = tickChannel s.cfg (s.chan d)) := by
  rcases tickAt_cases c s with ⟨_, e⟩ | ⟨hf, e⟩
  · left
    rw [e]
  · have h : (tickAt c s).chan d = (s.setChan c (tickChannel s.cfg (s.chan c))).chan d := by
      rw [e]
      rfl
    rw [h, chan_setChan]
    split
    · next h =>
      right
      rw [← h.1]
      exact ⟨hf, rfl⟩
    · exact .inl rfl

/-- A reflexive and transitive relation that every turn of the three phases satisfies holds from before PROCESS's phases to after
them (R201). -/
theorem processDrained_relates (P : State → State → Prop) (hr : ∀ s, P s s) (ht : ∀ a b c, P a b → P b c → P a c)
    (h1 : ∀ c t, P t (withSample resolveAndRetarget c t))
    (h2 : ∀ c t, t.pollEn = true → P t (withSample pollChannel c t)) (h3 : ∀ c t, P t (tickAt c t))
    (m : BitVec 32) (s : State) : P s (processDrained m s) := by
  have hedge : P s (edgePath m s) :=
    forChannels_induction (P := P s) s _ (hr s) fun c t _ h => by
      unfold edgePathAt
      split
      · exact ht _ _ _ h (h1 c t)
      · exact h
  have hpoll : P (edgePath m s) (pollPath (edgePath m s)) := by
    unfold pollPath
    split
    · next hp =>
      exact (forChannels_induction (P := fun t => t.pollEn = true ∧ P (edgePath m s) t) _ _ ⟨hp, hr _⟩ fun c t _ h => by
        unfold pollPathAt
        split
        · exact ⟨by rw [withSample_eq]; simpa using h.1, ht _ _ _ h.2 (h2 c t h.1)⟩
        · exact h).2
    · exact hr _
  have hfade : P (pollPath (edgePath m s)) (fadePath (pollPath (edgePath m s))) :=
    forChannels_induction (P := P (pollPath (edgePath m s))) _ _ (hr _) fun c t _ h => ht _ _ _ h (h3 c t)
  exact ht _ _ _ (ht _ _ _ hedge hpoll) hfade

end Sys2Proof.Machine
end

