-- ==== Sys2Proof/Laws/Step.lean ====
section
/-! SUPPORT. What the ports and a step can do, said once. -/

namespace Sys2Proof.Machine

open Sys2Proof

/-- A stream that begins with a header and the operand words it asks for yields that command (R72). -/
theorem takeCommand_eq (cfg : Config) (w0 : Word) (ops rest : List Word) (h : ops.length = operandCount cfg w0) :
    takeCommand cfg (w0 :: (ops ++ rest)) = some (w0, ops, rest) := by
  simp [takeCommand, ← h]

/-- A command taken from a stream is its header, the operand words that header asks for, and the rest (R72). -/
theorem takeCommand_some {cfg : Config} {cmds ops rest : List Word} {w0 : Word}
    (h : takeCommand cfg cmds = some (w0, ops, rest)) :
    cmds = w0 :: (ops ++ rest) ∧ ops.length = operandCount cfg w0 := by
  cases cmds with
  | nil => simp [takeCommand] at h
  | cons w ws =>
    simp only [takeCommand] at h
    split at h
    · next hle =>
      simp only [Option.some.injEq, Prod.mk.injEq] at h
      obtain ⟨rfl, rfl, rfl⟩ := h
      exact ⟨by simp, by simpa using hle⟩
    · simp at h

/-- No command is taken exactly when the stream is empty or ends inside a command (R22). -/
theorem takeCommand_none_iff (cfg : Config) (cmds : List Word) :
    takeCommand cfg cmds = none ↔ cmds = [] ∨ ∃ w0 rest, cmds = w0 :: rest ∧ rest.length < operandCount cfg w0 := by
  cases cmds with
  | nil => simp [takeCommand]
  | cons w ws => simp [takeCommand]

/-- What an edge event can do: one OR, or nothing (R62, R100). -/
theorem edgeEvent_cases (w : Word) (s : State) :
    (∃ ch, decode s.cfg w [] = .ok (.edge ch) ∧ edgeEvent w s = atomicOr (channelBit ch.toNat) s) ∨
    (∃ pin evm, decode s.cfg w [] = .ok (.gedge pin evm) ∧ edgeEvent w s = atomicOr (senseMask s pin) s) ∨
    ((∀ ch, decode s.cfg w [] ≠ .ok (.edge ch)) ∧ (∀ pin evm, decode s.cfg w [] ≠ .ok (.gedge pin evm)) ∧
      edgeEvent w s = s) := by
  unfold edgeEvent
  split
  · next ch h => exact .inl ⟨ch, h, rfl⟩
  · next pin evm h => exact .inr (.inl ⟨pin, evm, h, recordPinEdge_eq pin s⟩)
  · next h1 h2 => exact .inr (.inr ⟨h1, h2, rfl⟩)

/-- An EDGE or a GEDGE takes no operand word, so a channel a decoded EDGE names is below N (R94, R101). -/
theorem decode_edge_channel {cfg : Config} {w : Word} {ops : List Word} {ch : ChannelField}
    (h : decode cfg w ops = .ok (.edge ch)) : ch.toNat < cfg.n := by
  rcases decode_cases cfg w ops with ⟨_, e⟩ | ⟨o, _, ⟨_, e⟩ | ⟨_, _, e⟩ | ⟨_, _, _, _, e⟩ | ⟨_, _, hc, e⟩⟩ <;>
    rw [h] at e <;> simp only [Decoded.ok.injEq, reduceCtorEq] at e
  cases o <;> simp only [instrOf, reduceCtorEq, Instr.edge.injEq] at e
  subst e
  exact hc rfl

/-- The bit of channel `c` (R24). -/
theorem channelBit_getLsbD (k c : Nat) (hk : k < 32) : (channelBit k).getLsbD c = decide (k = c) := by
  simp only [channelBit, BitVec.getLsbD_ofNat, Nat.testBit_two_pow]
  by_cases h : k = c
  · subst h; simp [hk]
  · simp [h]

/-- An edge event sets exactly the bits of the channels it signals (R130, R131). -/
theorem edgeEvent_eq (w : Word) (s : State) (hn : s.cfg.n ≤ 32) :
    ∃ m : BitVec 32, (∀ c, m.getLsbD c = signals s w c) ∧ edgeEvent w s = atomicOr m s := by
  rcases edgeEvent_cases w s with ⟨ch, h, e⟩ | ⟨pin, evm, h, e⟩ | ⟨h1, h2, e⟩
  · have := decode_edge_channel h
    exact ⟨_, fun c => by simp [signals, h, channelBit_getLsbD ch.toNat c (by omega), beq_eq_decide], e⟩
  · exact ⟨_, fun c => by simp [signals, h, senseMask_getLsbD s pin hn], e⟩
  · refine ⟨0, fun c => ?_, by simp [e, atomicOr]⟩
    unfold signals
    split
    · next ch h => exact absurd h (h1 ch)
    · next pin evm h => exact absurd h (h2 pin evm)
    · simp

@[simp] theorem afterTurn_cfg (s : State) : (afterTurn s).cfg = s.cfg := by unfold afterTurn; split <;> rfl

@[simp] theorem afterTurn_edges (s : State) : (afterTurn s).edges = s.edges := by unfold afterTurn; split <;> rfl

/-- What the next transaction can be (R6, R64). -/
theorem nextMove_cases (s : State) :
    (s.cmds = [] ∧ s.edges = [] ∧ nextMove s = .wait) ∨
    (s.cmds ≠ [] ∧ s.edges = [] ∧ takeCommand s.cfg s.cmds = none ∧ nextMove s = .stuck) ∨
    (∃ w ws t, s.edges = w :: ws ∧ (t = s ∨ t = afterTurn s) ∧ nextMove s = .edge w { t with edges := ws }) ∨
    (∃ w0 ops rest t, takeCommand s.cfg s.cmds = some (w0, ops, rest) ∧ (t = s ∨ t = afterTurn s) ∧
      nextMove s = .command w0 ops { t with cmds := rest, cpos := t.cpos + (1 + ops.length) }) := by
  unfold nextMove
  split
  · next w0 ops rest h h' => exact .inr (.inr (.inr ⟨w0, ops, rest, s, h, .inl rfl, rfl⟩))
  · next w0 ops rest w ws h h' =>
    split
    · exact .inr (.inr (.inl ⟨w, ws, afterTurn s, h', .inr rfl, rfl⟩))
    · exact .inr (.inr (.inr ⟨w0, ops, rest, afterTurn s, h, .inr rfl, rfl⟩))
  · next w ws h h' => exact .inr (.inr (.inl ⟨w, ws, s, h', .inl rfl, rfl⟩))
  · next h h' =>
    split
    · next h0 => exact .inl ⟨h0, h', rfl⟩
    · next h0 => exact .inr (.inl ⟨h0, h', h, rfl⟩)

/-- What a step can do: wait, stop inside a command, perform an edge event, perform a command or reject one (R6, R64, R282). -/
theorem step_cases (s : State) :
    (s.cmds = [] ∧ s.edges = [] ∧ step s = .next s) ∨
    (s.cmds ≠ [] ∧ s.edges = [] ∧ takeCommand s.cfg s.cmds = none ∧ step s = .fault .stuckInCommand) ∨
    (∃ w ws t, s.edges = w :: ws ∧ (t = s ∨ t = afterTurn s) ∧ step s = .next (edgeEvent w { t with edges := ws })) ∨
    (∃ w0 ops rest t, takeCommand s.cfg s.cmds = some (w0, ops, rest) ∧ (t = s ∨ t = afterTurn s) ∧
      ((∃ i, decode s.cfg w0 ops = .ok i ∧
          step s = exec i { t with cmds := rest, cpos := t.cpos + (1 + ops.length) }) ∨
       (∃ r, decode s.cfg w0 ops = .rejected r ∧
          step s = .next (rejectCommand r { t with cmds := rest, cpos := t.cpos + (1 + ops.length) })))) := by
  rcases nextMove_cases s with ⟨h1, h2, e⟩ | ⟨h1, h2, h3, e⟩ | ⟨w, ws, t, h1, h2, e⟩ | ⟨w0, ops, rest, t, h1, h2, e⟩
  · exact .inl ⟨h1, h2, by simp [step, e]⟩
  · exact .inr (.inl ⟨h1, h2, h3, by simp [step, e]⟩)
  · exact .inr (.inr (.inl ⟨w, ws, t, h1, h2, by simp [step, e]⟩))
  · refine .inr (.inr (.inr ⟨w0, ops, rest, t, h1, h2, ?_⟩))
    have hc : t.cfg = s.cfg := by rcases h2 with rfl | rfl <;> simp
    cases hd : decode s.cfg w0 ops with
    | ok i => exact .inl ⟨i, rfl, by simp [step, e, hc, hd]⟩
    | rejected r => exact .inr ⟨r, rfl, by simp [step, e, hc, hd]⟩

/-! ### Commands, one after the other -/

/-- Commands after commands that answer a next state. -/
theorem execAll_append {xs : List Instr} {s t : State} (ys : List Instr) (h : execAll xs s = .next t) :
    execAll (xs ++ ys) s = execAll ys t := by
  induction xs generalizing s with
  | nil =>
    cases h
    rfl
  | cons x xs ih =>
    simp only [List.cons_append, execAll] at h ⊢
    cases hx : exec x s with
    | next u =>
      rw [hx] at h
      exact ih h
    | fault f =>
      rw [hx] at h
      cases h
    | refused r =>
      rw [hx] at h
      cases h

/-- What one EDGE or GEDGE sets depends on the parameters and the channels alone, so edge events are ORs of fixed masks (R130,
R131). -/
theorem edgeEvent_mask (w : Word) (s : State) :
    ∃ m : BitVec 32, ∀ p, edgeEvent w { s with pending := p } = { s with pending := p ||| m } := by
  cases h : decode s.cfg w [] with
  | rejected r => exact ⟨0, fun p => by simp [edgeEvent, h]⟩
  | ok i =>
    cases i with
    | edge ch => exact ⟨channelBit ch.toNat, fun p => by simp [edgeEvent, h, recordEdge, atomicOr]⟩
    | gedge pin evm =>
      exact ⟨senseMask s pin, fun p => by
        simp only [edgeEvent, h, recordPinEdge_eq, atomicOr]
        rfl⟩
    | _ => exact ⟨0, fun p => by simp [edgeEvent, h]⟩

end Sys2Proof.Machine
end

