-- ==== Sys2Proof/Tests/Slice0.lean ====
section
/-! SUPPORT. The model's own tests: the well-formedness smoke, every constructor's word written out from the spec's encoding, small
tests of one command each, with expected values from 95_test_vectors.md, and a witness for the hypotheses of each statement. -/

namespace Sys2Proof.Tests

open Sys2Proof Sys2Proof.Machine

/-! ### Helpers -/

/-- A part of the state a command leaves. -/
def after {α : Type} (i : Instr) (s : State) (f : State → α) : Option α :=
  match exec i s with
  | .next t => some (f t)
  | _ => none

/-- T0 of the spec's test vectors with channel `c` replaced. -/
def t0With (c : Nat) (f : Channel → Channel) : State := State.reset.setChan c (f (State.reset.chan c))

/-- The spec's default parameters at another number of channels. -/
def atN (n : Nat) : Config :=
  { Config.defaults with
    n := n
    defaultLedPin := List.replicate n 10, defaultSnsPin := List.replicate n 2
    activeLowReset := List.replicate n true }

/-- The last response. -/
def lastResponse (s : State) : Option Response := s.responses.getLast?

/-! ### Well-formedness: an ill-formed term for each check (R94, R97) -/

theorem test_wf_edge_channel : (Instr.edge 4).wf Config.defaults = false := by decide
theorem test_wf_tick_channel : (Instr.tick 31).wf Config.defaults = false := by decide
theorem test_wf_retarget_channel : (Instr.retarget 4 true).wf Config.defaults = false := by decide
theorem test_wf_resolve_channel : (Instr.resolve 4 .low 0).wf Config.defaults = false := by decide
theorem test_wf_poll_channel : (Instr.poll 4 .low 0).wf Config.defaults = false := by decide
theorem test_wf_resolve_time :
    (Instr.resolve 0 .low 0x100000000).wf { Config.defaults with tsW := 32 } = false := by decide
theorem test_wf_poll_time :
    (Instr.poll 0 .low 0x100000000).wf { Config.defaults with tsW := 32 } = false := by decide
theorem test_wf_setled_length : (Instr.setled [10, 11, 12]).wf Config.defaults = false := by decide
theorem test_wf_setsns_length : (Instr.setsns [2, 3, 4, 5, 6]).wf Config.defaults = false := by decide
theorem test_wf_setpol_bit : (Instr.setpol 0x10).wf Config.defaults = false := by decide
theorem test_wf_accepts_boundaries :
    (Instr.edge 3).wf Config.defaults = true ∧ (Instr.setpol 0xF).wf Config.defaults = true ∧
    (Instr.resolve 3 .high 0xFFFFFFFFFFFFFFFF).wf Config.defaults = true := by decide

/-! ### Decoding: each constructor's word, its bits written out from R90, R91 and R93 -/

theorem test_decode_reset :
    decode Config.defaults 0b00001000000000000000000000000000 [] = .ok .reset := by decide
theorem test_decode_isinit :
    decode Config.defaults 0b00010000000000000000000000000000 [] = .ok .isinit := by decide
theorem test_decode_setled :
    decode Config.defaults 0b00011000000000000000000000000000 [0b00001101000011000000101100001010] =
      .ok (.setled [10, 11, 12, 13]) := by decide
theorem test_decode_setsns :
    decode Config.defaults 0b00100000000000000000000000000000 [0b11111111000001000000001100000010] =
      .ok (.setsns [2, 3, 4, 255]) := by decide
theorem test_decode_setpol :
    decode Config.defaults 0b00101000000000000000000000000000 [0b00000000000000000000000000001101] =
      .ok (.setpol 0xD) := by decide
theorem test_decode_setpoll :
    decode Config.defaults 0b00110000001000000000000000000000 [] = .ok (.setpoll true) := by decide
theorem test_decode_getpoll :
    decode Config.defaults 0b00111000000000000000000000000000 [] = .ok .getpoll := by decide
theorem test_decode_stest :
    decode Config.defaults 0b01000000000000000000000000000000 [] = .ok .stest := by decide
theorem test_decode_process :
    decode Config.defaults 0b01001000000000000000000000000000 [] = .ok .process := by decide
theorem test_decode_edge :
    decode Config.defaults 0b01010000110000000000000000000000 [] = .ok (.edge 3) := by decide
theorem test_decode_gedge :
    decode Config.defaults 0b01011000000000001000000100001010 [] = .ok (.gedge 0x81 0xA) := by decide
theorem test_decode_drain :
    decode Config.defaults 0b01100000000000000000000000000000 [] = .ok .drain := by decide
theorem test_decode_resolve :
    decode Config.defaults 0b01101000101000000000000000000000
      [0b00000000000000100100100111110000, 0b10000000000000000000000000000000] =
      .ok (.resolve 2 .high 0x80000000000249F0) := by decide
theorem test_decode_retarget :
    decode Config.defaults 0b01110000011000000000000000000000 [] = .ok (.retarget 1 true) := by decide
theorem test_decode_tick :
    decode Config.defaults 0b01111000100000000000000000000000 [] = .ok (.tick 2) := by decide
theorem test_decode_poll :
    decode Config.defaults 0b10000000010000000000000000000000
      [0b00000000000000000000000000000101, 0b00000000000000000000000000000001] =
      .ok (.poll 1 .low 0x100000005) := by decide

/-- Channel 31 at N = 32, and nine words of pins (R92, R94, R97). -/
theorem test_decode_at_n32 :
    decode (atN 32) 0b01010111110000000000000000000000 [] = .ok (.edge 31) ∧
    commandLength (atN 32) 0b00011000000000000000000000000000 = 9 := by decide

/-! ### Rejected words: V-EN1 to V-EN17 -/

theorem test_reject_illegal_op :
    decode Config.defaults 0x00000000 [] = .rejected .illegalOp ∧
    decode Config.defaults 0x88000000 [] = .rejected .illegalOp ∧
    decode Config.defaults 0xFFFFFFFF [] = .rejected .illegalOp := by decide
theorem test_reject_reserved_header_bits :
    decode Config.defaults 0x48000001 [] = .rejected .reservedBits ∧
    decode Config.defaults 0x08000001 [] = .rejected .reservedBits ∧
    decode Config.defaults 0x79400001 [] = .rejected .reservedBits ∧
    decode Config.defaults 0x50200000 [] = .rejected .reservedBits ∧
    decode Config.defaults 0x30400000 [] = .rejected .reservedBits ∧
    decode Config.defaults 0x58010000 [] = .rejected .reservedBits := by decide
theorem test_reject_bad_channel :
    decode Config.defaults 0x79400000 [] = .rejected .badChannel ∧
    decode Config.defaults 0x71200000 [] = .rejected .badChannel ∧
    decode Config.defaults 0x6FC00000 [0, 0] = .rejected .badChannel ∧
    commandLength Config.defaults 0x6FC00000 = 3 := by decide
theorem test_reject_reserved_time :
    decode { Config.defaults with tsW := 32 } 0x68000000 [0, 1] = .rejected .reservedBits ∧
    decode Config.defaults 0x68000000 [0, 1] = .ok (.resolve 0 .low 0x100000000) := by decide
theorem test_reject_reserved_polarity :
    decode Config.defaults 0x28000000 [0x10] = .rejected .reservedBits := by decide
theorem test_reject_reserved_pin_slot :
    decode (atN 3) 0x18000000 [0x0D0C0B0A] = .rejected .reservedBits ∧
    decode (atN 3) 0x18000000 [0x000C0B0A] = .ok (.setled [10, 11, 12]) := by decide

/-! ### The host's two functions and the assembler -/

theorem test_table_word_resolve :
    decodeTableWord 32 0x68200000 = some (.resolve 0 .high 0) ∧
    decodeTableWord 64 0x000249F068000000 = some (.resolve 0 .low 150000) := by decide
theorem test_table_word_rejected : decodeTableWord 32 0x48000001 = none := by decide
theorem test_fetch_word_runs :
    (match step (State.reset.withFetchWord 32 0x50C00000) with
      | .next t => some (t.pending, t.cpos, t.cmds)
      | _ => none) = some (0b1000, 1, []) := by decide
theorem test_assemble_retarget :
    assembleLine Config.defaults "OPEN 1 ; lamp on" = some (.mainline, [0x70600000]) := by decide
theorem test_assemble_edge_event :
    assembleLine Config.defaults "edge: GEDGE 2, 4" = some (.edge, [0x58000204]) := by decide
theorem test_assemble_setpol :
    assembleLine Config.defaults "SETPOL [1, 0, 1, 1]" = some (.mainline, [0x28000000, 0x0000000D]) := by decide
theorem test_assemble_resolve :
    assembleLine Config.defaults "RESOLVE 0, LOW, 0x249F0" =
      some (.mainline, [0x68000000, 0x000249F0, 0x00000000]) := by decide

/-! ### Reset: state T0 and its trace -/

theorem test_reset_trace :
    State.reset.trace =
      [.duty 0 0, .duty 1 0, .duty 2 0, .duty 3 0, .pulse 0, .duty 0 0, .pulse 1, .duty 1 0, .pulse 2, .duty 2 0,
        .pulse 3, .duty 3 0] := by decide
theorem test_reset_t0 :
    State.reset.init = true ∧
    State.reset.chan 3 =
      { ledPin := 13, snsPin := 5, activeLow := true, cur := 0, tgt := 0, fading := false, doorOpen := false
        lastTrig := 0, tsValid := false, lastRaw := .high, duty := 0 } := by decide

/-! ### One command each: the vectors' ids stand in the names -/

theorem test_reset_cf11 :
    after .reset { State.reset with err := true, pending := 5 } (fun s => (s.err, s.pending, lastResponse s)) =
      some (false, 0, some ⟨.ok, 1⟩) := by decide
theorem test_reset_cf12 :
    after .reset (State.resetWith { Config.defaults with defaultLedPin := [10, 255, 12, 13] })
      (fun s => (s.init, s.trace.drop 14, lastResponse s)) =
      some (false, [.pulse 0, .duty 0 0, .pulse 2, .duty 2 0, .pulse 3, .duty 3 0], some ⟨.ok, 0⟩) := by decide
theorem test_isinit_cf13 : after .isinit State.reset lastResponse = some (some ⟨.ok, 1⟩) := by decide
theorem test_setled_cf1 :
    after (.setled [10, 11, 14, 13]) State.reset
      (fun s => (s.trace.drop 12, drive s 12, drive s 14, lastResponse s)) =
      some ([.pulse 2, .duty 2 0], .none, .pwm 2, some ⟨.ok, 1⟩) := by decide
theorem test_setled_cf2 :
    after (.setled [10, 11, 200, 13]) State.reset (fun s => (s.chans, s.trace.drop 12, lastResponse s)) =
      some (State.reset.chans, [], some ⟨.ok, 0⟩) := by decide
theorem test_setsns_cf5 :
    after (.setsns [2, 3, 4, 6])
      { t0With 3 (fun ch => { ch with tsValid := true, lastTrig := 7777 }) with pending := 8 }
      (fun s => (s.pending, (s.chan 3).snsPin, (s.chan 3).lastTrig, (s.chan 3).tsValid)) =
      some (8, 6, 0, false) := by decide
theorem test_setsns_mx4 :
    after (.setsns [2, 2, 4, 5]) State.reset (fun s => (sense s 2, sense s 3)) = some ([0, 1], []) := by decide
theorem test_setpol_cf10 :
    after (.setpol 0xD) State.reset (fun s => s.chans.map Channel.activeLow) = some [true, false, true, true] := by decide
theorem test_setpoll_cf9 :
    after (.setpoll true) State.reset (fun s => (s.pollEn, lastResponse s)) = some (true, some ⟨.ok, 0⟩) := by decide
theorem test_getpoll_cf9 :
    after .getpoll { State.reset with pollEn := true } lastResponse = some (some ⟨.ok, 1⟩) := by decide
theorem test_stest_cf7 :
    after .stest (t0With 0 fun ch => { ch with cur := 12500, tgt := 12500, duty := 12500 })
      (fun s => ((s.chan 0).cur, (s.chan 0).duty, s.trace.drop 12)) =
      some (12500, 0, [.duty 0 12500, .duty 0 0, .duty 1 12500, .duty 1 0, .duty 2 12500, .duty 2 0, .duty 3 12500,
        .duty 3 0]) := by decide
theorem test_stest_cf8 :
    after .stest (State.resetWith { Config.defaults with defaultLedPin := [10, 255, 12, 13] })
      (fun s => s.trace.drop 10) = some [.duty 0 12500, .duty 0 0, .duty 2 12500, .duty 2 0, .duty 3 12500, .duty 3 0] := by
  decide
theorem test_process_pr3 :
    after .process { State.reset with pending := 5, samples := [.low, .low], timeSteps := [1000, 0] }
      (fun s => (s.pending, s.chans.map Channel.cur, s.chans.map Channel.lastTrig, s.trace.drop 12)) =
      some (0, [1000, 0, 1000, 0], [1000, 0, 1000, 0], [.duty 0 1000, .duty 2 1000]) := by decide
theorem test_process_pr4 :
    after .process
      { State.reset with
        pending := 1, pollEn := true, samples := [.low, .low, .high, .high, .high], timeSteps := [1000, 0, 0, 0, 0] }
      (fun s => ((s.chan 0).doorOpen, (s.chan 0).lastRaw, (s.chan 0).cur, s.samples)) =
      some (true, .low, 1000, []) := by decide
theorem test_edge_si1 : after (.edge 0) State.reset (fun s => (s.pending, lastResponse s)) = some (1, some ⟨.ok, 0⟩) := by
  decide
theorem test_edge_bad_channel :
    after (.edge 4) State.reset (fun s => (s.pending, s.err, lastResponse s)) =
      some (0, true, some ⟨.rejected .badChannel, 0⟩) := by decide
theorem test_gedge_si5 : after (.gedge 3 8) State.reset State.pending = some 0b0010 := by decide
theorem test_gedge_si8 :
    after (.gedge 200 0) (State.resetWith { Config.defaults with defaultSnsPin := [2, 200, 4, 5] }) State.pending =
      some 0 := by decide
theorem test_drain_si3 :
    after .drain { State.reset with pending := 9 } (fun s => (s.pending, lastResponse s)) = some (0, some ⟨.ok, 9⟩) := by
  decide
theorem test_resolve_db4 :
    after (.resolve 0 .high 150000) (t0With 0 fun ch => { ch with doorOpen := true, tsValid := true, lastTrig := 50000 })
      (fun s => ((s.chan 0).doorOpen, (s.chan 0).lastTrig, lastResponse s)) = some (false, 150000, some ⟨.ok, 2⟩) := by
  decide
theorem test_resolve_db10 :
    after (.resolve 0 .high 16)
      { t0With 0 (fun ch => { ch with doorOpen := true, tsValid := true, lastTrig := 0xFFFFFFF0 }) with
        cfg := { Config.defaults with tsW := 32 } }
      (fun s => ((s.chan 0).doorOpen, (s.chan 0).lastTrig, lastResponse s)) =
      some (true, 0xFFFFFFF0, some ⟨.ok, 0⟩) := by decide
theorem test_retarget_fd3 :
    after (.retarget 0 false) (t0With 0 fun ch => { ch with cur := 5000, tgt := 12500, fading := true })
      (fun s => ((s.chan 0).cur, (s.chan 0).tgt, (s.chan 0).fading)) = some (5000, 0, true) := by decide
theorem test_retarget_fd4 :
    after (.retarget 0 true) (t0With 0 fun ch => { ch with tgt := 12500 })
      (fun s => ((s.chan 0).tgt, (s.chan 0).fading)) = some (12500, false) := by decide
theorem test_tick_fd9 :
    after (.tick 0)
      { t0With 0 (fun ch => { ch with cur := 65000, tgt := 65535, fading := true }) with
        cfg := { Config.defaults with wrap := 65535, fadeStep := 65535 } }
      (fun s => ((s.chan 0).cur, (s.chan 0).fading, s.trace.drop 12)) = some (65535, false, [.duty 0 65535]) := by decide
theorem test_tick_down :
    after (.tick 1) (t0With 1 fun ch => { ch with cur := 500, fading := true })
      (fun s => ((s.chan 1).cur, (s.chan 1).fading, (s.chan 1).duty)) = some (0, false, 0) := by decide
theorem test_poll_pl2 :
    after (.poll 0 .low 7) State.reset
      (fun s => ((s.chan 0).lastRaw, (s.chan 0).doorOpen, (s.chan 0).tgt, (s.chan 0).fading, lastResponse s)) =
      some (.low, true, 12500, true, some ⟨.ok, 3⟩) := by decide
theorem test_poll_pl3 :
    after (.poll 0 .high 200)
      (t0With 0 fun ch => { ch with lastRaw := .low, doorOpen := true, tsValid := true, lastTrig := 100, tgt := 12500 })
      (fun s => ((s.chan 0).lastRaw, (s.chan 0).doorOpen, lastResponse s)) = some (.high, true, some ⟨.ok, 0⟩) := by decide

/-- V-EN18, V-EN19: DRAIN and EDGE 7 on the edge port are dropped. -/
theorem test_edge_port_drops :
    edgeEvent 0x60000000 { State.reset with pending := 4 } = { State.reset with pending := 4 } ∧
    edgeEvent 0x51C00000 State.reset = State.reset := by decide

/-! ### Witnesses: a state and operands that meet the hypotheses of each statement, at the boundaries of its clauses -/

theorem witness_DecodeInvertsEncode :
    Config.defaults.Legal ∧ (atN 1).Legal ∧ (atN 32).Legal ∧
    (Instr.setled [0, 255, 30, 7]).wf Config.defaults = true ∧ (Instr.edge 31).wf (atN 32) = true ∧
    (Instr.poll 3 .low 0xFFFFFFFFFFFFFFFF).wf Config.defaults = true := by decide

theorem witness_EncodeInvertsDecode :
    Config.defaults.Legal ∧ [0x249F0, (0 : Word)].length = operandCount Config.defaults 0x68000000 ∧
    decode Config.defaults 0x68000000 [0x249F0, 0] = .ok (.resolve 0 .low 150000) := by decide

/-- TICK 5 at N = 4 names the opcode of clause two; its rejection is the last clause's. -/
theorem witness_RejectionNamesTheFirstCause :
    (0x79400000 : Word).toNat / 2 ^ 27 = Opcode.tick.code.toNat ∧
    (0x48000001 : Word).toNat / 2 ^ 27 = Opcode.process.code.toNat ∧
    (0x79400000 : Word) &&& ~~~ Opcode.tick.format.free = Opcode.tick.baseHeader ∧
    Config.defaults.n ≤ (0x79400000 : Word).toNat / 2 ^ 22 % 32 := by decide

/-- An accepted line of each port, and three lines without words: a channel at or above N, another array length, a pseudo-instruction
with an operand too many. -/
theorem witness_AssembledLinesAreCommands :
    Config.defaults.Legal ∧ assembleLine Config.defaults "SETSNS [2, 3, 4, 5]" = some (.mainline, [0x20000000, 0x05040302]) ∧
    assembleLine Config.defaults "edge: EDGE 3" = some (.edge, [0x50C00000]) ∧
    assembleLine Config.defaults "TICK 4" = none ∧ assembleLine Config.defaults "SETPOL [1, 0, 1]" = none ∧
    assembleLine Config.defaults "POLLON 1" = none := by
  decide

/-- `CLOSE 0x1`, and the array of `SETSNS [2, 0x1d, 4, 5]`, as forms to print. -/
theorem witness_PrintedLinesAssemble :
    Config.defaults.Legal ∧ (Instr.retarget 1 false).wf Config.defaults = true ∧
    ⟨"CLOSE", false, [1]⟩ ∈ sourceForms Config.defaults (.retarget 1 false) ∧
    List.Forall₂ SpellsOperand ["0x1".toList] [1] ∧
    (Instr.setsns [2, 29, 4, 5]).wf Config.defaults = true ∧
    ⟨"SETSNS", true, [2, 29, 4, 5]⟩ ∈ sourceForms Config.defaults (.setsns [2, 29, 4, 5]) ∧
    List.Forall₂ SpellsOperand ["2".toList, "0x1D".toList, "4".toList, "5".toList] [2, 29, 4, 5] ∧
    String.ofList (portPrefixText .edge ++ sourceText "SETSNS" true ["2".toList, "0x1D".toList, "4".toList, "5".toList]) =
      "edge: SETSNS [2, 0x1D, 4, 5]" := by
  refine ⟨by decide, by decide, by decide, .cons ?_ .nil, by decide, by decide, .cons ?_ (.cons ?_ (.cons ?_ (.cons ?_ .nil))),
    by decide⟩
  · exact .inr (.inl (by decide))
  · exact .inl (by decide)
  · exact .inr (.inr (.inl (by decide)))
  · exact .inl (by decide)
  · exact .inl (by decide)

/-- A three-word command, with an edge event left and the mainline agent's turn, and without. -/
def atResolve : State :=
  { State.reset with
    cmds := [0x68000000, 0x249F0, 0, 0x48000000], edges := [0x50000000], turns := [.mainline] }

theorem witness_StepRunsDecodedCommand :
    atResolve.cmds = 0x68000000 :: ([0x249F0, 0] ++ [0x48000000]) ∧
    [0x249F0, (0 : Word)].length = operandCount atResolve.cfg 0x68000000 ∧
    decode atResolve.cfg 0x68000000 [0x249F0, 0] = .ok (.resolve 0 .low 150000) ∧
    atResolve.edges = 0x50000000 :: [] ∧ atResolve.turns = .mainline :: [] ∧
    State.edges { atResolve with edges := [] } = [] ∧ State.turns { atResolve with turns := [] } = [] := by decide

theorem witness_PlacedWordRunsNext :
    decodeWords State.reset.cfg (tableWords State.reset.cfg 32 0x58000204) = some (.ok (.gedge 2 4)) := by decide

theorem witness_RejectedCommandOnlySetsErr :
    let s : State := { State.reset with cmds := [0x28000000, 0x10, 0x48000000] }
    s.cmds = 0x28000000 :: ([0x10] ++ [0x48000000]) ∧ [(0x10 : Word)].length = operandCount s.cfg 0x28000000 ∧
    decode s.cfg 0x28000000 [0x10] = .rejected .reservedBits ∧ s.edges = [] ∧
    State.edges { s with edges := [0x50000000] } = 0x50000000 :: [] ∧
    State.turns { s with turns := [.mainline, .edge] } = .mainline :: [.edge] ∧ s.turns = [] := by decide

theorem witness_StepPerformsEdgeEvent :
    let s : State := { State.reset with edges := [0x50000000] }
    s.edges = 0x50000000 :: [] ∧ takeCommand s.cfg s.cmds = none ∧
    takeCommand s.cfg [0x48000000] ≠ none ∧
    State.turns { s with cmds := [0x48000000], turns := [.edge] } = .edge :: [] ∧
    takeCommand s.cfg [0x28000000, 0x10] = some (0x28000000, [0x10], []) ∧ s.turns = [] := by decide

/-- SETPOL with its operand word missing: the machine is stuck. -/
theorem witness_StepStopsOnlyInsideACommand :
    let s : State := { State.reset with cmds := [0x28000000] }
    s.edges = [] ∧ s.cmds = 0x28000000 :: [] ∧ ([] : List Word).length < operandCount s.cfg 0x28000000 := by decide

theorem witness_MachineWaitsWithoutWords : State.reset.cmds = [] ∧ State.reset.edges = [] := by decide

/-- Both kinds of response: `EDGE 3` answers OK, `EDGE 4` does not. -/
theorem witness_EveryCommandRespondsOnce :
    after (.edge 3) State.reset lastResponse = some (some ⟨.ok, 0⟩) ∧
    after (.edge 4) State.reset lastResponse = some (some ⟨.rejected .badChannel, 0⟩) := by decide

theorem witness_IllFormedOperandsAreRejected :
    (Instr.poll 4 .low 0).wf State.reset.cfg = false ∧ (Instr.setpol 0x10).wf State.reset.cfg = false := by decide

theorem witness_ChannelAtOrAboveNIsRejected :
    State.reset.cfg.n ≤ (4 : ChannelField).toNat ∧ (0xFFFFFFFFFFFFFFFF : Timestamp).toNat < 2 ^ State.reset.cfg.tsW := by
  decide

theorem witness_EdgeSetsItsBit : (3 : ChannelField).toNat < State.reset.cfg.n := by decide

theorem witness_GedgeSetsTheBitsOfThePin : State.reset.cfg.n ≤ 32 ∧ (State.resetWith (atN 32)).cfg.n ≤ 32 := by decide

/-- A dropped word: TICK 0 is neither an EDGE nor a GEDGE. -/
theorem witness_EdgeEventWritesOnlyTheLatch :
    State.reset.cfg.n ≤ 32 ∧ decode State.reset.cfg 0x78000000 [] = .ok (.tick 0) := by decide

theorem witness_EdgeEventsCoalesceAndCommute :
    State.reset.cfg.n ≤ 32 ∧
    ∀ w : Word, w ∈ [0x50000000, 0x58000300, 0x50000000] ↔ w ∈ [(0x58000300 : Word), 0x50000000] := by
  refine ⟨by decide, fun w => ?_⟩
  simp only [List.mem_cons, List.not_mem_nil, or_false]
  constructor
  · rintro (h | h | h) <;> simp [h]
  · rintro (h | h) <;> simp [h]

theorem witness_NoSignalIsLost :
    State.reset.cfg.n ≤ 32 ∧
    (Instr.process = .drain ∨ Instr.process = .process ∨ Instr.process = .reset) ∧
    ∀ x ∈ [Txn.edge 0x58000200, .command (.edge 1), .command .stest, .rejected .badChannel, .command (.setsns [2, 2, 4, 5]),
        .edge 0x58000200, .edge 0x78000000],
      x.clears = false := by decide

theorem witness_EdgeOverlappingDrainIsNeverLost :
    let s : State := { State.reset with cmds := [0x60000000], edges := [0x50000000], turns := [.edge] }
    s.cfg.n ≤ 32 ∧ s.cmds = [0x60000000] ∧ s.edges = [0x50000000] ∧ s.turns = .edge :: [] ∧
    State.turns { s with turns := [.mainline] } = .mainline :: [] := by decide

/-- An open channel 0, triggered at 50000. -/
def openedAt50000 : State := t0With 0 fun ch => { ch with doorOpen := true, tsValid := true, lastTrig := 50000 }

/-- One microsecond before the end of the window the comparator rejects, at its end it does not, and a level of the same state
changes nothing (V-DB3, V-DB4, V-DB5). -/
theorem witness_ResolveAcceptsOnlyNewStatesAfterTheWindow :
    let s := openedAt50000
    (0 : ChannelField).toNat < s.cfg.n ∧ (149999 : Timestamp).toNat < 2 ^ s.cfg.tsW ∧
    ((s.chan 0).tsValid = true ∧
      ((149999 : Timestamp) - (s.chan 0).lastTrig).toNat % 2 ^ s.cfg.tsW < s.cfg.debounceWindow) ∧
    ¬ ((s.chan 0).tsValid = true ∧
      ((150000 : Timestamp) - (s.chan 0).lastTrig).toNat % 2 ^ s.cfg.tsW < s.cfg.debounceWindow) ∧
    logicalOpen (s.chan 0) .high ≠ (s.chan 0).doorOpen ∧ logicalOpen (s.chan 0) .low = (s.chan 0).doorOpen := by decide

/-- The burst of V-DB12 with a same-state call after the window, then the accepted call and two more inside the new window. -/
theorem witness_OneTransitionForABurst :
    let s := openedAt50000
    s.chans.length = s.cfg.n ∧ (0 : ChannelField).toNat < s.cfg.n ∧ (160000 : Timestamp).toNat < 2 ^ s.cfg.tsW ∧
    (s.chan 0).tsValid = true ∧
    (∀ p ∈ [(Level.high, (60000 : Timestamp)), (.low, 70000), (.high, 149999), (.low, 155000)] ++
        [(Level.low, (160000 : Timestamp)), (.low, 259999)], p.2.toNat < 2 ^ s.cfg.tsW) ∧
    (∀ p ∈ [(Level.high, (60000 : Timestamp)), (.low, 70000), (.high, 149999), (.low, 155000)],
      (p.2 - (s.chan 0).lastTrig).toNat % 2 ^ s.cfg.tsW < s.cfg.debounceWindow ∨
      (if (s.chan 0).activeLow then p.1 == .low else p.1 == .high) = (s.chan 0).doorOpen) ∧
    ¬ ((160000 : Timestamp) - (s.chan 0).lastTrig).toNat % 2 ^ s.cfg.tsW < s.cfg.debounceWindow ∧
    (if (s.chan 0).activeLow then Level.high == .low else Level.high == .high) ≠ (s.chan 0).doorOpen ∧
    (∀ p ∈ [(Level.low, (160000 : Timestamp)), (.low, 259999)],
      (p.2 - (160000 : Timestamp)).toNat % 2 ^ s.cfg.tsW < s.cfg.debounceWindow) := by decide

/-- V-DB13. -/
theorem witness_PolarityFlipReversesTheDoor :
    let s := openedAt50000
    s.chans.length = s.cfg.n ∧ (0 : ChannelField).toNat < s.cfg.n ∧ (150000 : Timestamp).toNat < 2 ^ s.cfg.tsW ∧
    (0xE : Word).toNat < 2 ^ s.cfg.n ∧ (0xE : Word).getLsbD 0 = (!(s.chan 0).activeLow) ∧
    (s.chan 0).doorOpen = (if (s.chan 0).activeLow then Level.low == .low else Level.low == .high) ∧
    ¬ ((s.chan 0).tsValid = true ∧
      ((150000 : Timestamp) - (s.chan 0).lastTrig).toNat % 2 ^ s.cfg.tsW < s.cfg.debounceWindow) := by decide

/-- Turning the lamp on at rest changes the target, turning it off does not; a lamp sent down and called back before its first tick
is already at its new target (V-FD5). -/
theorem witness_RetargetMarksAFadeOnlyOnChange :
    let back := t0With 0 fun ch => { ch with cur := 12500, fading := true }
    (3 : ChannelField).toNat < State.reset.cfg.n ∧ State.reset.cfg.wrap ≠ (State.reset.chan 3).tgt ∧
    (0 : Intensity) = (State.reset.chan 3).tgt ∧
    (0 : ChannelField).toNat < back.cfg.n ∧ back.chans.length = back.cfg.n ∧ back.cfg.wrap ≠ (back.chan 0).tgt ∧
    (back.chan 0).cur = back.cfg.wrap := by decide

/-- A lamp fading up from 5000. -/
def fadingUp : State := t0With 0 fun ch => { ch with cur := 5000, tgt := 12500, fading := true, doorOpen := true }

theorem witness_TickMovesTowardTheTarget :
    (0 : ChannelField).toNat < fadingUp.cfg.n ∧ (fadingUp.chan 0).fading = true ∧
    (3 : ChannelField).toNat < fadingUp.cfg.n ∧ (fadingUp.chan 3).fading = false := by decide

theorem witness_FadeConvergesInExactlyCeilTicks :
    fadingUp.chans.length = fadingUp.cfg.n ∧ (0 : ChannelField).toNat < fadingUp.cfg.n ∧
    1 ≤ fadingUp.cfg.fadeStep.toNat ∧ (fadingUp.chan 0).fading = true ∧
    (fadingUp.chan 0).cur.toNat ≠ (fadingUp.chan 0).tgt.toNat := by decide

/-- Ticks of the fading lamp among other commands, another lamp's fade and a rejected command (R177). -/
theorem witness_FadeIsIndependentOfOtherCommands :
    fadingUp.chans.length = fadingUp.cfg.n ∧ (0 : ChannelField).toNat < fadingUp.cfg.n ∧
    1 ≤ fadingUp.cfg.fadeStep.toNat ∧ (fadingUp.chan 0).fading = true ∧
    (fadingUp.chan 0).cur.toNat ≠ (fadingUp.chan 0).tgt.toNat ∧
    (∀ i ∈ [Instr.tick 0, .retarget 1 true, .tick 1, .stest, .edge 9, .resolve 0 .low 5, .poll 2 .low 7, .tick 0],
      i ≠ .reset ∧ i ≠ .process ∧ (∀ on, i ≠ .retarget 0 on) ∧ (∀ raw now, i ≠ .poll 0 raw now)) := by
  refine ⟨by decide, by decide, by decide, by decide, by decide, ?_⟩
  simp

/-- A full fade up and a full fade down. -/
theorem witness_FullFadeNeedsFullFadeTicks :
    let up := t0With 0 fun ch => { ch with tgt := 12500, fading := true }
    let down := t0With 0 fun ch => { ch with cur := 12500, fading := true }
    up.cfg.Legal ∧ up.chans.length = up.cfg.n ∧ (0 : ChannelField).toNat < up.cfg.n ∧ (up.chan 0).fading = true ∧
    (up.chan 0).cur = 0 ∧ (up.chan 0).tgt = up.cfg.wrap ∧
    (down.chan 0).fading = true ∧ (down.chan 0).cur = down.cfg.wrap ∧ (down.chan 0).tgt = 0 := by decide

theorem witness_MidFadeRedirectionKeepsTheLevel :
    fadingUp.chans.length = fadingUp.cfg.n ∧ (0 : ChannelField).toNat < fadingUp.cfg.n ∧
    (fadingUp.chan 0).fading = true ∧ (0 : Intensity) ≠ (fadingUp.chan 0).tgt := by decide

/-- V-PL2 for the first clause; an unchanged level and V-PL3 for the second. -/
theorem witness_PollResolvesOnlyARawChange :
    let s := State.reset
    let r := t0With 0 fun ch => { ch with lastRaw := .low, doorOpen := true, tsValid := true, lastTrig := 100 }
    (0 : ChannelField).toNat < s.cfg.n ∧ (7 : Timestamp).toNat < 2 ^ s.cfg.tsW ∧ Level.low ≠ (s.chan 0).lastRaw ∧
    (s.chan 0).tsValid = false ∧ logicalOpen (s.chan 0) .low ≠ (s.chan 0).doorOpen ∧
    Level.high = (s.chan 0).lastRaw ∧ (r.chan 0).tsValid = true ∧
    ((200 : Timestamp) - (r.chan 0).lastTrig).toNat % 2 ^ r.cfg.tsW < r.cfg.debounceWindow := by decide

/-- V-PL3 and V-PL4. -/
theorem witness_RejectedRawChangeIsConsumed :
    let s := t0With 0 fun ch => { ch with lastRaw := .low, doorOpen := true, tsValid := true, lastTrig := 100 }
    s.chans.length = s.cfg.n ∧ (0 : ChannelField).toNat < s.cfg.n ∧ (200 : Timestamp).toNat < 2 ^ s.cfg.tsW ∧
    (∀ x ∈ [(200000 : Timestamp), 0xFFFFFFFFFFFFFFFF], x.toNat < 2 ^ s.cfg.tsW) ∧ (s.chan 0).tsValid = true ∧
    ((200 : Timestamp) - (s.chan 0).lastTrig).toNat % 2 ^ s.cfg.tsW < s.cfg.debounceWindow := by
  refine ⟨by decide, by decide, by decide, ?_, by decide, by decide⟩
  intro x hx
  simp only [List.mem_cons, List.not_mem_nil, or_false] at hx
  rcases hx with rfl | rfl <;> decide

/-- Polling off, as the last clause asks. -/
theorem witness_ProcessFrame : State.reset.pollEn = false := by decide

/-- V-PR2: a bit of a channel whose sensor pin is invalid, beside a fading lamp. -/
theorem witness_QuietProcessOnlyTicks :
    let s : State :=
      { State.resetWith { Config.defaults with defaultSnsPin := [2, 3, 4, 200] } with pending := 8 }
    s.chans.length = s.cfg.n ∧ s.pollEn = false ∧
    (∀ c < s.cfg.n, s.pending.getLsbD c = true → s.cfg.pinMax.toNat < (s.chan c).snsPin.toNat) := by decide

/-- V-PR4: one draw in phase 1, four in phase 2. -/
theorem witness_ProcessResolvesPollsAndTicks :
    let s : State :=
      { State.reset with
        pending := 1, pollEn := true, samples := [.low, .low, .high, .high, .high, .low], timeSteps := [1000, 0, 0, 0, 0, 9] }
    s.chans.length = s.cfg.n ∧ s.samples = [.low] ++ [.low, .high, .high, .high] ++ [.low] ∧
    s.timeSteps = [1000] ++ [0, 0, 0, 0] ++ [9] ∧ [Level.low].length = drawsBelow (edgeSamples s) s.cfg.n ∧
    [1000].length = [Level.low].length ∧
    [Level.low, .high, .high, .high].length = (if s.pollEn then drawsBelow (pollSamples s) s.cfg.n else 0) ∧
    [0, 0, 0, 0].length = [Level.low, .high, .high, .high].length := by decide

/-- Two of the eight draws are listed: the other six samples and the other seven time steps are free values (logs 4 and 5). -/
theorem witness_ProcessTakesSomeDraws :
    let s : State := { State.reset with pending := 0xF, pollEn := true, samples := [.low, .high], timeSteps := [1000] }
    s.chans.length = s.cfg.n ∧
    drawsBelow (edgeSamples s) s.cfg.n + (if s.pollEn then drawsBelow (pollSamples s) s.cfg.n else 0) = 8 := by decide

/-- A door that has just opened, its lamp on its way up. -/
theorem witness_ProcessMovesTheObservableState :
    fadingUp.Inv ∧ fadingUp.TargetFollowsDoor ∧ 0 < fadingUp.cfg.n ∧
    after .process fadingUp (fun t => (t.chan 0).cur) = some 6000 := by decide

theorem witness_ResetValuesAreTheSpecs :
    fadingUp.chans.length = fadingUp.cfg.n ∧ 3 < Config.defaults.n ∧ 31 < (atN 32).n := by decide

theorem witness_ResetRestoresThePowerUpState : fadingUp.chans.length = fadingUp.cfg.n := by decide

theorem witness_SetledRebindsChangedPins :
    State.reset.chans.length = State.reset.cfg.n ∧ [(10 : Pin), 0, 29, 13].length = State.reset.cfg.n ∧
    (∀ p ∈ [(10 : Pin), 0, 29, 13], p.toNat ≤ State.reset.cfg.pinMax.toNat) := by decide

theorem witness_SetsnsRebindsChangedPins :
    State.reset.chans.length = State.reset.cfg.n ∧ [(2 : Pin), 3, 29, 2].length = State.reset.cfg.n ∧
    (∀ p ∈ [(2 : Pin), 3, 29, 2], p.toNat ≤ State.reset.cfg.pinMax.toNat) := by decide

theorem witness_OneInvalidPinRefusesTheWholeArray :
    [(2 : Pin), 3, 30, 5].length = State.reset.cfg.n ∧
    ∃ p ∈ [(2 : Pin), 3, 30, 5], State.reset.cfg.pinMax.toNat < p.toNat := by decide

theorem witness_SetpolWritesOnlyPolarities :
    State.reset.chans.length = State.reset.cfg.n ∧ (0xF : Word).toNat < 2 ^ State.reset.cfg.n := by decide

/-- One functional channel at the largest valid pin, one channel above it. -/
theorem witness_StestSweepsFunctionalChannels :
    let s := State.resetWith { Config.defaults with defaultLedPin := [29, 30, 12, 13] }
    s.chans.length = s.cfg.n ∧ (s.chan 0).ledPin.toNat ≤ s.cfg.pinMax.toNat ∧
    ¬ (s.chan 1).ledPin.toNat ≤ s.cfg.pinMax.toNat := by decide

theorem witness_ConfigurationNeverTouchesFades :
    (Instr.setled [10, 20, 12, 13]).opcode ∈ [Opcode.setled, .setsns, .setpol, .setpoll, .getpoll, .isinit, .stest] ∧
    after (.setled [10, 20, 12, 13]) fadingUp (fun t => (t.chan 1).ledPin) = some 20 := by decide

/-- PROCESS may write all that its clauses leave open; SETPOLL none of it but the enable. -/
theorem witness_CommandsWriteOnlyTheirElements :
    after (.setpoll true) fadingUp (fun t => t.pollEn) = some true ∧
    (Instr.setpoll true).opcode ∉ [Opcode.edge, .gedge, .drain, .process, .reset] ∧
    (Instr.setpoll true).opcode ≠ .reset ∧ (Instr.edge 0).opcode ∉ [Opcode.setpoll, .reset] := by decide

theorem witness_PinFunctionsFollowTheBindings :
    drive State.reset 10 = .pwm 0 ∧ drive State.reset 14 = .none ∧ 3 ∈ sense State.reset 5 ∧
    State.reset.cfg.pinMax.toNat < (30 : Pin).toNat := by decide

/-- V-MX3: two channels on one pin, and a pin that no channel names. -/
theorem witness_SetledReleasesAndBindsPins :
    State.reset.chans.length = State.reset.cfg.n ∧ [(10 : Pin), 10, 12, 13].length = State.reset.cfg.n ∧
    (∀ q ∈ [(10 : Pin), 10, 12, 13], q.toNat ≤ State.reset.cfg.pinMax.toNat) ∧
    after (.setled [10, 10, 12, 13]) State.reset (fun t => (drive t 10, drive t 11)) = some (.pwm 0, .none) ∧
    (11 : Pin) ∉ [(10 : Pin), 10, 12, 13] ∧ [(10 : Pin), 10, 12, 13].getD 0 0 = 10 := by decide

/-- A fading lamp with its door open, and a TICK to run. -/
theorem witness_StepKeepsTheInvariant :
    State.Inv { fadingUp with cmds := [0x78000000] } ∧
    (match step { fadingUp with cmds := [0x78000000] } with
      | .next t => some (t.chan 0).cur
      | _ => none) = some 6000 := by decide

theorem witness_PowerUpMeetsTheInvariant : Config.defaults.Legal ∧ (atN 32).Legal := by decide

/-- A closed door about to be found open, where one tick makes a full fade. -/
def fullStep : State :=
  { State.resetWith { Config.defaults with fadeStep := 12500 } with pending := 1, samples := [.low], timeSteps := [1000] }

/-- A lamp that PROCESS finds fading; and, with a step of WRAP, one that it retargets and brings to its new target at once. -/
theorem witness_FadingMeansOffTargetAfterATick :
    (fadingUp.Inv ∧ (0 : ChannelField).toNat < fadingUp.cfg.n ∧ (fadingUp.chan 0).fading = true ∧
      after (.tick 0) fadingUp (fun t => (t.chan 0).cur) = some 6000 ∧
      after .process fadingUp (fun t => (t.chan 0).fading) = some true) ∧
    fullStep.Inv ∧ 0 < fullStep.cfg.n ∧ (fullStep.chan 0).fading = false ∧
    after .process fullStep (fun t => ((t.chan 0).fading, (t.chan 0).tgt)) = some (false, 12500) ∧
    after .process fullStep (fun t => t.trace.drop fullStep.trace.length) = some [.duty 0 12500] := by decide

theorem witness_TargetsFollowDoors :
    fadingUp.chans.length = fadingUp.cfg.n ∧ (Instr.poll 0 .high 9).opcode ≠ .resolve ∧
    (Instr.poll 0 .high 9).opcode ≠ .retarget ∧ fadingUp.TargetFollowsDoor ∧
    after (.poll 1 .low 9) fadingUp (fun t => (t.chan 1).doorOpen) = some true := by decide

theorem witness_StepsOnlyExtendTheRecord :
    (match step { fadingUp with cmds := [0x48000000] } with
      | .next t => some t.cpos
      | _ => none) = some 1 := by decide

end Sys2Proof.Tests
end

/-! PROOFS. The fade engine under ticks alone: TICK as one function of its channel, and the distance to the target, which each tick
shortens by `FADE_STEP` (R9, R172 to R175). -/

namespace Sys2Proof.Machine

open Sys2Proof

/-! ### TICK as one function of its channel -/

theorem exec_tick (s : State) {ch : ChannelField} (h : ch.toNat < s.cfg.n) :
    exec (.tick ch) s = .next ((tickAt ch.toNat s).respond 0) := by
  simp [exec, execTick, withChannel, h]

@[simp] theorem tickAt_cfg (c : Nat) (s : State) : (tickAt c s).cfg = s.cfg := by
  rcases tickAt_cases c s with ⟨_, e⟩ | ⟨_, e⟩ <;> rw [e]

@[simp] theorem tickAt_chans_length (c : Nat) (s : State) : (tickAt c s).chans.length = s.chans.length := by
  rcases tickAt_cases c s with ⟨_, e⟩ | ⟨_, e⟩ <;> simp [e]

theorem chan_tickAt_same (s : State) {c : Nat} (h : c < s.chans.length) :
    (tickAt c s).chan c = tickIfFading s.cfg (s.chan c) := by
  cases hf : (s.chan c).fading
  · simp [tickAt, tickIfFading, hf]
  · simp [tickAt, tickIfFading, hf, chan_setChan_same s _ h]

/-- Ticks of one channel and nothing else: each acts on that channel by `tickIfFading`. -/
theorem execAll_replicate_tick (j : Nat) (s : State) {ch : ChannelField} (hn : ch.toNat < s.cfg.n)
    (hlen : ch.toNat < s.chans.length) :
    ∃ t, execAll (List.replicate j (.tick ch)) s = .next t ∧
      t.chan ch.toNat = (tickIfFading s.cfg)^[j] (s.chan ch.toNat) := by
  induction j generalizing s with
  | zero => exact ⟨s, rfl, rfl⟩
  | succ j ih =>
    obtain ⟨t, ht, hchan⟩ := ih ((tickAt ch.toNat s).respond 0) (by simpa using hn) (by simpa using hlen)
    refine ⟨t, ?_, ?_⟩
    · simpa [List.replicate_succ, execAll, exec_tick s hn] using ht
    · simpa [chan_tickAt_same s hlen] using hchan

/-! ### The distance to the target -/

/-- How far the level is from its target. -/
def Channel.distance (ch : Channel) : Nat := Nat.dist ch.cur.toNat ch.tgt.toNat

/-- A channel that is not fading is at its target (R39). -/
def Channel.RestsAtTarget (ch : Channel) : Prop := ch.fading = false → ch.cur = ch.tgt

theorem Channel.distance_eq_zero_iff (ch : Channel) : ch.distance = 0 ↔ ch.cur = ch.tgt := by
  rw [BitVec.toNat_eq]
  exact ⟨Nat.eq_of_dist_eq_zero, Nat.dist_eq_zero⟩

/-- The saturating step shortens the distance by the step, down to 0 (R173). -/
theorem dist_saturatingStep (step cur tgt : Nat) :
    Nat.dist (saturatingStep step cur tgt) tgt = Nat.dist cur tgt - step := by
  unfold saturatingStep Nat.dist
  split
  · omega
  · split <;> omega

@[simp] theorem tickIfFading_tgt (cfg : Config) (ch : Channel) : (tickIfFading cfg ch).tgt = ch.tgt := by
  unfold tickIfFading; split <;> rfl

theorem Channel.RestsAtTarget.tick {ch : Channel} (h : ch.RestsAtTarget) (cfg : Config) :
    (tickIfFading cfg ch).RestsAtTarget := by
  cases hf : ch.fading
  · simpa [tickIfFading, hf] using h
  · simp [tickIfFading, hf, RestsAtTarget, tickChannel]

theorem distance_tickIfFading (cfg : Config) {ch : Channel} (h : ch.RestsAtTarget) :
    (tickIfFading cfg ch).distance = ch.distance - cfg.fadeStep.toNat := by
  cases hf : ch.fading
  · have h0 : ch.distance = 0 := ch.distance_eq_zero_iff.2 (h hf)
    simp [tickIfFading, hf, h0]
  · simp [tickIfFading, hf, Channel.distance, tickChannel, fadeStep_toNat, dist_saturatingStep]

@[simp] theorem iterate_tickIfFading_tgt (cfg : Config) (j : Nat) (ch : Channel) :
    ((tickIfFading cfg)^[j] ch).tgt = ch.tgt := by
  induction j generalizing ch with
  | zero => rfl
  | succ j ih => rw [Function.iterate_succ_apply, ih, tickIfFading_tgt]

theorem distance_iterate_tickIfFading (cfg : Config) (j : Nat) {ch : Channel} (h : ch.RestsAtTarget) :
    ((tickIfFading cfg)^[j] ch).distance = ch.distance - j * cfg.fadeStep.toNat := by
  induction j generalizing ch with
  | zero => simp
  | succ j ih =>
    rw [Function.iterate_succ_apply, ih (h.tick cfg), distance_tickIfFading cfg h, Nat.succ_mul]
    omega

/-- The level is at its target after `j` ticks exactly when `j` steps cover the distance (R175). -/
theorem iterate_tickIfFading_at_target_iff (cfg : Config) (j : Nat) {ch : Channel} (h : ch.RestsAtTarget) :
    ((tickIfFading cfg)^[j] ch).cur = ch.tgt ↔ ch.distance ≤ j * cfg.fadeStep.toNat := by
  have hzero := ((tickIfFading cfg)^[j] ch).distance_eq_zero_iff
  rw [iterate_tickIfFading_tgt, distance_iterate_tickIfFading cfg j h] at hzero
  rw [← hzero, Nat.sub_eq_zero_iff_le]

/-! ### `FULL_FADE_TICKS` -/

/-- `FULL_FADE_TICKS` is the least number of steps that cover WRAP (R9). -/
theorem fullFadeTicks_le_iff {cfg : Config} (h : 1 ≤ cfg.fadeStep.toNat) (j : Nat) :
    cfg.fullFadeTicks ≤ j ↔ cfg.wrap.toNat ≤ j * cfg.fadeStep.toNat := by
  rw [Config.fullFadeTicks, ← Nat.ceilDiv_eq_add_pred_div, ceilDiv_le_iff_le_mul h, Nat.mul_comm]

/-- The rounded-up quotient by its two inequalities (R9). -/
theorem fullFadeTicks_bounds {cfg : Config} (hstep : 1 ≤ cfg.fadeStep.toNat) (hwrap : 1 ≤ cfg.wrap.toNat) :
    cfg.wrap.toNat ≤ cfg.fullFadeTicks * cfg.fadeStep.toNat ∧
      (cfg.fullFadeTicks - 1) * cfg.fadeStep.toNat < cfg.wrap.toNat := by
  have hpos : ¬ cfg.fullFadeTicks ≤ 0 := by
    rw [fullFadeTicks_le_iff hstep]
    omega
  refine ⟨(fullFadeTicks_le_iff hstep _).1 le_rfl, Nat.lt_of_not_le fun hle => ?_⟩
  have := (fullFadeTicks_le_iff hstep _).2 hle
  omega

/-- From one end of the level range to the other the distance is WRAP. -/
theorem Channel.distance_of_full_fade {cfg : Config} {ch : Channel}
    (h : (ch.cur = 0 ∧ ch.tgt = cfg.wrap) ∨ (ch.cur = cfg.wrap ∧ ch.tgt = 0)) : ch.distance = cfg.wrap.toNat := by
  rcases h with ⟨hcur, htgt⟩ | ⟨hcur, htgt⟩ <;>
    simp [distance, hcur, htgt, Nat.dist_zero_left, Nat.dist_zero_right]

/-- Settles O31: the distance starts at WRAP, and `j` ticks cover it exactly when `j` is at least `FULL_FADE_TICKS`. -/
theorem fullFadeNeedsFullFadeTicks : Obligations.FullFadeNeedsFullFadeTicks := by
  refine ⟨by decide, fun s ch hlegal hlen hch hfading hends => ?_⟩
  obtain ⟨-, -, hwrap, hstep, -⟩ := hlegal
  refine ⟨fullFadeTicks_bounds hstep hwrap, fun j => ?_⟩
  obtain ⟨t, ht, hchan⟩ := execAll_replicate_tick j s hch (hlen ▸ hch)
  have hrest : (s.chan ch.toNat).RestsAtTarget := fun hf => absurd (hfading.symm.trans hf) (by decide)
  refine ⟨t, ht, ?_⟩
  rw [hchan, iterate_tickIfFading_at_target_iff _ _ hrest, Channel.distance_of_full_fade hends,
    fullFadeTicks_le_iff hstep]

end Sys2Proof.Machine

/-! PROOFS. The reset values (R42), and the reset sequence as one write of them with its events (R300). -/

namespace Sys2Proof.Machine

open Sys2Proof

/-! ### The reset values -/

@[simp] theorem channelsAtReset_length (cfg : Config) : (channelsAtReset cfg).length = cfg.n := by
  simp [channelsAtReset]

/-- A state whose channels are the reset ones has each of them at its reset value. -/
theorem chan_of_channelsAtReset {s : State} {cfg : Config} (h : s.chans = channelsAtReset cfg) {c : Nat}
    (hc : c < cfg.n) : s.chan c = channelAtReset cfg c := by
  rw [chan_eq_getElem s (by simpa [h] using hc)]
  simp [h, channelsAtReset]

/-- `INIT` is set at reset exactly when every default pin is valid (R42). -/
theorem initAtReset_iff (cfg : Config) :
    initAtReset cfg = true ↔ ∀ c < cfg.n,
      (cfg.defaultLedPin.getD c 0).toNat ≤ cfg.pinMax.toNat ∧
        (cfg.defaultSnsPin.getD c 0).toNat ≤ cfg.pinMax.toNat := by
  simp [initAtReset, channelsAtReset, channelAtReset, Channel.ledOk, Channel.snsOk, validPin]

/-! ### The reset sequence -/

/-- The second loop of the reset sequence leaves the reset channels as they are, because a pulse ends at the channel's level, which
is 0 like its duty register (R229, R300). -/
theorem pulse_loop_of_channelsAtReset {s : State} (h : s.chans = channelsAtReset s.cfg) :
    s.forChannels pulseIfFunctional =
      { s with
        trace := s.trace ++ (List.range s.cfg.n).flatMap fun c =>
          if (channelAtReset s.cfg c).ledOk s.cfg then [Event.pulse c, Event.duty c 0] else [] } := by
  have hchan : ∀ c ∈ List.range s.cfg.n, s.chan c = channelAtReset s.cfg c := fun c hc =>
    chan_of_channelsAtReset h (List.mem_range.1 hc)
  have hchans : ((List.range s.cfg.n).map fun c =>
      if (s.chan c).ledOk s.cfg then { s.chan c with duty := (s.chan c).cur } else s.chan c) = s.chans := by
    rw [h]
    refine List.map_congr_left fun c hc => ?_
    rw [hchan c hc]
    exact ite_self _
  have htrace : ((List.range s.cfg.n).flatMap fun c =>
      if (s.chan c).ledOk s.cfg then [Event.pulse c, Event.duty c (s.chan c).cur] else []) =
      (List.range s.cfg.n).flatMap fun c =>
        if (channelAtReset s.cfg c).ledOk s.cfg then [Event.pulse c, Event.duty c 0] else [] :=
    List.flatMap_congr fun c hc => by rw [hchan c hc]; rfl
  rw [pulse_loop_eq s (by simp [h]), hchans, htrace]

/-- With the reset channels, the check of all pins is the reset value of `INIT` (R42, R300). -/
theorem allPinsValid_of_channelsAtReset {s : State} (h : s.chans = channelsAtReset s.cfg) :
    allPinsValid s = initAtReset s.cfg := by
  simp only [allPinsValid, initAtReset, ← h, ← map_chan_range s (n := s.cfg.n) (by simp [h]), List.all_map]
  rfl

/-- The reset sequence writes every element's reset value and emits the events of reset; the rest stays (R42, R300). -/
theorem resetSequence_eq (s : State) (hlen : s.chans.length = s.cfg.n) :
    resetSequence s = { s with
      pending := 0, pollEn := false, init := initAtReset s.cfg, err := false
      chans := channelsAtReset s.cfg
      trace := s.trace ++ traceAtReset s.cfg } := by
  have hloop := reset_loop_eq { s with pending := 0, pollEn := false, err := false } hlen
  simp only [resetSequence, hloop]
  rw [pulse_loop_of_channelsAtReset rfl, allPinsValid_of_channelsAtReset rfl]
  simp [traceAtReset]

theorem exec_reset (s : State) :
    exec .reset s = .next ((resetSequence s).respond (boolCode (resetSequence s).init)) := rfl

/-- Settles O40: the reset sequence writes the reset value of every element, and these are the spec's. -/
theorem resetValuesAreTheSpecs : Obligations.ResetValuesAreTheSpecs := by
  refine ⟨fun s hlen => ⟨_, exec_reset s, ?_⟩, fun cfg => ?_⟩
  · rw [resetSequence_eq s hlen]
    exact ⟨rfl, rfl, rfl, rfl, rfl, rfl⟩
  · exact ⟨rfl, rfl, rfl, initAtReset_iff cfg, channelsAtReset_length cfg, fun c hc => chan_of_channelsAtReset rfl hc⟩

end Sys2Proof.Machine

/-! PROOFS. An edge event and the phases of PROCESS (R65): an edge event is one OR of a mask that depends on the parameters and the
sensor pins only, the phases write neither, and they do not read the latch. So an edge event can be moved past each turn of each
phase. -/

namespace Sys2Proof.Machine

open Sys2Proof

/-! ### An edge event as one OR -/

/-- The latch bits an edge event sets (R130, R131); none for a dropped word. -/
def edgeMask (w : Word) (s : State) : BitVec 32 :=
  match decode s.cfg w [] with
  | .ok (.edge ch) => channelBit ch.toNat
  | .ok (.gedge pin _) => senseMask s pin
  | _ => 0

theorem edgeMask_of_dropped {w : Word} {s : State} (hedge : ∀ ch, decode s.cfg w [] ≠ .ok (.edge ch))
    (hgedge : ∀ pin evm, decode s.cfg w [] ≠ .ok (.gedge pin evm)) : edgeMask w s = 0 := by
  unfold edgeMask
  split
  · next ch h => exact absurd h (hedge ch)
  · next pin evm h => exact absurd h (hgedge pin evm)
  · rfl

theorem edgeEvent_eq_atomicOr (w : Word) (s : State) : edgeEvent w s = atomicOr (edgeMask w s) s := by
  rcases edgeEvent_cases w s with ⟨ch, h, e⟩ | ⟨pin, evm, h, e⟩ | ⟨hedge, hgedge, e⟩
  · rw [e, edgeMask, h]
  · rw [e, edgeMask, h]
  · rw [e, edgeMask_of_dropped hedge hgedge]
    simp [atomicOr]

@[simp] theorem edgeEvent_cfg (w : Word) (s : State) : (edgeEvent w s).cfg = s.cfg := by
  rw [edgeEvent_eq_atomicOr, atomicOr_cfg]

@[simp] theorem edgeEvent_pollEn (w : Word) (s : State) : (edgeEvent w s).pollEn = s.pollEn := by
  rw [edgeEvent_eq_atomicOr, atomicOr_pollEn]

theorem senseMask_eq_foldl (s : State) (p : Pin) :
    senseMask s p =
      (List.range s.cfg.n).foldl (fun m c => if sensesPin s p c then m ||| channelBit c else m) 0 := rfl

theorem senseMask_congr {s t : State} (hcfg : t.cfg = s.cfg) (hpin : ∀ c, (t.chan c).snsPin = (s.chan c).snsPin)
    (p : Pin) : senseMask t p = senseMask s p := by
  have hsenses : sensesPin t p = sensesPin s p := funext fun c => by
    simp only [sensesPin, Channel.snsOk, hcfg, hpin]
  rw [senseMask_eq_foldl, senseMask_eq_foldl, hsenses, hcfg]

theorem edgeMask_congr {s t : State} (hcfg : t.cfg = s.cfg) (hpin : ∀ c, (t.chan c).snsPin = (s.chan c).snsPin)
    (w : Word) : edgeMask w t = edgeMask w s := by
  simp only [edgeMask, hcfg, senseMask_congr hcfg hpin]

/-! ### Functions an edge event can be moved past -/

/-- A function of the state that neither reads the latch nor writes what an edge event reads. -/
structure LatchBlind (f : State → State) : Prop where
  /-- An OR into the latch can be moved past it. -/
  atomicOr : ∀ v s, f (atomicOr v s) = Machine.atomicOr v (f s)
  /-- The parameters stay. -/
  cfg : ∀ s, (f s).cfg = s.cfg
  /-- Every sensor pin stays. -/
  snsPin : ∀ s c, ((f s).chan c).snsPin = (s.chan c).snsPin

theorem LatchBlind.edgeEvent {f : State → State} (hf : LatchBlind f) (w : Word) (s : State) :
    f (edgeEvent w s) = Machine.edgeEvent w (f s) := by
  rw [edgeEvent_eq_atomicOr, edgeEvent_eq_atomicOr, hf.atomicOr, edgeMask_congr (hf.cfg s) (hf.snsPin s)]

theorem forChannels_edgeEvent {f : Nat → State → State} (hf : ∀ c, LatchBlind (f c)) (w : Word) (s : State) :
    (edgeEvent w s).forChannels f = edgeEvent w (s.forChannels f) :=
  forChannels_commutes (edgeEvent w) s f (by rw [edgeEvent_cfg]) fun c t => (hf c).edgeEvent w t

/-- A function done under a condition that does not depend on the latch, and else nothing. -/
theorem LatchBlind.ite {f : State → State} (hf : LatchBlind f) {p : State → Bool}
    (hp : ∀ v s, p (Machine.atomicOr v s) = p s) : LatchBlind fun s => if p s then f s else s where
  atomicOr v s := by
    simp only [hp, hf.atomicOr]
    split <;> rfl
  cfg s := by
    split
    · exact hf.cfg s
    · rfl
  snsPin s c := by
    split
    · exact hf.snsPin s c
    · rfl

/-! ### The turns of the phases -/

theorem afterSample_atomicOr (v : BitVec 32) (s : State) :
    afterSample (atomicOr v s) = atomicOr v (afterSample s) := by
  simp only [afterSample, atomicOr_samples]
  split <;> rfl

theorem afterReadTime_atomicOr (v : BitVec 32) (s : State) :
    afterReadTime (atomicOr v s) = atomicOr v (afterReadTime s) := by
  simp only [afterReadTime, atomicOr_timeSteps]
  split <;> rfl

theorem latchBlind_withSample {f : Config → Level → Timestamp → Channel → Channel}
    (hf : ∀ cfg raw now ch, (f cfg raw now ch).snsPin = ch.snsPin) (c : Nat) : LatchBlind (withSample f c) where
  atomicOr v s := by
    simp only [withSample_eq, afterSample_atomicOr, afterReadTime_atomicOr, chan_atomicOr, atomicOr_cfg]
    rfl
  cfg s := by simp [withSample_eq]
  snsPin s d := by
    rcases withSample_chan f c s d with h | ⟨raw, now, h⟩
    · rw [h]
    · rw [h, hf]

theorem latchBlind_edgePathAt (m : BitVec 32) (c : Nat) : LatchBlind (edgePathAt m c) := by
  have hturn := latchBlind_withSample (f := resolveAndRetarget)
    (fun cfg raw now ch => (resolveAndRetarget_frame cfg raw now ch).2.1) c
  exact hturn.ite (p := fun s => m.getLsbD c && (s.chan c).snsOk s.cfg) fun _ _ => rfl

theorem latchBlind_pollPathAt (c : Nat) : LatchBlind (pollPathAt c) := by
  have hturn := latchBlind_withSample (f := pollChannel)
    (fun cfg raw now ch => (pollChannel_frame cfg raw now ch).2.1) c
  exact hturn.ite (p := fun s => (s.chan c).snsOk s.cfg) fun _ _ => rfl

theorem latchBlind_tickAt (c : Nat) : LatchBlind (tickAt c) where
  atomicOr v s := by
    unfold tickAt
    rw [chan_atomicOr, atomicOr_cfg]
    split <;> rfl
  cfg := tickAt_cfg c
  snsPin s d := by
    rcases tickAt_chan c s d with h | ⟨_, h⟩
    · rw [h]
    · rw [h]
      rfl

/-! ### The phases -/

theorem edgePath_edgeEvent (m : BitVec 32) (w : Word) (s : State) :
    edgePath m (edgeEvent w s) = edgeEvent w (edgePath m s) :=
  forChannels_edgeEvent (latchBlind_edgePathAt m) w s

theorem pollPath_edgeEvent (w : Word) (s : State) : pollPath (edgeEvent w s) = edgeEvent w (pollPath s) := by
  unfold pollPath
  rw [edgeEvent_pollEn]
  split
  · exact forChannels_edgeEvent latchBlind_pollPathAt w s
  · rfl

theorem fadePath_edgeEvent (w : Word) (s : State) : fadePath (edgeEvent w s) = edgeEvent w (fadePath s) :=
  forChannels_edgeEvent latchBlind_tickAt w s

/-- Settles O23: the event is moved past the phases that follow it, one after the other. -/
theorem edgeEventDuringProcessIsAsAfterIt : Obligations.EdgeEventDuringProcessIsAsAfterIt := by
  intro s w m
  unfold processDrained
  refine ⟨?_, ?_, fadePath_edgeEvent w _⟩
  · rw [edgePath_edgeEvent, pollPath_edgeEvent, fadePath_edgeEvent]
  · rw [pollPath_edgeEvent, fadePath_edgeEvent]

end Sys2Proof.Machine

/-! PROOFS. An edge-port word and the latch (R62, R66, R100): an edge event is one OR of its mask, and the mask holds the channels
the word signals. -/

namespace Sys2Proof.Machine

open Sys2Proof

/-- Bit by bit, an edge event adds the channels it signals to the latch (R130, R131). -/
theorem edgeEvent_pending_getLsbD (w : Word) (s : State) (hn : s.cfg.n ≤ 32) (c : Nat) :
    (edgeEvent w s).pending.getLsbD c = (s.pending.getLsbD c || signals s w c) := by
  obtain ⟨m, hbits, hevent⟩ := edgeEvent_eq w s hn
  rw [hevent, atomicOr_pending, BitVec.getLsbD_or, hbits]

/-- Settles O19: an edge event is an OR into the latch, its bits are the signalled channels, and a dropped word's mask is 0. -/
theorem edgeEventWritesOnlyTheLatch : Obligations.EdgeEventWritesOnlyTheLatch := by
  intro s w hn
  refine ⟨(edgeEvent w s).pending, ?_, edgeEvent_pending_getLsbD w s hn, fun hedge hgedge => ?_⟩
  · rw [edgeEvent_eq_atomicOr]
    rfl
  · rw [edgeEvent_eq_atomicOr, atomicOr_pending, edgeMask_of_dropped hedge hgedge]
    exact BitVec.or_zero

end Sys2Proof.Machine

/-! PROOFS. The decoder's three rejections as rules, in the order of their checks (R98, R101, R281), and the encoding examples of
R104. -/

namespace Sys2Proof

/-! ### The rejections -/

theorem decode_illegalOp {cfg : Config} {w0 : Word} {ops : List Word} (hop : opcodeOf (opField w0) = none) :
    decode cfg w0 ops = .rejected .illegalOp := by
  simp [decode, hop]

theorem decode_reservedBits_of_header {cfg : Config} {o : Opcode} {w0 : Word} {ops : List Word}
    (hop : opField w0 = o.code) (hheader : w0 &&& o.format.legalMask ≠ o.baseHeader) :
    decode cfg w0 ops = .rejected .reservedBits := by
  simp [decode, decodeAs, hop, hheader]

theorem decode_badChannel {cfg : Config} {o : Opcode} {w0 : Word} {ops : List Word} (hop : opField w0 = o.code)
    (hheader : w0 &&& o.format.legalMask = o.baseHeader) (hops : operandReserved cfg o.format ops = false)
    (hnames : o.format.namesChannel = true) (hch : cfg.n ≤ (chField w0).toNat) :
    decode cfg w0 ops = .rejected .badChannel := by
  simp [decode, decodeAs, hop, hheader, hops, hnames, hch]

/-! ### The examples of R104 -/

/-- Settles O4: the encoder computes the ten words, the five decoded words pass the decoder's checks, and each rejected word meets
the rule of its cause. -/
theorem specEncodingExamplesHold : Obligations.SpecEncodingExamplesHold := by
  refine ⟨rfl, rfl, rfl, rfl, rfl, rfl, rfl, rfl, rfl, rfl, ?process, ?edge, ?gedge, ?resolve, ?setsns,
    ?unassigned00, ?unassigned11, ?reservedBit, ?channelAboveN⟩
  case process => exact decode_of_checks (o := .process) rfl rfl rfl nofun
  case edge => exact decode_of_checks (o := .edge) rfl rfl rfl fun _ => by decide
  case gedge => exact decode_of_checks (o := .gedge) rfl rfl rfl nofun
  case resolve => exact decode_of_checks (o := .resolve) rfl rfl rfl fun _ => by decide
  case setsns => exact decode_of_checks (o := .setsns) rfl rfl rfl nofun
  case unassigned00 => exact decode_illegalOp rfl
  case unassigned11 => exact decode_illegalOp rfl
  case reservedBit => exact decode_reservedBits_of_header (o := .process) rfl (by decide)
  case channelAboveN => exact decode_badChannel (o := .tick) rfl rfl rfl rfl (by decide)

end Sys2Proof

/-! PROOFS. What transactions add to the latch (R134 to R136). One relation says which bits the latch has gained and that the
parameters stayed. It composes; every transaction that does not clear the latch meets it with the channels it signals, and so do edge
events one after the other. -/

namespace Sys2Proof.Machine

open Sys2Proof

/-! ### Gaining bits of the latch -/

/-- From `s` to `t` the latch has gained exactly the bits of `signalled`, and the parameters are the same. -/
structure LatchGains (signalled : Nat → Bool) (s t : State) : Prop where
  /-- The parameters stay. -/
  cfg : t.cfg = s.cfg
  /-- A bit is set where it was before or its channel is signalled. -/
  bits : ∀ c, t.pending.getLsbD c = (s.pending.getLsbD c || signalled c)

/-- From `s` to `t` neither the latch nor the parameters have changed. -/
structure LatchKept (s t : State) : Prop where
  /-- The parameters stay. -/
  cfg : t.cfg = s.cfg
  /-- The latch stays. -/
  pending : t.pending = s.pending

theorem LatchKept.gains {s t : State} (h : LatchKept s t) : LatchGains (fun _ => false) s t :=
  ⟨h.cfg, fun c => by rw [h.pending, Bool.or_false]⟩

theorem LatchGains.trans {p q : Nat → Bool} {s t u : State} (hst : LatchGains p s t) (htu : LatchGains q t u) :
    LatchGains (fun c => p c || q c) s u :=
  ⟨htu.cfg.trans hst.cfg, fun c => by rw [htu.bits, hst.bits, Bool.or_assoc]⟩

/-- From a cleared latch, the latch holds exactly what it has gained. -/
theorem LatchGains.bits_of_cleared {p : Nat → Bool} {s t : State} (h : LatchGains p s t) (hs : s.pending = 0) (c : Nat) :
    t.pending.getLsbD c = p c := by
  simp [h.bits, hs]

theorem LatchGains.respond {p : Nat → Bool} {s t : State} (h : LatchGains p s t) (v : Word) :
    LatchGains p s (t.respond v) := ⟨h.cfg, h.bits⟩

/-- An OR into the latch gains the bits of its mask (R67). -/
theorem atomicOr_gains {p : Nat → Bool} {m : BitVec 32} (hm : ∀ c, m.getLsbD c = p c) (s : State) :
    LatchGains p s (atomicOr m s) :=
  ⟨rfl, fun c => by rw [atomicOr_pending, BitVec.getLsbD_or, hm]⟩

/-! ### Edge events -/

/-- An edge event gains the bits of the channels it signals (R130, R131). -/
theorem edgeEvent_gains (w : Word) (s : State) (hn : s.cfg.n ≤ 32) :
    LatchGains (fun c => signals s w c) s (edgeEvent w s) :=
  ⟨edgeEvent_cfg w s, edgeEvent_pending_getLsbD w s hn⟩

/-- What a word signals does not depend on the edge events before it: they write only the latch (R66). -/
theorem signals_edgeEvent (v : Word) (s : State) : signals (edgeEvent v s) = signals s := by
  rw [edgeEvent_eq_atomicOr]
  rfl

/-- Edge events gain the bits of the channels any of them signals (R135). -/
theorem edgeEvents_gains (ws : List Word) (s : State) (hn : s.cfg.n ≤ 32) :
    LatchGains (fun c => ws.any fun w => signals s w c) s (edgeEvents ws s) := by
  induction ws generalizing s with
  | nil => exact LatchKept.gains ⟨rfl, rfl⟩
  | cons w ws ih =>
    have hrest := ih (edgeEvent w s) (by rwa [edgeEvent_cfg])
    rw [signals_edgeEvent] at hrest
    exact (edgeEvent_gains w s hn).trans hrest

theorem edgeEvents_eq_pending (ws : List Word) (s : State) :
    edgeEvents ws s = { s with pending := (edgeEvents ws s).pending } := by
  induction ws generalizing s with
  | nil => rfl
  | cons w ws ih =>
    have hrest : edgeEvents (w :: ws) s = { edgeEvent w s with pending := (edgeEvents (w :: ws) s).pending } :=
      ih (edgeEvent w s)
    rw [hrest, edgeEvent_eq_atomicOr]
    rfl

/-- Settles O20: edge events write only the latch, and its bits depend on the members of the sequence alone. -/
theorem edgeEventsCoalesceAndCommute : Obligations.EdgeEventsCoalesceAndCommute := by
  intro s ws vs hn hmem
  have hbits := (edgeEvents_gains ws s hn).bits
  refine ⟨?_, hbits⟩
  have hany : ∀ c, (ws.any fun w => signals s w c) = vs.any fun w => signals s w c := fun c =>
    Bool.eq_iff_iff.2 (by simp only [List.any_eq_true, hmem])
  have hpending : (edgeEvents ws s).pending = (edgeEvents vs s).pending :=
    BitVec.eq_of_getLsbD_eq fun c _ => by rw [hbits, (edgeEvents_gains vs s hn).bits, hany]
  rw [edgeEvents_eq_pending ws, hpending, ← edgeEvents_eq_pending vs]

/-! ### Operations that keep the latch -/

theorem LatchKept.refl (s : State) : LatchKept s s := ⟨rfl, rfl⟩

theorem LatchKept.trans {s t u : State} (hst : LatchKept s t) (htu : LatchKept t u) : LatchKept s u :=
  ⟨htu.cfg.trans hst.cfg, htu.pending.trans hst.pending⟩

theorem LatchKept.respond {s t : State} (h : LatchKept s t) (v : Word) : LatchKept s (t.respond v) :=
  ⟨h.cfg, h.pending⟩

theorem rejectCommand_latchKept (r : Rejection) (s : State) : LatchKept s (rejectCommand r s) := ⟨rfl, rfl⟩

theorem forChannels_latchKept (s : State) {f : Nat → State → State} (hf : ∀ c t, LatchKept t (f c t)) :
    LatchKept s (s.forChannels f) :=
  forChannels_induction (P := LatchKept s) s f (.refl s) fun c t _ h => h.trans (hf c t)

theorem tickAt_latchKept (c : Nat) (s : State) : LatchKept s (tickAt c s) := by
  unfold tickAt; split <;> exact ⟨rfl, rfl⟩

theorem sweepAt_latchKept (c : Nat) (s : State) : LatchKept s (sweepAt c s) := by
  unfold sweepAt; split <;> exact ⟨rfl, rfl⟩

theorem pulseIfFunctional_latchKept (c : Nat) (s : State) : LatchKept s (pulseIfFunctional c s) := by
  unfold pulseIfFunctional; split <;> exact ⟨rfl, rfl⟩

theorem resetChannelAt_latchKept (c : Nat) (s : State) : LatchKept s (resetChannelAt c s) := ⟨rfl, rfl⟩

theorem rebindLedAt_latchKept (pins : List Pin) (c : Nat) (s : State) : LatchKept s (rebindLedAt pins c s) := by
  unfold rebindLedAt; split <;> exact ⟨rfl, rfl⟩

theorem rebindSensorAt_latchKept (pins : List Pin) (c : Nat) (s : State) : LatchKept s (rebindSensorAt pins c s) := by
  unfold rebindSensorAt; split <;> exact ⟨rfl, rfl⟩

theorem withChannel_latchKept (ch : ChannelField) (s : State) {body : Nat → State → State}
    (h : LatchKept s (body ch.toNat s)) : LatchKept s (withChannel ch s body) := by
  rcases withChannel_cases ch s body with ⟨_, e⟩ | ⟨_, e⟩ <;> rw [e]
  · exact h
  · exact rejectCommand_latchKept _ s

theorem withTime_latchKept (now : Timestamp) (s : State) {body : State → State} (h : LatchKept s (body s)) :
    LatchKept s (withTime now s body) := by
  rcases withTime_cases now s body with ⟨_, e⟩ | ⟨_, e⟩ <;> rw [e]
  · exact h
  · exact rejectCommand_latchKept _ s

theorem withPins_latchKept (pins : List Pin) (s : State) {body : State → State} (h : LatchKept s (body s)) :
    LatchKept s (withPins pins s body) := by
  rcases withPins_cases pins s body with ⟨_, e⟩ | ⟨_, e⟩ <;> rw [e]
  · exact h
  · exact rejectCommand_latchKept _ s

theorem withPolarity_latchKept (pol : Word) (s : State) {body : State → State} (h : LatchKept s (body s)) :
    LatchKept s (withPolarity pol s body) := by
  rcases withPolarity_cases pol s body with ⟨_, e⟩ | ⟨_, e⟩ <;> rw [e]
  · exact h
  · exact rejectCommand_latchKept _ s

/-- The rebinds of SETLED or SETSNS, done as a whole or refused as a whole (R222, R224). -/
theorem rebinds_latchKept (pins : List Pin) (s : State) {f : Nat → State → State} (hf : ∀ c t, LatchKept t (f c t)) :
    LatchKept s (withPins pins s fun s =>
      if pinsValid s.cfg pins then (s.forChannels f).respond 1 else s.respond 0) := by
  apply withPins_latchKept
  split
  · exact (forChannels_latchKept s hf).respond 1
  · exact (LatchKept.refl s).respond 0

/-! ### Commands -/

/-- EDGE on the command port gains its channel's bit, or is rejected (R94, R130). -/
theorem exec_edge_gains (ch : ChannelField) (s : State) :
    ∃ t, exec (.edge ch) s = .next t ∧ LatchGains (fun c => (Txn.command (.edge ch)).signals s c) s t := by
  refine ⟨_, rfl, ?_⟩
  rcases withChannel_cases ch s (fun c t => (recordEdge c t).respond 0) with ⟨hch, e⟩ | ⟨hch, e⟩ <;> rw [e]
  · refine (atomicOr_gains (fun c => ?_) s).respond 0
    simp [Txn.signals, channelBit_getLsbD ch.toNat c ch.isLt, hch, beq_eq_decide]
  · simpa [Txn.signals, Nat.not_lt.2 hch] using (rejectCommand_latchKept .badChannel s).gains

/-- GEDGE on the command port gains the bits of the pin's functional sensor channels (R131). -/
theorem exec_gedge_gains (pin : Pin) (evm : BitVec 4) (s : State) (hn : s.cfg.n ≤ 32) :
    ∃ t, exec (.gedge pin evm) s = .next t ∧
      LatchGains (fun c => (Txn.command (.gedge pin evm)).signals s c) s t := by
  refine ⟨_, rfl, ?_⟩
  rw [recordPinEdge_eq]
  exact (atomicOr_gains (senseMask_getLsbD s pin hn) s).respond 0

/-- A command that does not clear the latch gains the bits of the channels it signals (R134). -/
theorem exec_gains (i : Instr) (s : State) (hn : s.cfg.n ≤ 32) (hi : (Txn.command i).clears = false) :
    ∃ t, exec i s = .next t ∧ LatchGains (fun c => (Txn.command i).signals s c) s t := by
  cases i with
  | reset | process | drain => exact absurd hi (by decide)
  | edge ch => exact exec_edge_gains ch s
  | gedge pin evm => exact exec_gedge_gains pin evm s hn
  | isinit | getpoll | setpoll on => exact ⟨_, rfl, LatchKept.gains ⟨rfl, rfl⟩⟩
  | setled pins => exact ⟨_, rfl, (rebinds_latchKept pins s (rebindLedAt_latchKept pins)).gains⟩
  | setsns pins => exact ⟨_, rfl, (rebinds_latchKept pins s (rebindSensorAt_latchKept pins)).gains⟩
  | setpol pol =>
    have hloop := forChannels_latchKept s (f := fun c t => t.setChan c { t.chan c with activeLow := pol.getLsbD c })
      fun _ _ => ⟨rfl, rfl⟩
    exact ⟨_, rfl, (withPolarity_latchKept pol s (hloop.respond 0)).gains⟩
  | stest => exact ⟨_, rfl, ((forChannels_latchKept s sweepAt_latchKept).respond 0).gains⟩
  | resolve ch raw now | poll ch raw now =>
    exact ⟨_, rfl, (withTime_latchKept now s (withChannel_latchKept ch s ⟨rfl, rfl⟩)).gains⟩
  | retarget ch on => exact ⟨_, rfl, (withChannel_latchKept ch s ⟨rfl, rfl⟩).gains⟩
  | tick ch => exact ⟨_, rfl, (withChannel_latchKept ch s ((tickAt_latchKept _ s).respond 0)).gains⟩

/-! ### Transactions -/

theorem perform_command {i : Instr} {s t : State} (h : exec i s = .next t) : (Txn.command i).perform s = t := by
  simp only [Txn.perform, h]

/-- A transaction that does not clear the latch gains the bits of the channels it signals (R134). -/
theorem perform_gains (x : Txn) (s : State) (hn : s.cfg.n ≤ 32) (hx : x.clears = false) :
    LatchGains (fun c => x.signals s c) s (x.perform s) := by
  cases x with
  | edge w => exact edgeEvent_gains w s hn
  | command i =>
    obtain ⟨t, hexec, hgains⟩ := exec_gains i s hn hx
    rwa [perform_command hexec]
  | rejected r => exact (rejectCommand_latchKept r s).gains

/-- Transactions that do not clear the latch gain the bits of the channels they signal, each judged in its own state (R136). -/
theorem performAll_gains (xs : List Txn) (s : State) (hn : s.cfg.n ≤ 32) (hxs : ∀ x ∈ xs, x.clears = false) :
    LatchGains (fun c => signalledIn xs s c) s (performAll xs s) := by
  induction xs generalizing s with
  | nil => exact (LatchKept.refl s).gains
  | cons x xs ih =>
    obtain ⟨hx, hrest⟩ := List.forall_mem_cons.1 hxs
    have hgains := perform_gains x s hn hx
    exact hgains.trans (ih (x.perform s) (hgains.cfg ▸ hn) hrest)

/-! ### The transactions that clear the latch -/

theorem exec_drain (s : State) : exec .drain s = .next ((atomicClear s).respond s.pending) := rfl

theorem exec_process (s : State) :
    exec .process s = .next ((processDrained s.pending (atomicClear s)).respond 0) := rfl

/-- The reset sequence clears the latch before its loops, and these keep it (R300). -/
theorem resetSequence_latchKept (s : State) : LatchKept (atomicClear s) (resetSequence s) := by
  have hresets := forChannels_latchKept { s with pending := 0, pollEn := false, err := false } resetChannelAt_latchKept
  have hpulses := hresets.trans (forChannels_latchKept _ pulseIfFunctional_latchKept)
  exact ⟨hpulses.cfg, hpulses.pending⟩

/-- A DRAIN, a PROCESS and a RESET leave the latch cleared and the parameters as they were (R24). -/
theorem exec_clears {i : Instr} (hi : i = .drain ∨ i = .process ∨ i = .reset) (s : State) :
    ∃ t, exec i s = .next t ∧ LatchKept (atomicClear s) t := by
  rcases hi with rfl | rfl | rfl
  · exact ⟨_, exec_drain s, rfl, rfl⟩
  · exact ⟨_, exec_process s, by simp, by simp⟩
  · exact ⟨_, exec_reset s, (resetSequence_latchKept s).respond _⟩

/-- Settles O21: the last clearing command leaves an empty latch, the transactions after it gain exactly the bits they signal, and
both drains take the latch as it then is. -/
theorem noSignalIsLost : Obligations.NoSignalIsLost := by
  intro s last xs hn hlast hxs
  obtain ⟨t, hexec, hcleared⟩ := exec_clears hlast s
  have hgains := performAll_gains xs t (by rwa [hcleared.cfg]) hxs
  exact ⟨t, (performAll xs t).pending, hexec, hgains.bits_of_cleared hcleared.pending,
    exec_drain (performAll xs t), exec_process (performAll xs t)⟩

end Sys2Proof.Machine

/-! PROOFS. RESOLVE as a command (R150 to R153, R156): a call that the resolver accepts, a call that it does not, and a burst of calls
of the second kind, which only adds its responses. -/

namespace Sys2Proof.Machine

open Sys2Proof

/-! ### One call -/

/-- The resolver ignores a call inside the window and a call at the present door state's level (R150). -/
theorem resolverAccepts_eq_false_iff (cfg : Config) (raw : Level) (now : Timestamp) (ch : Channel) :
    resolverAccepts cfg raw now ch = false ↔
      debounceRejects cfg ch now = true ∨ logicalOpen ch raw = ch.doorOpen := by
  rw [← Bool.not_eq_true, resolverAccepts_iff]
  cases debounceRejects cfg ch now <;> simp

theorem exec_resolve (s : State) {ch : ChannelField} {now : Timestamp} (raw : Level) (hch : ch.toNat < s.cfg.n)
    (hnow : now.toNat < 2 ^ s.cfg.tsW) :
    exec (.resolve ch raw now) s = .next ((s.setChan ch.toNat (resolveChannel s.cfg raw now (s.chan ch.toNat))).respond
      (resolveCode (resolveResult s.cfg raw now (s.chan ch.toNat)))) := by
  simp [exec, execResolve, withTime, withChannel, hch, hnow]

/-- A transition is answered 3 for open and 2 for closed (R99). -/
theorem resolveCode_some (opened : Bool) : resolveCode (some opened) = if opened then 3 else 2 := by
  cases opened <;> rfl

/-- An accepted call writes the latch and the door state of its channel and answers the new door state (R150, R153). -/
theorem exec_resolve_of_accepts {s : State} {ch : ChannelField} {raw : Level} {now : Timestamp} (hch : ch.toNat < s.cfg.n)
    (hnow : now.toNat < 2 ^ s.cfg.tsW) (h : resolverAccepts s.cfg raw now (s.chan ch.toNat) = true) :
    exec (.resolve ch raw now) s = .next ((s.setChan ch.toNat { s.chan ch.toNat with
      lastTrig := now, tsValid := true, doorOpen := logicalOpen (s.chan ch.toNat) raw }).respond
      (if logicalOpen (s.chan ch.toNat) raw then 3 else 2)) := by
  rw [exec_resolve s raw hch hnow, ← resolveCode_some]
  simp only [resolveChannel, resolveResult, h, if_true]

/-- A call that is not accepted answers none and writes nothing (R150, R153). -/
theorem exec_resolve_of_ignores {s : State} {ch : ChannelField} {raw : Level} {now : Timestamp} (hch : ch.toNat < s.cfg.n)
    (hnow : now.toNat < 2 ^ s.cfg.tsW) (h : resolverAccepts s.cfg raw now (s.chan ch.toNat) = false) :
    exec (.resolve ch raw now) s = .next (s.respond 0) := by
  rw [exec_resolve s raw hch hnow]
  simp [resolveChannel, resolveResult, h, setChan_chan, resolveCode]

/-- Settles O24: a call outside the window at a new door state's level is accepted, every other call ignored. -/
theorem resolveAcceptsOnlyNewStatesAfterTheWindow : Obligations.ResolveAcceptsOnlyNewStatesAfterTheWindow := by
  intro s ch raw now hch hnow old rejected opened
  have hopened : logicalOpen old raw = opened := logicalOpen_eq old raw
  have hrejected : debounceRejects s.cfg old now = true ↔ rejected := debounceRejects_iff s.cfg old now
  constructor
  · intro hwindow hnew
    have haccepts : resolverAccepts s.cfg raw now old = true :=
      (resolverAccepts_iff _ _ _ _).2 ⟨Bool.eq_false_iff.2 (hwindow ∘ hrejected.1), hopened ▸ hnew⟩
    rw [← hopened]
    exact exec_resolve_of_accepts hch hnow haccepts
  · intro h
    exact exec_resolve_of_ignores hch hnow
      ((resolverAccepts_eq_false_iff _ _ _ _).2 (h.imp hrejected.2 hopened.trans))

/-! ### A burst of calls -/

/-- Calls that the resolver ignores, one after the other: each finds the channel as the first did, and only the responses grow. -/
theorem execAll_resolve_of_ignores {ch : ChannelField} (calls : List (Level × Timestamp)) (s : State)
    (hch : ch.toNat < s.cfg.n) (hnow : ∀ p ∈ calls, p.2.toNat < 2 ^ s.cfg.tsW)
    (h : ∀ p ∈ calls, resolverAccepts s.cfg p.1 p.2 (s.chan ch.toNat) = false) :
    execAll (calls.map fun p => .resolve ch p.1 p.2) s =
      .next { s with responses := s.responses ++ List.replicate calls.length ⟨.ok, 0⟩ } := by
  induction calls generalizing s with
  | nil => simp [execAll]
  | cons p calls ih =>
    rw [List.forall_mem_cons] at hnow h
    have hhead := exec_resolve_of_ignores hch hnow.1 h.1
    have htail := ih (s.respond 0) hch hnow.2 h.2
    simp only [List.map_cons, execAll, hhead, htail]
    simp [State.respond, List.replicate_succ]

/-- An accepted call, then calls inside the window that it opens: only the first one writes (R151, R153). -/
theorem execAll_resolve_transition {ch : ChannelField} {raw : Level} {now : Timestamp} (calls : List (Level × Timestamp))
    (s : State) (hlen : s.chans.length = s.cfg.n) (hch : ch.toNat < s.cfg.n) (hnow : now.toNat < 2 ^ s.cfg.tsW)
    (htimes : ∀ p ∈ calls, p.2.toNat < 2 ^ s.cfg.tsW)
    (haccepts : resolverAccepts s.cfg raw now (s.chan ch.toNat) = true)
    (hwindow : ∀ p ∈ calls, (p.2 - now).toNat % 2 ^ s.cfg.tsW < s.cfg.debounceWindow) :
    execAll (.resolve ch raw now :: calls.map fun p => .resolve ch p.1 p.2) s = .next { s with
      chans := s.chans.set ch.toNat { s.chan ch.toNat with
        lastTrig := now, tsValid := true, doorOpen := logicalOpen (s.chan ch.toNat) raw }
      responses := s.responses ++ [⟨.ok, if logicalOpen (s.chan ch.toNat) raw then 3 else 2⟩] ++
        List.replicate calls.length ⟨.ok, 0⟩ } := by
  simp only [execAll, exec_resolve_of_accepts hch hnow haccepts]
  refine execAll_resolve_of_ignores calls _ hch htimes fun p hp => (resolverAccepts_eq_false_iff _ _ _ _).2 (.inl ?_)
  rw [chan_respond, chan_setChan_same s _ (hlen ▸ hch)]
  exact (debounceRejects_iff _ _ _).2 ⟨rfl, hwindow p hp⟩

/-- Settles O25: the calls before the accepted one are ignored by the old latch or the old door state, the calls after it by the new
latch. -/
theorem oneTransitionForABurst : Obligations.OneTransitionForABurst := by
  intro s ch before after raw now hlen hch hnow old opens inWindow call hvalid htimes hbefore
  rw [List.forall_mem_append] at htimes
  have hburst : execAll (before.map call) s =
      .next { s with responses := s.responses ++ List.replicate before.length ⟨.ok, 0⟩ } := by
    refine execAll_resolve_of_ignores before s hch htimes.1 fun p hp => (resolverAccepts_eq_false_iff _ _ _ _).2 ?_
    exact (hbefore p hp).imp_left fun hin => (debounceRejects_iff _ _ _).2 ⟨hvalid, hin⟩
  refine ⟨hburst, fun hout hnew hafter => ?_⟩
  have haccepts : resolverAccepts s.cfg raw now old = true :=
    (resolverAccepts_iff _ _ _ _).2
      ⟨Bool.eq_false_iff.2 fun hrejects => hout ((debounceRejects_iff _ _ _).1 hrejects).2, hnew⟩
  rw [execAll_append _ hburst]
  exact execAll_resolve_transition after _ hlen hch hnow htimes.2 haccepts hafter

end Sys2Proof.Machine

/-! PROOFS. RETARGET and TICK as commands on one channel (R170 to R173, R176), and the level of a fade after any number of its ticks
(R175): `j` ticks are one saturating step of `j * FADE_STEP`. -/

namespace Sys2Proof.Machine

open Sys2Proof

/-! ### The saturating step -/

/-- A level at its target is left by a step down to it as well, so two cases are enough (R173). -/
theorem saturatingStep_eq_ite (step cur tgt : Nat) :
    saturatingStep step cur tgt = if cur < tgt then min (cur + step) tgt else max (cur - step) tgt := by
  unfold saturatingStep
  split
  · rfl
  · split <;> omega

/-- The formula of R173 over the integers, where the subtraction does not stop at 0. -/
theorem natCast_saturatingStep (step cur tgt : Nat) :
    (saturatingStep step cur tgt : Int) =
      if cur < tgt then min (cur + step : Int) tgt else if tgt < cur then max (cur - step : Int) tgt else cur := by
  unfold saturatingStep
  split
  · omega
  · split <;> omega

@[simp] theorem saturatingStep_zero (cur tgt : Nat) : saturatingStep 0 cur tgt = cur := by
  rw [saturatingStep_eq_ite]
  split <;> omega

/-- Two steps toward one target are one step of their sum. -/
theorem saturatingStep_saturatingStep (m n cur tgt : Nat) :
    saturatingStep n (saturatingStep m cur tgt) tgt = saturatingStep (m + n) cur tgt := by
  simp only [saturatingStep_eq_ite]
  by_cases h : cur < tgt
  · simp only [h, if_true]
    split <;> omega
  · simp only [h, if_false]
    split <;> omega

/-- A longer step gets strictly closer as long as the shorter one falls short of the target. -/
theorem saturatingStep_strict {m n cur tgt : Nat} (hmn : m < n) (hshort : m < Nat.dist cur tgt) :
    if cur < tgt then saturatingStep m cur tgt < saturatingStep n cur tgt
    else saturatingStep n cur tgt < saturatingStep m cur tgt := by
  simp only [Nat.dist, saturatingStep_eq_ite] at hshort ⊢
  split <;> omega

/-! ### RETARGET and TICK as commands -/

/-- RETARGET applies `Retarget` to its channel (R171). -/
theorem exec_retarget (s : State) {ch : ChannelField} (on : Bool) (h : ch.toNat < s.cfg.n) :
    exec (.retarget ch on) s =
      .next ((s.setChan ch.toNat (retargetChannel s.cfg on (s.chan ch.toNat))).respond 0) := by
  simp [exec, execRetarget, withChannel, h]

theorem retargetChannel_of_ne {cfg : Config} {on : Bool} {ch : Channel} (h : targetLevel cfg on ≠ ch.tgt) :
    retargetChannel cfg on ch = { ch with tgt := targetLevel cfg on, fading := true } := if_neg h

theorem retargetChannel_of_eq {cfg : Config} {on : Bool} {ch : Channel} (h : targetLevel cfg on = ch.tgt) :
    retargetChannel cfg on ch = ch := if_pos h

/-- A retarget that changes the target, then a tick: the channel is marked as fading and makes one step (R170, R172). -/
theorem exec_retarget_then_tick (s : State) {ch : ChannelField} {on : Bool} (hlen : s.chans.length = s.cfg.n)
    (hch : ch.toNat < s.cfg.n) (hchange : targetLevel s.cfg on ≠ (s.chan ch.toNat).tgt) :
    ∃ t u, exec (.retarget ch on) s = .next t ∧
      t.chan ch.toNat = { s.chan ch.toNat with tgt := targetLevel s.cfg on, fading := true } ∧
      exec (.tick ch) t = .next u ∧ u.chan ch.toNat = tickChannel s.cfg (t.chan ch.toNat) := by
  have hin : ch.toNat < s.chans.length := hlen ▸ hch
  have hchan := chan_setChan_same s (retargetChannel s.cfg on (s.chan ch.toNat)) hin
  rw [retargetChannel_of_ne hchange] at hchan
  refine ⟨_, _, exec_retarget s on hch, ?_, exec_tick _ (by simpa using hch), ?_⟩
  · rw [retargetChannel_of_ne hchange, chan_respond, hchan]
  · rw [retargetChannel_of_ne hchange, chan_respond, chan_tickAt_same _ (by simpa using hin), chan_respond, hchan]
    simp [tickIfFading]

/-- A tick of a fading channel, with the test that clears `FADING` as a proposition (R172). -/
theorem tickChannel_of_fading {cfg : Config} {ch : Channel} (h : ch.fading = true) :
    tickChannel cfg ch = { ch with
      cur := fadeStep cfg ch.cur ch.tgt
      fading := decide (fadeStep cfg ch.cur ch.tgt ≠ ch.tgt)
      duty := fadeStep cfg ch.cur ch.tgt } := by
  simp [tickChannel, h, bne, beq_eq_decide]

/-- Settles O28: a tick of a fading channel writes the saturating step, which 16 bits hold, and any other tick nothing. -/
theorem tickMovesTowardTheTarget : Obligations.TickMovesTowardTheTarget := by
  intro s ch hch old
  rw [exec_tick s hch]
  rcases tickAt_cases ch.toNat s with ⟨hrest, htick⟩ | ⟨hfading, htick⟩
  · exact ⟨fun _ => by rw [htick]; rfl, fun h => absurd (hrest.symm.trans h) (by decide)⟩
  · refine ⟨fun h => absurd (hfading.symm.trans h) (by decide), fun _ => ⟨fadeStep s.cfg old.cur old.tgt, ?_, ?_⟩⟩
    · rw [fadeStep_toNat, natCast_saturatingStep]
    · rw [htick, tickChannel_of_fading hfading]
      rfl

/-- Settles O32: the retarget leaves the level, and the step after it is the saturating one toward the new target. -/
theorem midFadeRedirectionKeepsTheLevel : Obligations.MidFadeRedirectionKeepsTheLevel := by
  intro s ch on hlen hch old target _ hchange
  obtain ⟨t, u, hretarget, htchan, htick, huchan⟩ := exec_retarget_then_tick s hlen hch hchange
  refine ⟨t, u, hretarget, by rw [htchan], by rw [htchan]; rfl, htick, ?_⟩
  rw [huchan, htchan]
  simp only [tickChannel, fadeStep_toNat, saturatingStep_eq_ite]
  rfl

/-- Settles O27: the three clauses are a write of the changed target, no write, and a step from the target to itself. -/
theorem retargetMarksAFadeOnlyOnChange : Obligations.RetargetMarksAFadeOnlyOnChange := by
  intro s ch on hch old target
  refine ⟨fun hchange => ?_, fun hsame => ?_, fun hlen hchange hcur => ?_⟩
  · rw [exec_retarget s on hch, retargetChannel_of_ne hchange]
    rfl
  · rw [exec_retarget s on hch, retargetChannel_of_eq hsame, setChan_chan]
    rfl
  · obtain ⟨t, u, hretarget, htchan, htick, huchan⟩ := exec_retarget_then_tick s hlen hch hchange
    have hstep : fadeStep s.cfg old.cur target = target := by
      rw [BitVec.toNat_eq, fadeStep_toNat, hcur]
      simp [saturatingStep]
    refine ⟨t, u, hretarget, by rw [htchan], htick, ?_, ?_⟩ <;>
      rw [huchan, htchan, tickChannel_of_fading rfl]
    · exact decide_eq_false (not_not_intro hstep)
    · exact hstep

/-! ### The course of a fade -/

/-- The channel is marked as fading exactly while its level is off its target: R39 both ways, as it holds of a fade once begun. -/
def Channel.FadesWhileOffTarget (ch : Channel) : Prop := ch.fading = decide (ch.cur ≠ ch.tgt)

theorem Channel.FadesWhileOffTarget.restsAtTarget {ch : Channel} (h : ch.FadesWhileOffTarget) : ch.RestsAtTarget := by
  intro hrest
  simpa using h.symm.trans hrest

theorem Channel.FadesWhileOffTarget.tick {ch : Channel} (h : ch.FadesWhileOffTarget) (cfg : Config) :
    (tickIfFading cfg ch).FadesWhileOffTarget := by
  cases hf : ch.fading
  · simpa [tickIfFading, hf] using h
  · simp only [tickIfFading, hf, if_true, FadesWhileOffTarget, tickChannel_of_fading hf]

theorem Channel.FadesWhileOffTarget.iterate_tick {ch : Channel} (h : ch.FadesWhileOffTarget) (cfg : Config) (j : Nat) :
    ((tickIfFading cfg)^[j] ch).FadesWhileOffTarget := by
  induction j generalizing ch with
  | zero => exact h
  | succ j ih => exact ih (h.tick cfg)

/-- A tick is one saturating step, also on a channel that rests at its target (R172, R173). -/
theorem tickIfFading_cur (cfg : Config) {ch : Channel} (h : ch.RestsAtTarget) :
    (tickIfFading cfg ch).cur.toNat = saturatingStep cfg.fadeStep.toNat ch.cur.toNat ch.tgt.toNat := by
  cases hf : ch.fading
  · simp [tickIfFading, hf, h hf, saturatingStep]
  · simp [tickIfFading, hf, tickChannel, fadeStep_toNat]

/-- `j` ticks are one saturating step of `j * FADE_STEP` (R175). -/
theorem iterate_tickIfFading_cur (cfg : Config) (j : Nat) {ch : Channel} (h : ch.RestsAtTarget) :
    ((tickIfFading cfg)^[j] ch).cur.toNat =
      saturatingStep (j * cfg.fadeStep.toNat) ch.cur.toNat ch.tgt.toNat := by
  induction j generalizing ch with
  | zero => simp
  | succ j ih =>
    rw [Function.iterate_succ_apply, ih (h.tick cfg), tickIfFading_cur cfg h, tickIfFading_tgt,
      saturatingStep_saturatingStep, Nat.succ_mul, Nat.add_comm]

/-- The rounded-up quotient of the distance by the step is the least number of steps that cover the distance (R175). -/
theorem ceilTicks_le_iff {a z f : Nat} (hf : 1 ≤ f) (j : Nat) :
    ((max a z - min a z) + f - 1) / f ≤ j ↔ Nat.dist a z ≤ j * f := by
  have hdist : max a z - min a z = Nat.dist a z := by
    unfold Nat.dist
    omega
  rw [hdist, ← Nat.ceilDiv_eq_add_pred_div, ceilDiv_le_iff_le_mul hf, Nat.mul_comm]

/-- One more tick after `j` ticks makes `j + 1` ticks of the channel. -/
theorem chan_of_tick_after_ticks {j : Nat} {s t u : State} {ch : ChannelField} (hn : ch.toNat < s.cfg.n)
    (hlen : ch.toNat < s.chans.length) (ht : execAll (List.replicate j (.tick ch)) s = .next t)
    (hu : exec (.tick ch) t = .next u) : u.chan ch.toNat = (tickIfFading s.cfg)^[j + 1] (s.chan ch.toNat) := by
  obtain ⟨v, hv, hchan⟩ := execAll_replicate_tick (j + 1) s hn hlen
  rw [List.replicate_succ', execAll_append _ ht] at hv
  simp only [execAll, hu] at hv
  cases hv
  exact hchan

/-- Settles O29: after `j` ticks the level is one step of `j * FADE_STEP` on, which reaches the target exactly when it covers the
distance; one step more, short of the target, gets strictly closer. -/
theorem fadeConvergesInExactlyCeilTicks : Obligations.FadeConvergesInExactlyCeilTicks := by
  intro s ch hlen hch hstep a z f k hfading hoff j
  obtain ⟨t, ht, hchan⟩ := execAll_replicate_tick j s hch (hlen ▸ hch)
  have hmoves : (s.chan ch.toNat).cur ≠ (s.chan ch.toNat).tgt := fun h => hoff (congrArg BitVec.toNat h)
  have hfades : (s.chan ch.toNat).FadesWhileOffTarget := hfading.trans (decide_eq_true hmoves).symm
  have hrests := hfades.restsAtTarget
  have htgt : (t.chan ch.toNat).tgt = (s.chan ch.toNat).tgt := by rw [hchan, iterate_tickIfFading_tgt]
  have hcur : (t.chan ch.toNat).cur.toNat = saturatingStep (j * f) a z := by
    rw [hchan, iterate_tickIfFading_cur _ _ hrests]
  have hreach : (t.chan ch.toNat).cur = (t.chan ch.toNat).tgt ↔ k ≤ j := by
    rw [htgt, hchan, iterate_tickIfFading_at_target_iff _ _ hrests]
    exact (ceilTicks_le_iff hstep j).symm
  refine ⟨t, ht, htgt, hcur.trans (saturatingStep_eq_ite _ _ _), hreach, ?_, fun hj u hu => ?_⟩
  · have hfadesNow : (t.chan ch.toNat).FadesWhileOffTarget := hchan ▸ hfades.iterate_tick s.cfg j
    rw [hfadesNow, decide_eq_decide, ne_eq, hreach, Nat.not_le]
  · have hnext : (u.chan ch.toNat).cur.toNat = saturatingStep ((j + 1) * f) a z := by
      rw [chan_of_tick_after_ticks hch (hlen ▸ hch) ht hu, iterate_tickIfFading_cur _ _ hrests]
    have hshort : j * f < Nat.dist a z := Nat.not_le.1 (mt (ceilTicks_le_iff hstep j).2 (Nat.not_le.2 hj))
    rw [hcur, hnext]
    exact saturatingStep_strict (Nat.mul_lt_mul_of_pos_right (Nat.lt_succ_self j) hstep) hshort

end Sys2Proof.Machine

/-! PROOFS. POLL as a command (R190): a raw change that the resolver accepts is a resolve and a retarget, every other poll only records
the level. -/

namespace Sys2Proof.Machine

open Sys2Proof

/-! ### One poll of a channel -/

/-- Both cases of a retarget as one record: a target that stays neither starts nor ends a fade (R170). -/
theorem retargetChannel_eq (cfg : Config) (on : Bool) (ch : Channel) :
    retargetChannel cfg on ch =
      { ch with tgt := targetLevel cfg on, fading := ch.fading || decide (targetLevel cfg on ≠ ch.tgt) } := by
  rcases retarget_cases cfg on ch with ⟨hsame, h⟩ | ⟨hchange, h⟩
  · rw [h]
    simp [hsame]
  · rw [h]
    simp [hchange]

theorem resolveAndRetarget_of_accepts {cfg : Config} {raw : Level} {now : Timestamp} {ch : Channel}
    (h : resolverAccepts cfg raw now ch = true) :
    resolveAndRetarget cfg raw now ch = retargetChannel cfg (logicalOpen ch raw)
      { ch with lastTrig := now, tsValid := true, doorOpen := logicalOpen ch raw } := by
  simp only [resolveAndRetarget, resolveResult, resolveChannel, h, if_true]

theorem resolveAndRetarget_of_ignores {cfg : Config} {raw : Level} {now : Timestamp} {ch : Channel}
    (h : resolverAccepts cfg raw now ch = false) : resolveAndRetarget cfg raw now ch = ch := by
  simp [resolveAndRetarget, resolveResult, resolveChannel, h]

/-- What a poll can do: resolve a raw change that the resolver accepts, and retarget, or only record the level (R190). -/
theorem poll_cases (cfg : Config) (raw : Level) (now : Timestamp) (ch : Channel) :
    ((raw ≠ ch.lastRaw ∧ resolverAccepts cfg raw now ch = true) ∧
      pollResult cfg raw now ch = some (logicalOpen ch raw) ∧
      pollChannel cfg raw now ch = { ch with
        lastTrig := now, tsValid := true, doorOpen := logicalOpen ch raw
        tgt := targetLevel cfg (logicalOpen ch raw)
        fading := ch.fading || decide (targetLevel cfg (logicalOpen ch raw) ≠ ch.tgt), lastRaw := raw }) ∨
    ((raw = ch.lastRaw ∨ resolverAccepts cfg raw now ch = false) ∧
      pollResult cfg raw now ch = none ∧ pollChannel cfg raw now ch = { ch with lastRaw := raw }) := by
  unfold pollResult pollChannel
  by_cases hraw : raw = ch.lastRaw
  · exact .inr ⟨.inl hraw, if_pos hraw, by rw [if_pos hraw]⟩
  · rw [if_neg hraw, if_neg hraw]
    rcases resolve_cases cfg raw now ch with ⟨haccepts, hresult, -⟩ | ⟨hignores, hresult, -⟩
    · exact .inl ⟨⟨hraw, haccepts⟩, hresult, by rw [resolveAndRetarget_of_accepts haccepts, retargetChannel_eq]⟩
    · exact .inr ⟨.inr hignores, hresult, by rw [resolveAndRetarget_of_ignores hignores]⟩

/-! ### POLL as a command -/

theorem exec_poll (s : State) {ch : ChannelField} {now : Timestamp} (raw : Level) (hch : ch.toNat < s.cfg.n)
    (hnow : now.toNat < 2 ^ s.cfg.tsW) :
    exec (.poll ch raw now) s = .next ((s.setChan ch.toNat (pollChannel s.cfg raw now (s.chan ch.toNat))).respond
      (resolveCode (pollResult s.cfg raw now (s.chan ch.toNat)))) := by
  simp [exec, execPoll, withTime, withChannel, hch, hnow]

/-- An accepted raw change writes the latch, the door state, the target with its fade, and the level polled (R190). -/
theorem exec_poll_of_accepts {s : State} {ch : ChannelField} {raw : Level} {now : Timestamp} (hch : ch.toNat < s.cfg.n)
    (hnow : now.toNat < 2 ^ s.cfg.tsW) (hraw : raw ≠ (s.chan ch.toNat).lastRaw)
    (h : resolverAccepts s.cfg raw now (s.chan ch.toNat) = true) :
    exec (.poll ch raw now) s = .next ((s.setChan ch.toNat { s.chan ch.toNat with
      lastTrig := now, tsValid := true, doorOpen := logicalOpen (s.chan ch.toNat) raw
      tgt := targetLevel s.cfg (logicalOpen (s.chan ch.toNat) raw)
      fading := (s.chan ch.toNat).fading ||
        decide (targetLevel s.cfg (logicalOpen (s.chan ch.toNat) raw) ≠ (s.chan ch.toNat).tgt)
      lastRaw := raw }).respond (if logicalOpen (s.chan ch.toNat) raw then 3 else 2)) := by
  rcases poll_cases s.cfg raw now (s.chan ch.toNat) with ⟨-, hresult, hchan⟩ | ⟨hsame | hignores, -⟩
  · rw [exec_poll s raw hch hnow, hresult, hchan, resolveCode_some]
  · exact absurd hsame hraw
  · exact absurd (h.symm.trans hignores) (by decide)

/-- A repeated level, and a change that the resolver ignores, are only recorded, and answer none (R190). -/
theorem exec_poll_of_ignores {s : State} {ch : ChannelField} {raw : Level} {now : Timestamp} (hch : ch.toNat < s.cfg.n)
    (hnow : now.toNat < 2 ^ s.cfg.tsW)
    (h : raw = (s.chan ch.toNat).lastRaw ∨ resolverAccepts s.cfg raw now (s.chan ch.toNat) = false) :
    exec (.poll ch raw now) s =
      .next ((s.setChan ch.toNat { s.chan ch.toNat with lastRaw := raw }).respond 0) := by
  rcases poll_cases s.cfg raw now (s.chan ch.toNat) with ⟨⟨hraw, haccepts⟩, -⟩ | ⟨-, hresult, hchan⟩
  · rcases h with hsame | hignores
    · exact absurd hsame hraw
    · exact absurd (haccepts.symm.trans hignores) (by decide)
  · rw [exec_poll s raw hch hnow, hresult, hchan]
    rfl

/-- Settles O33: a raw change outside the window at a new door state's level is accepted, every other poll only records the level. -/
theorem pollResolvesOnlyARawChange : Obligations.PollResolvesOnlyARawChange := by
  intro s ch raw now hch hnow old rejected opened target
  have hopened : logicalOpen old raw = opened := logicalOpen_eq old raw
  have hrejected : debounceRejects s.cfg old now = true ↔ rejected := debounceRejects_iff s.cfg old now
  constructor
  · intro hraw hwindow hnew
    have haccepts : resolverAccepts s.cfg raw now old = true :=
      (resolverAccepts_iff _ _ _ _).2 ⟨Bool.eq_false_iff.2 (hwindow ∘ hrejected.1), hopened ▸ hnew⟩
    have htarget : targetLevel s.cfg opened = target := rfl
    rw [← htarget, ← hopened]
    exact exec_poll_of_accepts hch hnow hraw haccepts
  · intro h
    have hignores : rejected ∨ opened = old.doorOpen → resolverAccepts s.cfg raw now old = false := fun h =>
      (resolverAccepts_eq_false_iff _ _ _ _).2 (h.imp hrejected.2 hopened.trans)
    exact exec_poll_of_ignores hch hnow (h.imp_right hignores)

end Sys2Proof.Machine

/-! PROOFS. The configuration and self-test commands: SETLED and SETSNS as one array command that rebinds, refuses or rejects (R222,
R224, R232), and the part of the state that none of the seven commands writes (R230). -/

namespace Sys2Proof.Machine

open Sys2Proof

/-! ### SETLED and SETSNS as one array command -/

/-- A pin array handed to a loop of rebinds, `turn` for channel `c`: what SETLED and SETSNS have in common (R222, R224). -/
def rebindAll (pins : List Pin) (turn : Nat → State → State) (s : State) : State :=
  withPins pins s fun s => if pinsValid s.cfg pins then (s.forChannels turn).respond 1 else s.respond 0

theorem exec_setled (pins : List Pin) (s : State) :
    exec (.setled pins) s = .next (rebindAll pins (rebindLedAt pins) s) := rfl

theorem exec_setsns (pins : List Pin) (s : State) :
    exec (.setsns pins) s = .next (rebindAll pins (rebindSensorAt pins) s) := rfl

theorem pinsValid_iff (cfg : Config) (pins : List Pin) :
    pinsValid cfg pins = true ↔ ∀ p ∈ pins, p.toNat ≤ cfg.pinMax.toNat := by
  simp [pinsValid, validPin]

/-- An array command rejects an array of another length than N, rebinds when every pin is valid, and else refuses (R97, R232). -/
theorem rebindAll_cases (pins : List Pin) (turn : Nat → State → State) (s : State) :
    (pins.length ≠ s.cfg.n ∧ rebindAll pins turn s = rejectCommand .reservedBits s) ∨
    (pins.length = s.cfg.n ∧ (∀ p ∈ pins, p.toNat ≤ s.cfg.pinMax.toNat) ∧
      rebindAll pins turn s = (s.forChannels turn).respond 1) ∨
    (pins.length = s.cfg.n ∧ (∃ p ∈ pins, s.cfg.pinMax.toNat < p.toNat) ∧ rebindAll pins turn s = s.respond 0) := by
  rcases withPins_cases pins s fun s =>
    if pinsValid s.cfg pins then (s.forChannels turn).respond 1 else s.respond 0 with ⟨hlen, e⟩ | ⟨hlen, e⟩
  · by_cases hvalid : pinsValid s.cfg pins = true
    · exact .inr (.inl ⟨hlen, (pinsValid_iff _ _).1 hvalid, e.trans (if_pos hvalid)⟩)
    · have hbad : ∃ p ∈ pins, s.cfg.pinMax.toNat < p.toNat := by simpa [pinsValid_iff] using hvalid
      exact .inr (.inr ⟨hlen, hbad, e.trans (if_neg hvalid)⟩)
  · exact .inl ⟨hlen, e⟩

/-- One invalid pin among N and the array command only responds 0, whatever its rebinds would do (R232). -/
theorem rebindAll_of_invalid {pins : List Pin} {s : State} (turn : Nat → State → State) (hlen : pins.length = s.cfg.n)
    (hbad : ∃ p ∈ pins, s.cfg.pinMax.toNat < p.toNat) : rebindAll pins turn s = s.respond 0 := by
  obtain ⟨p, hp, habove⟩ := hbad
  rcases rebindAll_cases pins turn s with ⟨hne, -⟩ | ⟨-, hvalid, -⟩ | ⟨-, -, e⟩
  · exact absurd hlen hne
  · exact absurd (hvalid p hp) (Nat.not_le.2 habove)
  · exact e

/-- Settles O45: both commands are the array command, which refuses the array before any rebind. -/
theorem oneInvalidPinRefusesTheWholeArray : Obligations.OneInvalidPinRefusesTheWholeArray := by
  intro s pins hlen hbad
  rw [exec_setled, exec_setsns, rebindAll_of_invalid _ hlen hbad, rebindAll_of_invalid _ hlen hbad]
  exact ⟨rfl, rfl⟩

/-! ### What configuration never writes -/

/-- The elements of a channel that R230 names: its level, its target, `FADING` and its door state. -/
def Channel.fadeAndDoor (ch : Channel) : Intensity × Intensity × Bool × Bool := (ch.cur, ch.tgt, ch.fading, ch.doorOpen)

/-- The part of the state that R230 names: the latch, and the fade and door state of every channel. -/
def State.lampView (s : State) : BitVec 32 × (Nat → Intensity × Intensity × Bool × Bool) :=
  (s.pending, fun c => (s.chan c).fadeAndDoor)

theorem lampView_eq_iff (s t : State) :
    t.lampView = s.lampView ↔ t.pending = s.pending ∧
      ∀ c, (t.chan c).cur = (s.chan c).cur ∧ (t.chan c).tgt = (s.chan c).tgt ∧
        (t.chan c).fading = (s.chan c).fading ∧ (t.chan c).doorOpen = (s.chan c).doorOpen := by
  simp only [State.lampView, Channel.fadeAndDoor, Prod.mk.injEq, funext_iff]

@[simp] theorem respond_lampView (v : Word) (s : State) : (s.respond v).lampView = s.lampView := rfl

@[simp] theorem rejectCommand_lampView (r : Rejection) (s : State) : (rejectCommand r s).lampView = s.lampView := rfl

/-- A write of a channel that keeps the channel's fade and door state keeps the view. -/
theorem setChan_lampView {s : State} {c : Nat} {ch : Channel} (h : ch.fadeAndDoor = (s.chan c).fadeAndDoor) :
    (s.setChan c ch).lampView = s.lampView := by
  refine Prod.ext rfl (funext fun d => ?_)
  change ((s.setChan c ch).chan d).fadeAndDoor = (s.chan d).fadeAndDoor
  rw [chan_setChan]
  split
  next hcd => rw [← hcd.1, h]
  next => rfl

@[simp] theorem dutyWrite_lampView (c : Nat) (v : Intensity) (s : State) : (dutyWrite c v s).lampView = s.lampView :=
  setChan_lampView (s := s) rfl

@[simp] theorem pulse_lampView (c : Nat) (s : State) : (pulse c s).lampView = s.lampView :=
  dutyWrite_lampView c _ (emit (.pulse c) s)

/-! ### The turns of the configuration loops -/

theorem rebindLedAt_lampView (pins : List Pin) (c : Nat) (s : State) : (rebindLedAt pins c s).lampView = s.lampView := by
  unfold rebindLedAt
  split
  · rfl
  · exact (pulse_lampView c _).trans (setChan_lampView rfl)

theorem rebindSensorAt_lampView (pins : List Pin) (c : Nat) (s : State) :
    (rebindSensorAt pins c s).lampView = s.lampView := by
  unfold rebindSensorAt
  split
  · rfl
  · exact setChan_lampView rfl

theorem sweepAt_lampView (c : Nat) (s : State) : (sweepAt c s).lampView = s.lampView := by
  unfold sweepAt
  split <;> simp

/-! ### The commands -/

theorem rebindAll_lampView (pins : List Pin) {turn : Nat → State → State}
    (hturn : ∀ c t, (turn c t).lampView = t.lampView) (s : State) : (rebindAll pins turn s).lampView = s.lampView := by
  rcases rebindAll_cases pins turn s with ⟨-, e⟩ | ⟨-, -, e⟩ | ⟨-, -, e⟩ <;> rw [e]
  · exact rejectCommand_lampView _ s
  · exact forChannels_preserves State.lampView s turn hturn
  · exact respond_lampView 0 s

theorem execSetpol_lampView (pol : Word) (s : State) :
    ∃ t, exec (.setpol pol) s = .next t ∧ t.lampView = s.lampView := by
  refine ⟨_, rfl, ?_⟩
  rcases withPolarity_cases pol s fun s =>
    (s.forChannels fun c t => t.setChan c { t.chan c with activeLow := pol.getLsbD c }).respond 0
    with ⟨-, e⟩ | ⟨-, e⟩ <;> rw [e]
  · exact forChannels_preserves State.lampView s _ fun _ _ => setChan_lampView rfl
  · exact rejectCommand_lampView _ s

/-- Each of the seven commands completes, and with the view as it was (R230). -/
theorem exec_configuration_lampView {i : Instr} (s : State)
    (hi : i.opcode ∈ [Opcode.setled, .setsns, .setpol, .setpoll, .getpoll, .isinit, .stest]) :
    ∃ t, exec i s = .next t ∧ t.lampView = s.lampView := by
  cases i with
  | reset | process | edge | gedge | drain | resolve | retarget | tick | poll => simp [Instr.opcode] at hi
  | isinit | getpoll | setpoll on => exact ⟨_, rfl, rfl⟩
  | setled pins => exact ⟨_, exec_setled pins s, rebindAll_lampView pins (rebindLedAt_lampView pins) s⟩
  | setsns pins => exact ⟨_, exec_setsns pins s, rebindAll_lampView pins (rebindSensorAt_lampView pins) s⟩
  | setpol pol => exact execSetpol_lampView pol s
  | stest => exact ⟨_, rfl, forChannels_preserves State.lampView s sweepAt sweepAt_lampView⟩

/-- Settles O48: every turn of every configuration loop keeps the latch and the fade and door state of all channels. -/
theorem configurationNeverTouchesFades : Obligations.ConfigurationNeverTouchesFades := by
  intro i s t hi hexec
  obtain ⟨u, hu, hview⟩ := exec_configuration_lampView s hi
  obtain rfl : u = t := Host.Outcome.next.inj (hu.symm.trans hexec)
  exact (lampView_eq_iff s u).1 hview

end Sys2Proof.Machine

/-! PROOFS. The output mux (R260, R261, R263): which channels a pin names on either side, the channel that drives it and the value it
shows. -/

namespace Sys2Proof.Machine

open Sys2Proof

/-! ### The channels a pin names -/

/-- A channel's bound pin `q` is valid and is `p`: then the validity is that of `p` itself (R8, R37). -/
theorem bound_and_valid_iff (cfg : Config) (q p : Pin) :
    (validPin cfg q && q == p) = true ↔ q = p ∧ p.toNat ≤ cfg.pinMax.toNat := by
  rw [Bool.and_eq_true, beq_iff_eq, validPin, decide_eq_true_eq, and_comm]
  exact and_congr_right fun hpin => by rw [hpin]

theorem drivesPin_iff (s : State) (p : Pin) (c : Nat) :
    drivesPin s p c = true ↔ (s.chan c).ledPin = p ∧ p.toNat ≤ s.cfg.pinMax.toNat :=
  bound_and_valid_iff s.cfg (s.chan c).ledPin p

theorem sensesPin_iff (s : State) (p : Pin) (c : Nat) :
    sensesPin s p c = true ↔ (s.chan c).snsPin = p ∧ p.toNat ≤ s.cfg.pinMax.toNat :=
  bound_and_valid_iff s.cfg (s.chan c).snsPin p

/-! ### `Drive`, `Sense` and the duty a pin shows -/

theorem drive_eq_pwm_iff_find? (s : State) (p : Pin) (c : Nat) :
    drive s p = .pwm c ↔ (List.range s.cfg.n).find? (drivesPin s p) = some c := by
  unfold drive
  split <;> simp [*]

theorem drive_eq_none_iff_find? (s : State) (p : Pin) :
    drive s p = .none ↔ (List.range s.cfg.n).find? (drivesPin s p) = none := by
  unfold drive
  split <;> simp [*]

/-- The lowest-numbered channel bound to a valid pin drives it. On a valid pin every lower channel fails to drive it by its binding
alone, so the search's minimality is minimality among the bound channels (R260, R261). -/
theorem drive_eq_pwm_iff (s : State) (p : Pin) (c : Nat) :
    drive s p = .pwm c ↔
      c < s.cfg.n ∧ (s.chan c).ledPin = p ∧ p.toNat ≤ s.cfg.pinMax.toNat ∧ ∀ d < c, (s.chan d).ledPin ≠ p := by
  rw [drive_eq_pwm_iff_find?, List.find?_range_eq_some, List.mem_range, drivesPin_iff]
  simp only [Bool.not_eq_true', ← Bool.not_eq_true, drivesPin_iff, not_and]
  constructor
  · rintro ⟨⟨hpin, hvalid⟩, hc, hmin⟩
    exact ⟨hc, hpin, hvalid, fun d hd hd' => hmin d hd hd' hvalid⟩
  · rintro ⟨hc, hpin, hvalid, hmin⟩
    exact ⟨⟨hpin, hvalid⟩, hc, fun d hd hd' => absurd hd' (hmin d hd)⟩

theorem drive_eq_none_iff (s : State) (p : Pin) :
    drive s p = .none ↔ ∀ c < s.cfg.n, (s.chan c).ledPin = p → s.cfg.pinMax.toNat < p.toNat := by
  simp only [drive_eq_none_iff_find?, List.find?_eq_none, List.mem_range, drivesPin_iff, not_and, Nat.not_le]

theorem mem_sense_iff (s : State) (p : Pin) (c : Nat) :
    c ∈ sense s p ↔ c < s.cfg.n ∧ (s.chan c).snsPin = p ∧ p.toNat ≤ s.cfg.pinMax.toNat := by
  rw [sense, List.mem_filter, List.mem_range, sensesPin_iff]

theorem drive_eq_none_of_pinMax_lt {s : State} {p : Pin} (hp : s.cfg.pinMax.toNat < p.toNat) : drive s p = .none :=
  (drive_eq_none_iff s p).2 fun _ _ _ => hp

theorem sense_eq_nil_of_pinMax_lt {s : State} {p : Pin} (hp : s.cfg.pinMax.toNat < p.toNat) : sense s p = [] :=
  List.eq_nil_iff_forall_not_mem.2 fun c hmem =>
    have ⟨_, _, hvalid⟩ := (mem_sense_iff s p c).1 hmem
    Nat.not_le_of_lt hp hvalid

theorem pinDuty_of_drive_eq_pwm {s : State} {p : Pin} {c : Nat} (h : drive s p = .pwm c) :
    pinDuty s p = some (s.chan c).duty := by
  simp only [pinDuty, h]

theorem pinDuty_of_drive_eq_none {s : State} {p : Pin} (h : drive s p = .none) : pinDuty s p = none := by
  simp only [pinDuty, h]

/-- Settles O50: a valid pin is driven by the first channel bound to it and feeds the channels bound to it; an invalid pin neither. -/
theorem pinFunctionsFollowTheBindings : Obligations.PinFunctionsFollowTheBindings := fun s p =>
  ⟨drive_eq_pwm_iff s p, drive_eq_none_iff s p, mem_sense_iff s p,
    fun hp => ⟨drive_eq_none_of_pinMax_lt hp, sense_eq_nil_of_pinMax_lt hp⟩,
    fun _ => pinDuty_of_drive_eq_pwm, pinDuty_of_drive_eq_none⟩

end Sys2Proof.Machine

/-! PROOFS. Decoder and encoder as inverses (R90 to R101): the words of a well-formed command pass the decoder's three checks, and a
word sequence that passes them is put together again from the fields that the decoder reads. -/

namespace Sys2Proof

/-! ### From a command to its words and back -/

theorem decodeWords_cons (cfg : Config) (w0 : Word) (ops : List Word) :
    decodeWords cfg (w0 :: ops) = some (decode cfg w0 ops) := rfl

/-- A header made for an opcode and operand words that pass the three checks decode to the command made of the fields the header was
made of (R101). -/
theorem decode_header {cfg : Config} {o : Opcode} {ch : ChannelField} {b : Bool} {pin : Pin} {evm : BitVec 4}
    {ops : List Word} (hheader : header o ch b pin evm &&& o.format.legalMask = o.baseHeader)
    (hops : operandReserved cfg o.format ops = false) (hch : o.format.namesChannel = true → ch.toNat < cfg.n) :
    decode cfg (header o ch b pin evm) ops = .ok (instrOf cfg o (header o ch b pin evm) ops) :=
  decode_of_checks (opField_header ..) hheader hops (by rwa [chField_header])

theorem packTime_not_reserved {cfg : Config} {now : Timestamp} (h : now.toNat < 2 ^ cfg.tsW) :
    operandReserved cfg .cbt (packTime now) = false := by
  simpa [operandReserved] using h

/-- Settles O1: the encoder's header leaves every bit outside the free ones at its opcode's value and its operand words no
reserved bit set, so the three checks pass and the fields read their operands back. -/
theorem decodeInvertsEncode : Obligations.DecodeInvertsEncode := by
  intro cfg i _ hwf
  cases i with
  | reset | isinit | getpoll | stest | process | drain =>
    exact congrArg some (decode_header (header_legal _ _ _ _ _ (by simp [Opcode.format, Format.free])) rfl nofun)
  | setled pins | setsns pins =>
    have hlen : pins.length = cfg.n := by simpa [Instr.wf] using hwf
    simp only [encode, decodeWords_cons]
    rw [decode_header (header_legal _ _ _ _ _ (by simp [Opcode.format, Format.free]))
      (packPins_not_reserved cfg pins hlen) (by simp [Opcode.format, Format.namesChannel])]
    simp only [instrOf, ← hlen, pinsOf_packPins]
  | setpol pol =>
    have hpol : pol.toNat < 2 ^ cfg.n := by simpa [Instr.wf] using hwf
    exact congrArg some (decode_header (header_legal _ _ _ _ _ (by simp [Opcode.format, Format.free]))
      (by simpa [operandReserved, Opcode.format, polarityOf] using hpol) nofun)
  | setpoll on | gedge pin evm =>
    simp only [encode, decodeWords_cons]
    rw [decode_header (header_legal _ _ _ _ _ (by simp [Opcode.format, Format.free])) rfl
      (by simp [Opcode.format, Format.namesChannel])]
    simp [instrOf]
  | edge ch | tick ch | retarget ch on =>
    have hch : ch.toNat < cfg.n := by simpa [Instr.wf] using hwf
    simp only [encode, decodeWords_cons]
    rw [decode_header (header_legal _ _ _ _ _ (by simp [Opcode.format, Format.free])) rfl fun _ => hch]
    simp [instrOf]
  | resolve ch raw now | poll ch raw now =>
    obtain ⟨hnow, hch⟩ : now.toNat < 2 ^ cfg.tsW ∧ ch.toNat < cfg.n := by simpa [Instr.wf] using hwf
    simp only [encode, decodeWords_cons]
    rw [decode_header (header_legal _ _ _ _ _ (by simp [Opcode.format, Format.free])) (packTime_not_reserved hnow)
      fun _ => hch]
    simp [instrOf]

/-! ### From words to a command and back -/

/-- Bits outside the free ones that are zero in the opcode's header are zero in every legal one (R91, R98). -/
theorem and_eq_zero_of_legal {o : Opcode} {w : Word} (m : Word) (hlegal : w &&& o.format.legalMask = o.baseHeader)
    (hmask : o.format.legalMask &&& m = m) (hbase : o.baseHeader &&& m = 0) : w &&& m = 0 := by
  rw [← hmask, ← BitVec.and_assoc, hlegal, hbase]

/-- A legal header is put together again from its fields: the bits outside them are zero in every opcode's header (R90, R91). -/
theorem header_of_legal {o : Opcode} {w : Word} (hop : opField w = o.code)
    (hlegal : w &&& o.format.legalMask = o.baseHeader) :
    header o (chField w) (bField w) (pinField w) (evmField w) = w := by
  have hreserved : w &&& 0x001F00F0 = 0 :=
    and_eq_zero_of_legal _ hlegal (by cases o <;> rfl) (by cases o <;> rfl)
  apply BitVec.eq_of_getLsbD_eq
  intro i hi
  have hbit := congrArg (BitVec.getLsbD · i) hreserved
  simp only [BitVec.getLsbD_and] at hbit
  simp only [header, ← hop, chField, bField, pinField, evmField, opField, BitVec.getLsbD_append,
    BitVec.getLsbD_extractLsb']
  interval_cases i <;> simp at hbit ⊢ <;> simp [hbit]

theorem chField_eq_zero {w m : Word} (h : w &&& m = 0) (hm : chField m = BitVec.allOnes 5) : chField w = 0 := by
  have hfield : chField (w &&& m) = chField w &&& chField m := BitVec.extractLsb'_and
  rw [h, hm, BitVec.and_allOnes] at hfield
  exact hfield.symm

theorem bField_eq_false {w m : Word} (h : w &&& m = 0) (hm : bField m = true) : bField w = false := by
  have hfield : bField (w &&& m) = (bField w && bField m) := BitVec.getLsbD_and
  rw [h, hm, Bool.and_true] at hfield
  exact hfield.symm

theorem pinField_eq_zero {w m : Word} (h : w &&& m = 0) (hm : pinField m = BitVec.allOnes 8) : pinField w = 0 := by
  have hfield : pinField (w &&& m) = pinField w &&& pinField m := BitVec.extractLsb'_and
  rw [h, hm, BitVec.and_allOnes] at hfield
  exact hfield.symm

theorem evmField_eq_zero {w m : Word} (h : w &&& m = 0) (hm : evmField m = BitVec.allOnes 4) : evmField w = 0 := by
  have hfield : evmField (w &&& m) = evmField w &&& evmField m := BitVec.extractLsb'_and
  rw [h, hm, BitVec.and_allOnes] at hfield
  exact hfield.symm

/-- The slots of the operand words that stand for no channel are zero, so the words are packed from the pins read (R97). -/
theorem packPins_pinsOf {cfg : Config} {ops : List Word} (hlen : ops.length = pinWords cfg.n)
    (hops : operandReserved cfg .a8 ops = false) : packPins (pinsOf cfg.n ops) = ops := by
  have hslot : ∀ c < 4 * pinWords cfg.n, (pinsOf cfg.n ops).getD c 0 = pinSlot ops c := by
    intro c hc
    by_cases hcn : c < cfg.n
    · simp [pinsOf, List.getD_eq_getElem?_getD, hcn]
    · have hzero : pinSlot ops c = 0 := by
        simp only [operandReserved, List.any_eq_false, List.mem_range] at hops
        simpa [Nat.not_lt.1 hcn] using hops c hc
      simp [pinsOf, List.getD_eq_getElem?_getD, hcn, hzero]
  apply List.ext_getElem
  · simp [packPins, pinsOf, hlen]
  · intro k hk hk'
    have hword : ∀ j < 4, (pinsOf cfg.n ops).getD (4 * k + j) 0 = ops[k].extractLsb' (8 * j) 8 := by
      intro j hj
      rw [hslot _ (by omega), pinSlot, show (4 * k + j) / 4 = k by omega, show (4 * k + j) % 4 = j by omega]
      simp [List.getD_eq_getElem?_getD, hk']
    simp only [packPins, List.getElem_map, List.getElem_range]
    rw [hword 3 (by decide), hword 2 (by decide), hword 1 (by decide), ← Nat.add_zero (4 * k), hword 0 (by decide)]
    apply BitVec.eq_of_getLsbD_eq
    intro i hi
    simp only [BitVec.getLsbD_append, BitVec.getLsbD_extractLsb']
    interval_cases i <;> simp

theorem packTime_timeOf (lo hi : Word) : packTime (timeOf [lo, hi]) = [lo, hi] := by
  exact congrArg₂ (fun a b => [a, b]) BitVec.extractLsb'_append_eq_right BitVec.extractLsb'_append_eq_left

/-- The header the encoder writes for a decoded command is the one decoded: the fields its format does not have are zero in it. -/
theorem encode_instrOf_header {o : Opcode} {w0 : Word} (cfg : Config) (ops : List Word) (hop : opField w0 = o.code)
    (hlegal : w0 &&& o.format.legalMask = o.baseHeader) : (encode (instrOf cfg o w0 ops)).head? = some w0 := by
  have hw := header_of_legal hop hlegal
  cases o with
  | reset | isinit | getpoll | stest | process | drain | setled | setsns | setpol =>
    have hzero := and_eq_zero_of_legal 0x07E0FF0F hlegal rfl rfl
    rw [chField_eq_zero hzero rfl, bField_eq_false hzero rfl, pinField_eq_zero hzero rfl, evmField_eq_zero hzero rfl] at hw
    exact congrArg some hw
  | setpoll =>
    have hzero := and_eq_zero_of_legal 0x07C0FF0F hlegal rfl rfl
    rw [chField_eq_zero hzero rfl, pinField_eq_zero hzero rfl, evmField_eq_zero hzero rfl] at hw
    exact congrArg some hw
  | gedge =>
    have hzero := and_eq_zero_of_legal 0x07E00000 hlegal rfl rfl
    rw [chField_eq_zero hzero rfl, bField_eq_false hzero rfl] at hw
    exact congrArg some hw
  | edge | tick =>
    have hzero := and_eq_zero_of_legal 0x0020FF0F hlegal rfl rfl
    rw [bField_eq_false hzero rfl, pinField_eq_zero hzero rfl, evmField_eq_zero hzero rfl] at hw
    exact congrArg some hw
  | retarget =>
    have hzero := and_eq_zero_of_legal 0x0000FF0F hlegal rfl rfl
    rw [pinField_eq_zero hzero rfl, evmField_eq_zero hzero rfl] at hw
    exact congrArg some hw
  | resolve | poll =>
    have hzero := and_eq_zero_of_legal 0x0000FF0F hlegal rfl rfl
    rw [pinField_eq_zero hzero rfl, evmField_eq_zero hzero rfl] at hw
    simpa [instrOf, encode] using hw

/-- The operand words the encoder writes for a decoded command are the ones decoded. -/
theorem encode_instrOf_operands {cfg : Config} {o : Opcode} {ops : List Word} (w0 : Word)
    (hlen : ops.length = o.format.operandWords cfg) (hops : operandReserved cfg o.format ops = false) :
    (encode (instrOf cfg o w0 ops)).tail = ops := by
  cases o with
  | reset | isinit | getpoll | stest | process | drain | setpoll | edge | gedge | retarget | tick =>
    exact (List.eq_nil_of_length_eq_zero hlen).symm
  | setled | setsns => exact packPins_pinsOf hlen hops
  | setpol =>
    obtain ⟨pol, rfl⟩ := List.length_eq_one_iff.1 hlen
    rfl
  | resolve | poll =>
    obtain ⟨lo, hi, rfl⟩ := List.length_eq_two.1 hlen
    exact packTime_timeOf lo hi

/-- What the decoder's checks leave is well formed (R94, R97). -/
theorem instrOf_wf {cfg : Config} {o : Opcode} {w0 : Word} {ops : List Word}
    (hops : operandReserved cfg o.format ops = false)
    (hch : o.format.namesChannel = true → (chField w0).toNat < cfg.n) : (instrOf cfg o w0 ops).wf cfg = true := by
  cases o with
  | reset | isinit | getpoll | stest | process | drain | setpoll | gedge => rfl
  | setled | setsns => simp [instrOf, Instr.wf, wfPins, pinsOf]
  | setpol => simpa [instrOf, Instr.wf, operandReserved, Opcode.format] using hops
  | edge | retarget | tick => simpa [instrOf, Instr.wf] using hch rfl
  | resolve | poll =>
    have hnow : (timeOf ops).toNat < 2 ^ cfg.tsW := by simpa [operandReserved, Opcode.format] using hops
    simpa [instrOf, Instr.wf, hnow] using hch rfl

/-- Settles O2: the three checks passed, the command is well formed, and its encoding has the header and the operand words
decoded. -/
theorem encodeInvertsDecode : Obligations.EncodeInvertsDecode := by
  intro cfg w0 ops i _ hlen hdecode
  rcases decode_cases cfg w0 ops with ⟨_, e⟩ | ⟨o, ho, ⟨_, e⟩ | ⟨_, _, e⟩ | ⟨_, _, _, _, e⟩ | ⟨hlegal, hops, hch, e⟩⟩ <;>
    rw [hdecode] at e <;> cases e
  have hop : opField w0 = o.code := (code_of_opcodeOf ho).symm
  have hcount : ops.length = o.format.operandWords cfg := by simpa [operandCount, ho] using hlen
  have hwords := List.eq_cons_of_mem_head? (encode_instrOf_header cfg ops hop hlegal)
  rw [encode_instrOf_operands w0 hcount hops] at hwords
  exact ⟨instrOf_wf hops hch, hwords⟩

/-! ### The cause of a rejection -/

theorem opField_toNat (w : Word) : (opField w).toNat = w.toNat / 2 ^ 27 := by
  have hw := w.isLt
  rw [opField, BitVec.extractLsb'_toNat, Nat.shiftRight_eq_div_pow]
  omega

theorem chField_toNat (w : Word) : (chField w).toNat = w.toNat / 2 ^ 22 % 32 := by
  rw [chField, BitVec.extractLsb'_toNat, Nat.shiftRight_eq_div_pow]

theorem namesChannel_iff (f : Format) : f.namesChannel = true ↔ f = .c ∨ f = .cb ∨ f = .cbt := by
  cases f <;> simp [Format.namesChannel]

/-- The three checks on a header with an assigned opcode, each answer by the checks it stands for (R98, R101, R281). -/
theorem decode_rejected_iff {cfg : Config} {o : Opcode} {w0 : Word} (ops : List Word) (hop : opField w0 = o.code) :
    decode cfg w0 ops ≠ .rejected .illegalOp ∧
    (decode cfg w0 ops = .rejected .reservedBits ↔
      w0 &&& o.format.legalMask ≠ o.baseHeader ∨ operandReserved cfg o.format ops = true) ∧
    (decode cfg w0 ops = .rejected .badChannel ↔
      w0 &&& o.format.legalMask = o.baseHeader ∧ operandReserved cfg o.format ops = false ∧
        o.format.namesChannel = true ∧ cfg.n ≤ (chField w0).toNat) := by
  have ho : opcodeOf (opField w0) = some o := by rw [hop, opcodeOf_code]
  rcases decode_cases cfg w0 ops with ⟨hnone, -⟩ | ⟨o', ho', hchecks⟩
  · cases hnone.symm.trans ho
  · obtain rfl : o' = o := Option.some.inj (ho'.symm.trans ho)
    rcases hchecks with ⟨hheader, e⟩ | ⟨hheader, hops, e⟩ | ⟨hheader, hops, hnames, hch, e⟩ | ⟨hheader, hops, hch, e⟩
    · simp [e, hheader]
    · simp [e, hheader, hops]
    · simp [e, hheader, hops, hnames, hch]
    · simpa [e, hheader, hops] using hch

/-- Settles O3: each rejection is the first of the three checks that fails, and the checks read the fields the statement divides
out. -/
theorem rejectionNamesTheFirstCause : Obligations.RejectionNamesTheFirstCause := by
  intro cfg w0 ops
  simp only [← opField_toNat, ← chField_toNat, ← namesChannel_iff]
  refine ⟨?_, fun o ho => ?_⟩
  · rw [← opcodeOf_eq_none_iff]
    refine ⟨fun hdecode => ?_, decode_illegalOp⟩
    cases ho : opcodeOf (opField w0) with
    | none => rfl
    | some o =>
      obtain ⟨hassigned, -⟩ := decode_rejected_iff (cfg := cfg) ops (code_of_opcodeOf ho).symm
      exact absurd hdecode hassigned
  · obtain ⟨-, hreserved, hchannel⟩ := decode_rejected_iff (cfg := cfg) ops (BitVec.eq_of_toNat_eq ho)
    exact ⟨hreserved, hchannel⟩

end Sys2Proof

/-! PROOFS. What a command can do, said once: an ill-formed one is rejected for its first cause, a well-formed one has its effect
and responds. An effect writes the global elements that its row of R41's table marks, extends the trace, does not turn time back,
and takes each channel through turns of the command's kind. The statements about every command are read off from this. -/

namespace Sys2Proof.Machine

open Sys2Proof

/-! ### Rejection or effect -/

/-- The first cause that an ill-formed command is rejected for: a time before a channel (R97, R98, log 11). -/
def rejectionOf (cfg : Config) : Instr → Rejection
  | .edge _ | .tick _ | .retarget _ _ => .badChannel
  | .resolve _ _ now | .poll _ _ now => if now.toNat < 2 ^ cfg.tsW then .badChannel else .reservedBits
  | _ => .reservedBits

/-- The state that a well-formed command leaves before it responds. -/
def effect : Instr → State → State
  | .reset, s => resetSequence s
  | .isinit, s | .getpoll, s => s
  | .setled pins, s => if pinsValid s.cfg pins then s.forChannels (rebindLedAt pins) else s
  | .setsns pins, s => if pinsValid s.cfg pins then s.forChannels (rebindSensorAt pins) else s
  | .setpol pol, s => s.forChannels fun c t => t.setChan c { t.chan c with activeLow := pol.getLsbD c }
  | .setpoll on, s => { s with pollEn := on }
  | .stest, s => s.forChannels sweepAt
  | .process, s => processDrained s.pending (atomicClear s)
  | .edge ch, s => recordEdge ch.toNat s
  | .gedge pin _, s => recordPinEdge pin s
  | .drain, s => atomicClear s
  | .resolve ch raw now, s => s.setChan ch.toNat (resolveChannel s.cfg raw now (s.chan ch.toNat))
  | .retarget ch on, s => s.setChan ch.toNat (retargetChannel s.cfg on (s.chan ch.toNat))
  | .tick ch, s => tickAt ch.toNat s
  | .poll ch raw now, s => s.setChan ch.toNat (pollChannel s.cfg raw now (s.chan ch.toNat))

/-- An ill-formed command is rejected for its first cause. -/
theorem exec_of_not_wf {i : Instr} {s : State} (h : i.wf s.cfg = false) :
    exec i s = .next (rejectCommand (rejectionOf s.cfg i) s) := by
  cases i with
  | reset | isinit | getpoll | stest | process | drain | setpoll on | gedge pin evm => cases h
  | setled pins | setsns pins =>
    have hlen : ¬ pins.length = s.cfg.n := by simpa [Instr.wf] using h
    simp [exec, execSetled, execSetsns, withPins, hlen, rejectionOf]
  | setpol pol =>
    have hpol : ¬ pol.toNat < 2 ^ s.cfg.n := by simpa [Instr.wf] using h
    simp [exec, execSetpol, withPolarity, hpol, rejectionOf]
  | edge ch | tick ch | retarget ch on =>
    have hch : ¬ ch.toNat < s.cfg.n := by simpa [Instr.wf] using h
    simp [exec, execEdge, execTick, execRetarget, withChannel, hch, rejectionOf]
  | resolve ch raw now | poll ch raw now =>
    have hboth : now.toNat < 2 ^ s.cfg.tsW → ¬ ch.toNat < s.cfg.n := by simpa [Instr.wf] using h
    by_cases hnow : now.toNat < 2 ^ s.cfg.tsW
    · simp [exec, execResolve, execPoll, withTime, withChannel, hnow, hboth hnow, rejectionOf]
    · simp [exec, execResolve, execPoll, withTime, hnow, rejectionOf]

/-- A well-formed command has its effect and responds OK. -/
theorem exec_of_wf {i : Instr} {s : State} (h : i.wf s.cfg = true) :
    ∃ v, exec i s = .next ((effect i s).respond v) := by
  cases i with
  | reset | isinit | getpoll | stest | process | drain | setpoll on | gedge pin evm => exact ⟨_, rfl⟩
  | setled pins | setsns pins =>
    have hlen : pins.length = s.cfg.n := by simpa [Instr.wf] using h
    simp only [exec, execSetled, execSetsns, withPins, hlen, if_true, effect]
    split <;> exact ⟨_, rfl⟩
  | setpol pol =>
    have hpol : pol.toNat < 2 ^ s.cfg.n := by simpa [Instr.wf] using h
    simp only [exec, execSetpol, withPolarity, hpol, if_true]
    exact ⟨_, rfl⟩
  | edge ch =>
    have hch : ch.toNat < s.cfg.n := by simpa [Instr.wf] using h
    simp only [exec, execEdge, withChannel, hch, if_true]
    exact ⟨_, rfl⟩
  | tick ch => exact ⟨_, exec_tick s (by simpa [Instr.wf] using h)⟩
  | retarget ch on => exact ⟨_, exec_retarget s on (by simpa [Instr.wf] using h)⟩
  | resolve ch raw now =>
    obtain ⟨hnow, hch⟩ : now.toNat < 2 ^ s.cfg.tsW ∧ ch.toNat < s.cfg.n := by simpa [Instr.wf] using h
    exact ⟨_, exec_resolve s raw hch hnow⟩
  | poll ch raw now =>
    obtain ⟨hnow, hch⟩ : now.toNat < 2 ^ s.cfg.tsW ∧ ch.toNat < s.cfg.n := by simpa [Instr.wf] using h
    exact ⟨_, exec_poll s raw hch hnow⟩

/-- What a command can do: be rejected, or have its effect and respond. -/
theorem exec_cases (i : Instr) (s : State) :
    (i.wf s.cfg = false ∧ exec i s = .next (rejectCommand (rejectionOf s.cfg i) s)) ∨
    (i.wf s.cfg = true ∧ ∃ v, exec i s = .next ((effect i s).respond v)) := by
  cases h : i.wf s.cfg
  · exact .inl ⟨rfl, exec_of_not_wf h⟩
  · exact .inr ⟨rfl, exec_of_wf h⟩

/-- The same of a state that a command is known to leave. -/
theorem exec_next_cases {i : Instr} {s t : State} (h : exec i s = .next t) :
    (i.wf s.cfg = false ∧ t = rejectCommand (rejectionOf s.cfg i) s) ∨
    (i.wf s.cfg = true ∧ ∃ v, t = (effect i s).respond v) := by
  rcases exec_cases i s with ⟨hwf, e⟩ | ⟨hwf, v, e⟩ <;> cases h.symm.trans e
  · exact .inl ⟨hwf, rfl⟩
  · exact .inr ⟨hwf, v, rfl⟩

/-! ### One channel's turn -/

/-- A write of one channel by a command of the given opcode, as the operations of the model make it. The turns of PROCESS are
those of POLL, with a resolve that does not record the level, and of TICK; RESET may write anything. -/
inductive ChannelTurn (cfg : Config) : Opcode → Channel → Channel → Prop
  | reset (ch ch' : Channel) : ChannelTurn cfg .reset ch ch'
  | bindLed (p : Pin) (ch : Channel) : ChannelTurn cfg .setled ch { ch with ledPin := p }
  | pulse (ch : Channel) : ChannelTurn cfg .setled ch { ch with duty := ch.cur }
  | bindSensor (p : Pin) (ch : Channel) :
      ChannelTurn cfg .setsns ch { ch with snsPin := p, lastTrig := 0, tsValid := tsValidAtReset cfg }
  | polarity (b : Bool) (ch : Channel) : ChannelTurn cfg .setpol ch { ch with activeLow := b }
  | sweep (v : Intensity) (ch : Channel) (hv : v = cfg.wrap ∨ v = 0) : ChannelTurn cfg .stest ch { ch with duty := v }
  | resolve (raw : Level) {now : Timestamp} (ch : Channel) (hnow : now.toNat < 2 ^ cfg.tsW) :
      ChannelTurn cfg .resolve ch (resolveChannel cfg raw now ch)
  | retarget (on : Bool) (ch : Channel) : ChannelTurn cfg .retarget ch (retargetChannel cfg on ch)
  | tick {ch : Channel} (hfading : ch.fading = true) : ChannelTurn cfg .tick ch (tickChannel cfg ch)
  | sample (raw : Level) {now : Timestamp} (ch : Channel) (hnow : now.toNat < 2 ^ cfg.tsW) :
      ChannelTurn cfg .poll ch (resolveAndRetarget cfg raw now ch)
  | poll (raw : Level) {now : Timestamp} (ch : Channel) (hnow : now.toNat < 2 ^ cfg.tsW) :
      ChannelTurn cfg .poll ch (pollChannel cfg raw now ch)
  | processPoll {ch ch' : Channel} (h : ChannelTurn cfg .poll ch ch') : ChannelTurn cfg .process ch ch'
  | processTick {ch ch' : Channel} (h : ChannelTurn cfg .tick ch ch') : ChannelTurn cfg .process ch ch'

/-- Any number of such turns. -/
abbrev ChannelTurns (cfg : Config) (o : Opcode) : Channel → Channel → Prop := Relation.ReflTransGen (ChannelTurn cfg o)

/-! ### What the effect of an opcode can change -/

/-- From `s` to `t` as a command of opcode `o` may go before it responds. -/
structure Evolves (o : Opcode) (s t : State) : Prop where
  /-- The parameters stay. -/
  cfg : t.cfg = s.cfg
  /-- The latch is written by the commands of signal intake, PROCESS and RESET only (R24). -/
  pending : o ∉ [Opcode.edge, .gedge, .drain, .process, .reset] → t.pending = s.pending
  /-- The polling enable is written by SETPOLL and RESET only (R25). -/
  pollEn : o ∉ [Opcode.setpoll, .reset] → t.pollEn = s.pollEn
  /-- INIT is written by RESET only (R26). -/
  init : o ≠ .reset → t.init = s.init
  /-- No command that is performed sets ERR; RESET clears it (R27). -/
  err : o ≠ .reset → t.err = s.err
  /-- The responses stay until the command responds. -/
  responses : t.responses = s.responses
  /-- The recorded fault stays. -/
  faultMark : t.faultMark = s.faultMark
  /-- The position in the command stream stays. -/
  cpos : t.cpos = s.cpos
  /-- The command stream stays. -/
  cmds : t.cmds = s.cmds
  /-- The edge stream stays. -/
  edges : t.edges = s.edges
  /-- The turns of the agents stay. -/
  turns : t.turns = s.turns
  /-- The trace is extended. -/
  trace : s.trace <+: t.trace
  /-- Time does not go back. -/
  clock : s.clock ≤ t.clock
  /-- The number of channels stays. -/
  length : t.chans.length = s.chans.length
  /-- Each channel makes turns of the opcode. -/
  chans : ∀ c, ChannelTurns s.cfg o (s.chan c) (t.chan c)

theorem Evolves.refl (o : Opcode) (s : State) : Evolves o s s :=
  ⟨rfl, fun _ => rfl, fun _ => rfl, fun _ => rfl, fun _ => rfl, rfl, rfl, rfl, rfl, rfl, rfl, List.prefix_rfl, le_rfl, rfl,
    fun _ => .refl⟩

theorem Evolves.trans {o : Opcode} {s t u : State} (hst : Evolves o s t) (htu : Evolves o t u) : Evolves o s u where
  cfg := htu.cfg.trans hst.cfg
  pending h := (htu.pending h).trans (hst.pending h)
  pollEn h := (htu.pollEn h).trans (hst.pollEn h)
  init h := (htu.init h).trans (hst.init h)
  err h := (htu.err h).trans (hst.err h)
  responses := htu.responses.trans hst.responses
  faultMark := htu.faultMark.trans hst.faultMark
  cpos := htu.cpos.trans hst.cpos
  cmds := htu.cmds.trans hst.cmds
  edges := htu.edges.trans hst.edges
  turns := htu.turns.trans hst.turns
  trace := hst.trace.trans htu.trace
  clock := hst.clock.trans htu.clock
  length := htu.length.trans hst.length
  chans c := (hst.chans c).trans (hst.cfg ▸ htu.chans c)

theorem Evolves.forChannels {o : Opcode} (s : State) {f : Nat → State → State} (hf : ∀ c t, Evolves o t (f c t)) :
    Evolves o s (s.forChannels f) :=
  forChannels_induction (P := Evolves o s) s f (.refl o s) fun c t _ h => h.trans (hf c t)

/-- A write of one channel by a turn of the opcode. -/
theorem Evolves.setChan {o : Opcode} {s : State} {c : Nat} {ch : Channel} (h : ChannelTurn s.cfg o (s.chan c) ch) :
    Evolves o s (s.setChan c ch) where
  cfg := rfl
  pending _ := rfl
  pollEn _ := rfl
  init _ := rfl
  err _ := rfl
  responses := rfl
  faultMark := rfl
  cpos := rfl
  cmds := rfl
  edges := rfl
  turns := rfl
  trace := List.prefix_rfl
  clock := le_rfl
  length := List.length_set
  chans d := by
    rw [chan_setChan]
    split
    next hcd => exact hcd.1 ▸ .single h
    next => exact .refl

theorem Evolves.emit (o : Opcode) (e : Event) (s : State) : Evolves o s (emit e s) :=
  { Evolves.refl o s with trace := List.prefix_append _ _ }

theorem Evolves.dutyWrite {o : Opcode} {s : State} {c : Nat} {v : Intensity}
    (h : ChannelTurn s.cfg o (s.chan c) { s.chan c with duty := v }) : Evolves o s (dutyWrite c v s) :=
  (Evolves.setChan h).trans (.emit o _ _)

theorem Evolves.pulse {o : Opcode} {s : State} {c : Nat}
    (h : ChannelTurn s.cfg o (s.chan c) { s.chan c with duty := (s.chan c).cur }) : Evolves o s (pulse c s) :=
  (Evolves.emit o (.pulse c) s).trans (.dutyWrite (s := Machine.emit (.pulse c) s) h)

/-! ### The draws and the sampled turns -/

theorem readTime_lt (s : State) : (readTime s).toNat < 2 ^ s.cfg.tsW := by
  have hmod := Nat.mod_lt (nextClock s) (Nat.two_pow_pos s.cfg.tsW)
  rw [readTime, BitVec.toNat_ofNat]
  exact (Nat.mod_le _ _).trans_lt hmod

theorem Evolves.afterSample (o : Opcode) (s : State) : Evolves o s (afterSample s) := by
  unfold Machine.afterSample
  split
  · exact { Evolves.refl o s with }
  · exact { Evolves.refl o s with }

theorem Evolves.afterReadTime (o : Opcode) (s : State) : Evolves o s (afterReadTime s) := by
  unfold Machine.afterReadTime
  split
  · exact { Evolves.refl o s with clock := clock_le_nextClock s }
  · exact { Evolves.refl o s with clock := clock_le_nextClock s }

theorem Evolves.withSample {o : Opcode} {f : Config → Level → Timestamp → Channel → Channel}
    (hf : ∀ cfg raw now ch, now.toNat < 2 ^ cfg.tsW → ChannelTurn cfg o ch (f cfg raw now ch)) (c : Nat) (s : State) :
    Evolves o s (withSample f c s) := by
  have hdraws := (Evolves.afterSample o s).trans (.afterReadTime o _)
  have hnow := readTime_lt (Machine.afterSample s)
  rw [afterSample_cfg] at hnow
  rw [withSample_eq]
  refine hdraws.trans (.setChan ?_)
  simpa using hf s.cfg _ _ (s.chan c) hnow

theorem Evolves.tickAt (c : Nat) (s : State) : Evolves .tick s (tickAt c s) := by
  unfold Machine.tickAt
  split
  next hfading => exact (Evolves.setChan (.tick hfading)).trans (.emit _ _ _)
  next => exact .refl _ s

/-! ### The phases of PROCESS -/

/-- Phases 1 and 2 of PROCESS, the ones that sample, take each channel through turns of a poll (R201). -/
theorem Evolves.samplingPhases (m : BitVec 32) (s : State) : Evolves .poll s (pollPath (edgePath m s)) := by
  have hedge : Evolves .poll s (edgePath m s) := .forChannels s fun c t => by
    unfold edgePathAt
    split
    · exact .withSample (fun cfg raw now ch => .sample raw ch) c t
    · exact .refl _ t
  refine hedge.trans ?_
  unfold pollPath
  split
  · refine .forChannels _ fun c t => ?_
    unfold pollPathAt
    split
    · exact .withSample (fun cfg raw now ch => .poll raw ch) c t
    · exact .refl _ t
  · exact .refl _ _

theorem Evolves.fadePath (s : State) : Evolves .tick s (fadePath s) := .forChannels s Evolves.tickAt

/-- What a part of PROCESS may change, PROCESS may. -/
theorem Evolves.process {o : Opcode} (ho : o = .poll ∨ o = .tick) {s t : State} (h : Evolves o s t) :
    Evolves .process s t := by
  have hturn : ∀ ch ch', ChannelTurn s.cfg o ch ch' → ChannelTurn s.cfg .process ch ch' := by
    rcases ho with rfl | rfl
    · exact fun _ _ => .processPoll
    · exact fun _ _ => .processTick
  have hne : o ∉ [Opcode.setpoll, .reset] ∧ o ≠ .reset := by rcases ho with rfl | rfl <;> decide
  exact { h with
    pending := fun hp => absurd (by decide) hp
    pollEn := fun _ => h.pollEn hne.1
    init := fun _ => h.init hne.2
    err := fun _ => h.err hne.2
    chans := fun c => Relation.ReflTransGen.mono hturn _ _ (h.chans c) }

theorem Evolves.processDrained (m : BitVec 32) (s : State) : Evolves .process s (processDrained m s) :=
  ((samplingPhases m s).process (.inl rfl)).trans ((fadePath _).process (.inr rfl))

/-! ### The effect of every command -/

theorem Evolves.resetSequence (s : State) : Evolves .reset s (resetSequence s) := by
  have hclear : Evolves .reset s { s with pending := 0, pollEn := false, err := false } :=
    { Evolves.refl .reset s with
      pending := fun h => absurd (by decide) h, pollEn := fun h => absurd (by decide) h, err := fun h => absurd rfl h }
  have hresets : ∀ t : State, Evolves .reset t (t.forChannels resetChannelAt) := fun t => .forChannels t fun c u =>
    (Evolves.setChan (.reset _ _)).trans (.dutyWrite (.reset _ _))
  have hpulses : ∀ t : State, Evolves .reset t (t.forChannels pulseIfFunctional) := fun t => .forChannels t fun c u => by
    unfold pulseIfFunctional
    split
    · exact .pulse (.reset _ _)
    · exact .refl _ u
  have hloops := (hclear.trans (hresets _)).trans (hpulses _)
  exact { hloops with init := fun h => absurd rfl h }

theorem Evolves.rebindLedAt (pins : List Pin) (c : Nat) (s : State) : Evolves .setled s (rebindLedAt pins c s) := by
  unfold Machine.rebindLedAt
  split
  · exact .refl _ s
  · exact (Evolves.setChan (.bindLed _ _)).trans (.pulse (.pulse _))

theorem Evolves.rebindSensorAt (pins : List Pin) (c : Nat) (s : State) : Evolves .setsns s (rebindSensorAt pins c s) := by
  unfold Machine.rebindSensorAt
  split
  · exact .refl _ s
  · exact .setChan (.bindSensor _ _)

theorem Evolves.sweepAt (c : Nat) (s : State) : Evolves .stest s (sweepAt c s) := by
  unfold Machine.sweepAt
  split
  · exact (Evolves.dutyWrite (.sweep _ _ (.inl rfl))).trans (.dutyWrite (.sweep _ _ (.inr rfl)))
  · exact .refl _ s

/-- A change of the latch alone, by a command that may write it. -/
theorem Evolves.latch {o : Opcode} (ho : o ∈ [Opcode.edge, .gedge, .drain, .process, .reset]) (s : State) (p : BitVec 32) :
    Evolves o s { s with pending := p } :=
  { Evolves.refl o s with pending := fun h => absurd ho h }

/-- The effect of a well-formed command is one its opcode may have. -/
theorem effect_evolves {i : Instr} {s : State} (hwf : i.wf s.cfg = true) : Evolves i.opcode s (effect i s) := by
  cases i with
  | reset => exact .resetSequence s
  | isinit | getpoll => exact .refl _ s
  | setled pins =>
    simp only [effect]
    split
    · exact .forChannels s (Evolves.rebindLedAt pins)
    · exact .refl _ s
  | setsns pins =>
    simp only [effect]
    split
    · exact .forChannels s (Evolves.rebindSensorAt pins)
    · exact .refl _ s
  | setpol pol => exact .forChannels s fun c t => .setChan (.polarity _ _)
  | setpoll on => exact { Evolves.refl _ s with pollEn := fun h => absurd (by simp [Instr.opcode]) h }
  | stest => exact .forChannels s Evolves.sweepAt
  | process => exact (Evolves.latch (by decide) s 0).trans (.processDrained _ _)
  | edge ch => exact .latch (by simp [Instr.opcode]) s _
  | gedge pin evm =>
    simp only [effect, recordPinEdge_eq]
    exact .latch (by simp [Instr.opcode]) s _
  | drain => exact .latch (by decide) s 0
  | resolve ch raw now =>
    obtain ⟨hnow, -⟩ : now.toNat < 2 ^ s.cfg.tsW ∧ ch.toNat < s.cfg.n := by simpa [Instr.wf] using hwf
    exact .setChan (.resolve raw _ hnow)
  | retarget ch on => exact .setChan (.retarget on _)
  | tick ch => exact .tickAt _ s
  | poll ch raw now =>
    obtain ⟨hnow, -⟩ : now.toNat < 2 ^ s.cfg.tsW ∧ ch.toNat < s.cfg.n := by simpa [Instr.wf] using hwf
    exact .setChan (.poll raw _ hnow)

end Sys2Proof.Machine

/-! PROOFS. What every command keeps: the statements that are read off from what a command can do. Its response and ERR (R61,
R99), its rejections (R94, R97), the elements it writes (R41), the machine's invariant (R38, R39), and the record (R43). -/

namespace Sys2Proof.Machine

open Sys2Proof

/-! ### Responses and rejections -/

/-- A command that is performed leaves ERR as it was, but for RESET, which clears it (R27, R282). -/
theorem effect_err {i : Instr} {s : State} (hwf : i.wf s.cfg = true) :
    (effect i s).err = (s.err && decide (i ≠ .reset)) := by
  by_cases hi : i = .reset
  · subst hi
    have hloops : (resetSequence s).err = false :=
      (forChannels_preserves State.err _ _ fun c t => by unfold pulseIfFunctional; split <;> rfl).trans
        (forChannels_preserves State.err _ _ fun _ _ => rfl)
    simpa [effect] using hloops
  · have hop : i.opcode ≠ .reset := by cases i <;> simp_all [Instr.opcode]
    simp [(effect_evolves hwf).err hop, hi]

/-- Settles O13: a rejection responds with the value 0 and sets ERR; an effect leaves the responses, ERR and the recorded fault,
and the one response OK follows it. -/
theorem everyCommandRespondsOnce : Obligations.EveryCommandRespondsOnce := by
  intro i s
  rcases exec_cases i s with ⟨-, e⟩ | ⟨hwf, v, e⟩
  · exact ⟨_, ⟨.rejected _, 0⟩, e, rfl, fun _ => ⟨rfl, rfl⟩, nofun⟩
  · have heffect := effect_evolves hwf
    exact ⟨_, ⟨.ok, v⟩, e, by rw [respond_responses, heffect.responses], fun h => absurd rfl h,
      fun _ => ⟨effect_err hwf, heffect.faultMark⟩⟩

/-- The first cause is the channel exactly where the command names one and no time has a reserved bit set (R98). -/
theorem rejectionOf_eq_badChannel_iff (cfg : Config) (i : Instr) :
    rejectionOf cfg i = .badChannel ↔
      (∃ ch, i = .edge ch ∨ i = .tick ch) ∨ (∃ ch on, i = .retarget ch on) ∨
      (∃ ch raw now, (i = .resolve ch raw now ∨ i = .poll ch raw now) ∧ now.toNat < 2 ^ cfg.tsW) := by
  cases i <;> simp [rejectionOf]

theorem rejectionOf_cases (cfg : Config) (i : Instr) :
    rejectionOf cfg i = .reservedBits ∨ rejectionOf cfg i = .badChannel := by
  cases i with
  | resolve ch raw now | poll ch raw now => by_cases hnow : now.toNat < 2 ^ cfg.tsW <;> simp [rejectionOf, hnow]
  | _ => simp [rejectionOf]

/-- Settles O14: the rejection is for the first cause. -/
theorem illFormedOperandsAreRejected : Obligations.IllFormedOperandsAreRejected := fun i s hwf =>
  ⟨rejectionOf s.cfg i, exec_of_not_wf hwf, rejectionOf_eq_badChannel_iff s.cfg i, rejectionOf_cases s.cfg i⟩

/-- Settles O15: the five commands are ill-formed on such a channel, and their first cause is the channel. -/
theorem channelAtOrAboveNIsRejected : Obligations.ChannelAtOrAboveNIsRejected := by
  intro s ch hch rejected
  have hreject : ∀ i : Instr, i.wf s.cfg = false → rejectionOf s.cfg i = .badChannel → exec i s = .next rejected :=
    fun i hwf hcause => by rw [exec_of_not_wf hwf, hcause]; rfl
  have hbad : ¬ ch.toNat < s.cfg.n := Nat.not_lt.2 hch
  refine ⟨hreject _ ?_ rfl, hreject _ ?_ rfl, fun on => hreject _ ?_ rfl, fun raw now hnow =>
    ⟨hreject _ ?_ (if_pos hnow), hreject _ ?_ (if_pos hnow)⟩⟩ <;> simp [Instr.wf, hbad]

/-! ### The elements a command writes -/

/-- From `ch` to `ch'` only the elements of a channel that the opcode's row of R41's table marks have changed. -/
structure Channel.WritesOnly (o : Opcode) (ch ch' : Channel) : Prop where
  ledPin : o ∉ [Opcode.setled, .reset] → ch'.ledPin = ch.ledPin
  snsPin : o ∉ [Opcode.setsns, .reset] → ch'.snsPin = ch.snsPin
  activeLow : o ∉ [Opcode.setpol, .reset] → ch'.activeLow = ch.activeLow
  cur : o ∉ [Opcode.tick, .process, .reset] → ch'.cur = ch.cur
  tgt : o ∉ [Opcode.retarget, .poll, .process, .reset] → ch'.tgt = ch.tgt
  fading : o ∉ [Opcode.retarget, .tick, .poll, .process, .reset] → ch'.fading = ch.fading
  doorOpen : o ∉ [Opcode.resolve, .poll, .process, .reset] → ch'.doorOpen = ch.doorOpen
  latch : o ∉ [Opcode.resolve, .poll, .process, .reset, .setsns] →
    ch'.lastTrig = ch.lastTrig ∧ ch'.tsValid = ch.tsValid
  lastRaw : o ∉ [Opcode.poll, .process, .reset] → ch'.lastRaw = ch.lastRaw
  duty : o ∉ [Opcode.tick, .process, .reset, .setled, .stest] → ch'.duty = ch.duty

theorem Channel.WritesOnly.refl (o : Opcode) (ch : Channel) : ch.WritesOnly o ch :=
  ⟨fun _ => rfl, fun _ => rfl, fun _ => rfl, fun _ => rfl, fun _ => rfl, fun _ => rfl, fun _ => rfl, fun _ => ⟨rfl, rfl⟩,
    fun _ => rfl, fun _ => rfl⟩

theorem Channel.WritesOnly.trans {o : Opcode} {a b c : Channel} (hab : a.WritesOnly o b) (hbc : b.WritesOnly o c) :
    a.WritesOnly o c where
  ledPin h := (hbc.ledPin h).trans (hab.ledPin h)
  snsPin h := (hbc.snsPin h).trans (hab.snsPin h)
  activeLow h := (hbc.activeLow h).trans (hab.activeLow h)
  cur h := (hbc.cur h).trans (hab.cur h)
  tgt h := (hbc.tgt h).trans (hab.tgt h)
  fading h := (hbc.fading h).trans (hab.fading h)
  doorOpen h := (hbc.doorOpen h).trans (hab.doorOpen h)
  latch h := ⟨(hbc.latch h).1.trans (hab.latch h).1, (hbc.latch h).2.trans (hab.latch h).2⟩
  lastRaw h := (hbc.lastRaw h).trans (hab.lastRaw h)
  duty h := (hbc.duty h).trans (hab.duty h)

theorem ChannelTurn.writesOnly {cfg : Config} {o : Opcode} {ch ch' : Channel} (h : ChannelTurn cfg o ch ch') :
    ch.WritesOnly o ch' := by
  induction h with
  | reset | bindLed | pulse | bindSensor | polarity | sweep => constructor <;> simp
  | @resolve raw now ch _ =>
    rcases resolve_cases cfg raw now ch with ⟨-, -, e⟩ | ⟨-, -, e⟩ <;> rw [e] <;> constructor <;> simp
  | retarget => rw [retargetChannel_eq]; constructor <;> simp
  | tick => constructor <;> simp [tickChannel]
  | @sample raw now ch _ =>
    have hframe := resolveAndRetarget_frame cfg raw now ch
    constructor <;> simp [hframe]
  | @poll raw now ch _ =>
    rcases poll_cases cfg raw now ch with ⟨-, -, e⟩ | ⟨-, -, e⟩ <;> rw [e] <;> constructor <;> simp
  | processPoll _ ih | processTick _ ih =>
    obtain ⟨hled, hsns, hpol, -⟩ := ih
    exact ⟨fun _ => hled (by decide), fun _ => hsns (by decide), fun _ => hpol (by decide),
      by simp, by simp, by simp, by simp, by simp, by simp, by simp⟩

theorem ChannelTurns.writesOnly {cfg : Config} {o : Opcode} {ch ch' : Channel} (h : ChannelTurns cfg o ch ch') :
    ch.WritesOnly o ch' := by
  induction h with
  | refl => exact .refl o ch
  | tail _ hturn ih => exact ih.trans hturn.writesOnly

/-- Settles O49: a rejection writes no element but ERR, an effect only those of its opcode, and the turns of the channels
likewise. -/
theorem commandsWriteOnlyTheirElements : Obligations.CommandsWriteOnlyTheirElements := by
  intro i s t hexec
  have hwrites : (i.opcode ∉ [Opcode.edge, .gedge, .drain, .process, .reset] → t.pending = s.pending) ∧
      (i.opcode ∉ [Opcode.setpoll, .reset] → t.pollEn = s.pollEn) ∧ (i.opcode ≠ .reset → t.init = s.init) ∧
      ∀ c, (s.chan c).WritesOnly i.opcode (t.chan c) := by
    rcases exec_next_cases hexec with ⟨-, rfl⟩ | ⟨hwf, v, rfl⟩
    · exact ⟨fun _ => rfl, fun _ => rfl, fun _ => rfl, fun c => .refl _ _⟩
    · have heffect := effect_evolves hwf
      exact ⟨heffect.pending, heffect.pollEn, heffect.init, fun c => ChannelTurns.writesOnly (heffect.chans c)⟩
  obtain ⟨hpending, hpollEn, hinit, hchans⟩ := hwrites
  refine ⟨hpending, hpollEn, hinit, fun c => ?_⟩
  obtain ⟨hled, hsns, hpol, hcur, htgt, hfading, hdoor, hlatch, hraw, hduty⟩ := hchans c
  exact ⟨hled, hsns, hpol, hcur, htgt, hfading, hdoor, hlatch, hraw, hduty⟩

/-! ### The invariant -/

/-- A predicate that every turn of the opcode keeps is kept by any number of them. -/
theorem ChannelTurns.keep {cfg : Config} {o : Opcode} {P : Channel → Prop}
    (hP : ∀ ch ch', ChannelTurn cfg o ch ch' → P ch → P ch') {ch ch' : Channel} (h : ChannelTurns cfg o ch ch')
    (hch : P ch) : P ch' := by
  induction h with
  | refl => exact hch
  | tail _ hturn ih => exact hP _ _ hturn ih

/-- A predicate of channels that the turns of an opcode keep is kept by its evolutions. -/
theorem Evolves.forall_chans {o : Opcode} {s t : State} (h : Evolves o s t) {P : Channel → Prop}
    (hP : ∀ ch ch', ChannelTurn s.cfg o ch ch' → P ch → P ch') (hs : ∀ ch ∈ s.chans, P ch) : ∀ ch ∈ t.chans, P ch := by
  intro ch hmem
  obtain ⟨c, hc, rfl⟩ := (mem_chans_iff t ch).1 hmem
  exact ChannelTurns.keep hP (h.chans c) (hs _ (chan_mem s (h.length ▸ hc)))

/-- The saturating step stays below a bound on where it is and where it goes (R38). -/
theorem fadeStep_le {cfg : Config} {cur tgt : Intensity} {b : Nat} (hcur : cur.toNat ≤ b) (htgt : tgt.toNat ≤ b) :
    (fadeStep cfg cur tgt).toNat ≤ b := by
  rw [fadeStep_toNat]
  exact (saturatingStep_between _ _ _).2.trans (max_le hcur htgt)

theorem targetLevel_cases (cfg : Config) (on : Bool) : targetLevel cfg on = 0 ∨ targetLevel cfg on = cfg.wrap := by
  cases on
  · exact .inl rfl
  · exact .inr rfl

theorem retargetChannel_ok {cfg : Config} {ch : Channel} (on : Bool) (h : ch.Ok cfg) : (retargetChannel cfg on ch).Ok cfg := by
  obtain ⟨hcur, -, hduty, -, htrig, hvalid⟩ := id h
  rcases retarget_cases cfg on ch with ⟨-, e⟩ | ⟨-, e⟩ <;> rw [e]
  · exact h
  · exact ⟨hcur, targetLevel_cases cfg on, hduty, nofun, htrig, hvalid⟩

theorem resolveChannel_ok {cfg : Config} {ch : Channel} (raw : Level) {now : Timestamp} (hnow : now.toNat < 2 ^ cfg.tsW)
    (h : ch.Ok cfg) : (resolveChannel cfg raw now ch).Ok cfg := by
  obtain ⟨hcur, htgt, hduty, hrest, -, -⟩ := id h
  rcases resolve_cases cfg raw now ch with ⟨-, -, e⟩ | ⟨-, -, e⟩ <;> rw [e]
  · exact ⟨hcur, htgt, hduty, hrest, hnow, fun _ => rfl⟩
  · exact h

theorem resolveAndRetarget_ok {cfg : Config} {ch : Channel} (raw : Level) {now : Timestamp}
    (hnow : now.toNat < 2 ^ cfg.tsW) (h : ch.Ok cfg) : (resolveAndRetarget cfg raw now ch).Ok cfg := by
  unfold resolveAndRetarget
  split
  · exact retargetChannel_ok _ (resolveChannel_ok raw hnow h)
  · exact resolveChannel_ok raw hnow h

theorem pollChannel_ok {cfg : Config} {ch : Channel} (raw : Level) {now : Timestamp} (hnow : now.toNat < 2 ^ cfg.tsW)
    (h : ch.Ok cfg) : (pollChannel cfg raw now ch).Ok cfg := by
  unfold pollChannel
  split
  · exact h
  · exact resolveAndRetarget_ok raw hnow h

theorem tickChannel_ok {cfg : Config} {ch : Channel} (hfading : ch.fading = true) (h : ch.Ok cfg) :
    (tickChannel cfg ch).Ok cfg := by
  obtain ⟨hcur, htgt, -, -, htrig, hvalid⟩ := h
  have hend : ch.tgt.toNat ≤ cfg.wrap.toNat := by rcases htgt with e | e <;> simp [e]
  rw [tickChannel_of_fading hfading]
  exact ⟨fadeStep_le hcur hend, htgt, fadeStep_le hcur hend, by simp, htrig, hvalid⟩

/-- Every turn but those of RESET keeps the channel's invariant. -/
theorem ChannelTurn.ok {cfg : Config} {o : Opcode} {ch ch' : Channel} (h : ChannelTurn cfg o ch ch') (ho : o ≠ .reset)
    (hok : ch.Ok cfg) : ch'.Ok cfg := by
  induction h with
  | reset => exact absurd rfl ho
  | bindLed | polarity => exact hok
  | pulse =>
    obtain ⟨hcur, htgt, -, hrest⟩ := hok
    exact ⟨hcur, htgt, hcur, hrest⟩
  | bindSensor =>
    obtain ⟨hcur, htgt, hduty, hrest, -, -⟩ := hok
    exact ⟨hcur, htgt, hduty, hrest, Nat.two_pow_pos _, fun hmode => by simp [tsValidAtReset, hmode]⟩
  | sweep v ch hv =>
    obtain ⟨hcur, htgt, -, hrest⟩ := hok
    exact ⟨hcur, htgt, by rcases hv with rfl | rfl <;> simp, hrest⟩
  | resolve raw ch hnow => exact resolveChannel_ok raw hnow hok
  | retarget on => exact retargetChannel_ok on hok
  | tick hfading => exact tickChannel_ok hfading hok
  | sample raw ch hnow => exact resolveAndRetarget_ok raw hnow hok
  | poll raw ch hnow => exact pollChannel_ok raw hnow hok
  | processPoll _ ih | processTick _ ih => exact ih (by decide) hok

/-- A channel at its reset values meets the channel's invariant (R38, R42). -/
theorem channelAtReset_ok (cfg : Config) (c : Nat) : (channelAtReset cfg c).Ok cfg :=
  ⟨Nat.zero_le _, .inl rfl, Nat.zero_le _, fun _ => rfl, Nat.two_pow_pos _, fun hmode => by
    simp [channelAtReset, tsValidAtReset, hmode]⟩

theorem forall_channelsAtReset {cfg : Config} {P : Channel → Prop} (h : ∀ c, P (channelAtReset cfg c)) :
    ∀ ch ∈ channelsAtReset cfg, P ch := by
  intro ch hmem
  obtain ⟨c, -, rfl⟩ := List.mem_map.1 hmem
  exact h c

/-- A predicate of channels that the turns of a command keep, and that holds at the reset values, is kept by the command's effect.
-/
theorem effect_forall_chans {i : Instr} {s : State} (hwf : i.wf s.cfg = true) (hlen : s.chans.length = s.cfg.n)
    {P : Channel → Prop} (hreset : ∀ c, P (channelAtReset s.cfg c))
    (hP : i.opcode ≠ .reset → ∀ ch ch', ChannelTurn s.cfg i.opcode ch ch' → P ch → P ch')
    (hs : ∀ ch ∈ s.chans, P ch) : ∀ ch ∈ (effect i s).chans, P ch := by
  by_cases hop : i.opcode = .reset
  · obtain rfl : i = .reset := by cases i <;> simp_all [Instr.opcode]
    simp only [effect, resetSequence_eq s hlen]
    exact forall_channelsAtReset hreset
  · exact (effect_evolves hwf).forall_chans (hP hop) hs

/-- A latch below `2 ^ N` is one without a bit at or above N (R24). -/
theorem pending_lt_iff (p : BitVec 32) (n : Nat) : p.toNat < 2 ^ n ↔ ∀ c, n ≤ c → p.getLsbD c = false :=
  ⟨fun h c hc => Nat.testBit_eq_false_of_lt (h.trans_le (Nat.pow_le_pow_right (by decide) hc)),
    Nat.lt_pow_two_of_testBit _⟩

theorem signals_lt {s : State} {w : Word} {c : Nat} (h : signals s w c = true) : c < s.cfg.n := by
  unfold signals at h
  split at h
  next ch hdecode => exact beq_iff_eq.1 h ▸ decode_edge_channel hdecode
  next => exact of_decide_eq_true (Bool.and_eq_true_iff.1 h).1
  next => cases h

/-- A transaction signals channels below N only (R94, R131). -/
theorem Txn.signals_lt {s : State} {c : Nat} {x : Txn} (h : x.signals s c = true) : c < s.cfg.n := by
  unfold Txn.signals at h
  split at h
  next => exact Machine.signals_lt h
  next =>
    obtain ⟨hch, hc⟩ := Bool.and_eq_true_iff.1 h
    exact beq_iff_eq.1 hc ▸ of_decide_eq_true hch
  next => exact of_decide_eq_true (Bool.and_eq_true_iff.1 h).1
  next => cases h
  next => cases h

/-- What the latch gains of channels below N keeps it without a bit at or above N (R133). -/
theorem LatchGains.pending_lt {signalled : Nat → Bool} {s t : State} (h : LatchGains signalled s t)
    (hsignalled : ∀ c, signalled c = true → c < s.cfg.n) (hs : s.pending.toNat < 2 ^ s.cfg.n) :
    t.pending.toNat < 2 ^ t.cfg.n := by
  rw [h.cfg]
  rw [pending_lt_iff] at hs ⊢
  intro c hc
  rw [h.bits, hs c hc, Bool.false_or, ← Bool.not_eq_true]
  exact fun hsig => absurd (hsignalled c hsig) (Nat.not_lt.2 hc)

/-- No command leaves a latch bit at or above N (R133). -/
theorem exec_pending_lt {i : Instr} {s t : State} (hn : s.cfg.n ≤ 32) (hs : s.pending.toNat < 2 ^ s.cfg.n)
    (hexec : exec i s = .next t) : t.pending.toNat < 2 ^ t.cfg.n := by
  by_cases hclears : i = .drain ∨ i = .process ∨ i = .reset
  · obtain ⟨u, hu, hkept⟩ := exec_clears hclears s
    obtain rfl : u = t := Host.Outcome.next.inj (hu.symm.trans hexec)
    rw [hkept.pending]
    exact Nat.two_pow_pos _
  · have hi : (Txn.command i).clears = false := by cases i <;> simp_all [Txn.clears]
    obtain ⟨u, hu, hgains⟩ := exec_gains i s hn hi
    obtain rfl : u = t := Host.Outcome.next.inj (hu.symm.trans hexec)
    exact hgains.pending_lt (fun _ => Txn.signals_lt) hs

/-- The invariant says nothing of the two streams, the position in them, the turns and the draws. -/
theorem State.Inv.congr {s t : State} (h : s.Inv) (hcfg : t.cfg = s.cfg) (hpending : t.pending = s.pending)
    (hchans : t.chans = s.chans) (herr : t.err = true → t.faultMark = true) : t.Inv := by
  obtain ⟨hlegal, hlen, hlatch, hok, -⟩ := h
  exact ⟨hcfg ▸ hlegal, by rw [hchans, hcfg, hlen], by rwa [hpending, hcfg], by rwa [hchans, hcfg], herr⟩

theorem rejectCommand_inv {s : State} (h : s.Inv) (r : Rejection) : (rejectCommand r s).Inv :=
  h.congr rfl rfl rfl fun _ => rfl

/-- A performed command leaves ERR clear or as it was, and the recorded fault as it was (R27, R282). -/
theorem effect_fault {i : Instr} {s : State} (hwf : i.wf s.cfg = true) (h : s.err = true → s.faultMark = true)
    (herr : (effect i s).err = true) : (effect i s).faultMark = true := by
  rw [effect_err hwf, Bool.and_eq_true] at herr
  rw [(effect_evolves hwf).faultMark]
  exact h herr.1

/-- A command keeps the invariant. -/
theorem exec_inv {i : Instr} {s t : State} (h : s.Inv) (hexec : exec i s = .next t) : t.Inv := by
  obtain ⟨hlegal, hlen, hlatch, hok, hfault⟩ := id h
  obtain ⟨-, hn, -⟩ := id hlegal
  have hpending := exec_pending_lt hn hlatch hexec
  rcases exec_next_cases hexec with ⟨-, rfl⟩ | ⟨hwf, v, rfl⟩
  · exact rejectCommand_inv h _
  · have heffect := effect_evolves hwf
    have hchans := effect_forall_chans hwf hlen (channelAtReset_ok s.cfg) (fun hop _ _ hturn => hturn.ok hop) hok
    exact ⟨heffect.cfg ▸ hlegal, heffect.length.trans (hlen.trans (by rw [respond_cfg, heffect.cfg])), hpending,
      by rwa [respond_cfg, heffect.cfg], effect_fault hwf hfault⟩

/-- An edge event keeps the invariant. -/
theorem edgeEvent_inv {s : State} (h : s.Inv) (w : Word) : (edgeEvent w s).Inv := by
  obtain ⟨hlegal, hlen, hlatch, hok, hfault⟩ := id h
  obtain ⟨-, hn, -⟩ := id hlegal
  have hpending := (edgeEvent_gains w s hn).pending_lt (fun _ => signals_lt) hlatch
  rw [edgeEvent_eq_atomicOr] at hpending ⊢
  exact ⟨hlegal, hlen, hpending, hok, hfault⟩

/-- What a turn between the agents leaves as it was. -/
theorem afterTurn_eq (s : State) :
    ∃ ts n, afterTurn s = { s with turns := ts, draws := n } := by
  unfold afterTurn
  split
  · exact ⟨_, s.draws, rfl⟩
  · exact ⟨s.turns, _, rfl⟩

/-- Settles O52: the agents' streams and turns are no part of the invariant, and an edge event, a command and a rejection each keep
it. -/
theorem stepKeepsTheInvariant : Obligations.StepKeepsTheInvariant := by
  intro s t h hstep
  obtain ⟨-, -, -, -, hfault⟩ := id h
  have hissued : ∀ u, u = s ∨ u = afterTurn s → ∀ cmds edges cpos,
      State.Inv { u with cmds := cmds, edges := edges, cpos := cpos } := by
    rintro u (rfl | rfl) cmds edges cpos
    · exact h.congr rfl rfl rfl hfault
    · obtain ⟨ts, n, e⟩ := afterTurn_eq s
      rw [e]
      exact h.congr rfl rfl rfl hfault
  rcases step_cases s with ⟨-, -, e⟩ | ⟨-, -, -, e⟩ | ⟨w, ws, u, -, hu, e⟩ | ⟨w0, ops, rest, u, -, hu, hcommand⟩
  · cases hstep.symm.trans e
    exact h
  · cases hstep.symm.trans e
  · cases hstep.symm.trans e
    exact edgeEvent_inv (hissued u hu u.cmds ws u.cpos) w
  · have hinv := hissued u hu rest u.edges (u.cpos + (1 + ops.length))
    rcases hcommand with ⟨i, -, e⟩ | ⟨r, -, e⟩
    · exact exec_inv hinv (e.symm.trans hstep)
    · cases hstep.symm.trans e
      exact rejectCommand_inv hinv r

/-- Settles O53: the reset values meet the invariant, and at reset every target is 0 and every door closed. -/
theorem powerUpMeetsTheInvariant : Obligations.PowerUpMeetsTheInvariant := fun cfg hlegal =>
  ⟨⟨hlegal, channelsAtReset_length cfg, Nat.two_pow_pos _, forall_channelsAtReset (channelAtReset_ok cfg), nofun⟩,
    forall_channelsAtReset fun _ => rfl⟩

/-- Settles O54: the default parameters are legal, so power-up at them meets the invariant. -/
theorem resetStateMeetsTheInvariant : Obligations.ResetStateMeetsTheInvariant :=
  (powerUpMeetsTheInvariant Config.defaults (by decide)).1

/-! ### Targets and doors -/

/-- A channel's target is the one its door state asks for (R40). -/
abbrev Channel.FollowsDoor (cfg : Config) (ch : Channel) : Prop := ch.tgt = if ch.doorOpen then cfg.wrap else 0

theorem resolveAndRetarget_followsDoor {cfg : Config} {ch : Channel} (raw : Level) (now : Timestamp)
    (h : ch.FollowsDoor cfg) : (resolveAndRetarget cfg raw now ch).FollowsDoor cfg := by
  cases haccepts : resolverAccepts cfg raw now ch
  · rwa [resolveAndRetarget_of_ignores haccepts]
  · rw [resolveAndRetarget_of_accepts haccepts]
    simp [Channel.FollowsDoor, targetLevel]

/-- A poll resolves and retargets together, so it keeps the correspondence (R190, log 21). -/
theorem pollChannel_followsDoor {cfg : Config} {ch : Channel} (raw : Level) (now : Timestamp) (h : ch.FollowsDoor cfg) :
    (pollChannel cfg raw now ch).FollowsDoor cfg := by
  unfold pollChannel
  split
  · exact h
  · exact resolveAndRetarget_followsDoor raw now h

/-- Every turn but those of RESET, RESOLVE and RETARGET keeps a channel's target following its door. -/
theorem ChannelTurn.followsDoor {cfg : Config} {o : Opcode} {ch ch' : Channel} (h : ChannelTurn cfg o ch ch')
    (ho : o ≠ .reset ∧ o ≠ .resolve ∧ o ≠ .retarget) (hch : ch.FollowsDoor cfg) : ch'.FollowsDoor cfg := by
  induction h with
  | reset | resolve | retarget => simp at ho
  | bindLed | pulse | bindSensor | polarity | sweep | tick => exact hch
  | sample raw => exact resolveAndRetarget_followsDoor raw _ hch
  | poll raw => exact pollChannel_followsDoor raw _ hch
  | processPoll _ ih | processTick _ ih => exact ih (by decide) hch

/-- Settles O56: the turns of every other command keep it for each channel, and RESET closes every door at target 0. -/
theorem targetsFollowDoors : Obligations.TargetsFollowDoors := by
  intro i s t hlen hresolve hretarget hs hexec
  rcases exec_next_cases hexec with ⟨-, rfl⟩ | ⟨hwf, v, rfl⟩
  · exact hs
  · have hchans := effect_forall_chans hwf hlen (P := Channel.FollowsDoor s.cfg) (fun _ => rfl)
      (fun hreset _ _ hturn => hturn.followsDoor ⟨hreset, hresolve, hretarget⟩) hs
    rw [State.TargetFollowsDoor, respond_cfg, (effect_evolves hwf).cfg]
    exact hchans

/-- Settles O57: the RESOLVE opens the door of channel 0 and leaves its target, the RETARGET writes its target and leaves the
door. -/
theorem resolveAndRetargetCanBreakIt : Obligations.ResolveAndRetargetCanBreakIt := by
  obtain ⟨-, hfollows⟩ := powerUpMeetsTheInvariant Config.defaults (by decide)
  exact ⟨hfollows, ⟨_, exec_resolve State.reset .low (by decide) (by decide), by decide⟩,
    ⟨_, exec_retarget State.reset true (by decide), by decide⟩⟩

/-! ### The record -/

/-- From `s` to `t` nothing is taken back: parameters, outputs, responses, time, position and recorded fault (R43). -/
structure RecordGrows (s t : State) : Prop where
  /-- The parameters stay. -/
  cfg : t.cfg = s.cfg
  /-- The trace is extended. -/
  trace : s.trace <+: t.trace
  /-- The responses are extended. -/
  responses : s.responses <+: t.responses
  /-- Time does not go back. -/
  clock : s.clock ≤ t.clock
  /-- The position in the command stream does not go back. -/
  cpos : s.cpos ≤ t.cpos
  /-- A recorded fault stays recorded. -/
  faultMark : s.faultMark = true → t.faultMark = true

theorem RecordGrows.trans {s t u : State} (hst : RecordGrows s t) (htu : RecordGrows t u) : RecordGrows s u :=
  ⟨htu.cfg.trans hst.cfg, hst.trace.trans htu.trace, hst.responses.trans htu.responses, hst.clock.trans htu.clock,
    hst.cpos.trans htu.cpos, htu.faultMark ∘ hst.faultMark⟩

/-- A change of the latch, the streams and the draws, with the position moved on, takes nothing back. -/
theorem RecordGrows.of_eq {s t : State} (hcfg : t.cfg = s.cfg) (htrace : t.trace = s.trace)
    (hresponses : t.responses = s.responses) (hclock : t.clock = s.clock) (hcpos : s.cpos ≤ t.cpos)
    (hfault : t.faultMark = s.faultMark) : RecordGrows s t :=
  ⟨hcfg, htrace ▸ List.prefix_rfl, hresponses ▸ List.prefix_rfl, hclock.ge, hcpos, fun h => hfault.trans h⟩

theorem rejectCommand_recordGrows (r : Rejection) (s : State) : RecordGrows s (rejectCommand r s) :=
  ⟨rfl, List.prefix_rfl, List.prefix_append _ _, le_rfl, le_rfl, fun _ => rfl⟩

theorem exec_recordGrows {i : Instr} {s t : State} (h : exec i s = .next t) : RecordGrows s t := by
  rcases exec_next_cases h with ⟨-, rfl⟩ | ⟨hwf, v, rfl⟩
  · exact rejectCommand_recordGrows _ s
  · have heffect := effect_evolves hwf
    exact ⟨heffect.cfg, heffect.trace, heffect.responses ▸ List.prefix_append _ _, heffect.clock, heffect.cpos.ge,
      fun hfault => heffect.faultMark.trans hfault⟩

theorem edgeEvent_recordGrows (w : Word) (s : State) : RecordGrows s (edgeEvent w s) := by
  rw [edgeEvent_eq_atomicOr]
  exact .of_eq rfl rfl rfl rfl le_rfl rfl

theorem afterTurn_recordGrows (s : State) : RecordGrows s (afterTurn s) := by
  obtain ⟨ts, n, e⟩ := afterTurn_eq s
  rw [e]
  exact .of_eq rfl rfl rfl rfl le_rfl rfl

/-- Settles O58: each part of a step, the turn, the words leaving a stream, and what is then performed or rejected, takes nothing
back. -/
theorem stepsOnlyExtendTheRecord : Obligations.StepsOnlyExtendTheRecord := by
  intro s t hstep
  have hturn : ∀ u, u = s ∨ u = afterTurn s → RecordGrows s u := by
    rintro u (rfl | rfl)
    · exact .of_eq rfl rfl rfl rfl le_rfl rfl
    · exact afterTurn_recordGrows s
  suffices h : RecordGrows s t from ⟨h.cfg, h.trace, h.responses, h.clock, h.cpos, h.faultMark⟩
  rcases step_cases s with ⟨-, -, e⟩ | ⟨-, -, -, e⟩ | ⟨w, ws, u, -, hu, e⟩ | ⟨w0, ops, rest, u, -, hu, hcommand⟩
  · cases hstep.symm.trans e
    exact hturn s (.inl rfl)
  · cases hstep.symm.trans e
  · cases hstep.symm.trans e
    have hissued : RecordGrows u { u with edges := ws } := .of_eq rfl rfl rfl rfl le_rfl rfl
    exact ((hturn u hu).trans hissued).trans (edgeEvent_recordGrows w _)
  · have hissued : RecordGrows u { u with cmds := rest, cpos := u.cpos + (1 + ops.length) } :=
      .of_eq rfl rfl rfl rfl (Nat.le_add_right _ _) rfl
    rcases hcommand with ⟨i, -, e⟩ | ⟨r, -, e⟩
    · exact ((hturn u hu).trans hissued).trans (exec_recordGrows (e.symm.trans hstep))
    · cases hstep.symm.trans e
      exact ((hturn u hu).trans hissued).trans (rejectCommand_recordGrows r _)

end Sys2Proof.Machine

/-! PROOFS. The whole next states of the configuration and self-test commands and of RESET (R220 to R234, R300), each its loop as
one map over the channels, and what an accepted SETLED does to the output mux (R265). -/

namespace Sys2Proof.Machine

open Sys2Proof

/-! ### SETLED and SETSNS -/

/-- N valid pins and the array command does its rebinds and responds 1 (R222, R224). -/
theorem rebindAll_of_valid {pins : List Pin} {s : State} (turn : Nat → State → State) (hlen : pins.length = s.cfg.n)
    (hvalid : ∀ p ∈ pins, p.toNat ≤ s.cfg.pinMax.toNat) :
    rebindAll pins turn s = (s.forChannels turn).respond 1 := by
  rcases rebindAll_cases pins turn s with ⟨hne, -⟩ | ⟨-, -, e⟩ | ⟨-, ⟨p, hp, habove⟩, -⟩
  · exact absurd hlen hne
  · exact e
  · exact absurd (hvalid p hp) (Nat.not_le.2 habove)

/-- Settles O43: the array is accepted, and its rebinds are one map over the channels with their events. -/
theorem setledRebindsChangedPins : Obligations.SetledRebindsChangedPins := by
  intro s pins hchans hlen hvalid
  rw [exec_setled, rebindAll_of_valid _ hlen hvalid, rebindLed_loop_eq s pins hchans]
  rfl

theorem tsValidAtReset_eq (cfg : Config) : tsValidAtReset cfg = decide (cfg.tsResetMode = .zero) := by
  unfold tsValidAtReset
  cases cfg.tsResetMode <;> rfl

/-- Settles O44: the array is accepted, and its rebinds are one map over the channels. -/
theorem setsnsRebindsChangedPins : Obligations.SetsnsRebindsChangedPins := by
  intro s pins hchans hlen hvalid
  rw [exec_setsns, rebindAll_of_valid _ hlen hvalid, rebindSensor_loop_eq s pins hchans, ← tsValidAtReset_eq]
  rfl

/-- After an accepted SETLED every channel is bound to the pin that the array has for it, also where the pin was the same (R222). -/
theorem exec_setled_ledPin {s t : State} {pins : List Pin} (hchans : s.chans.length = s.cfg.n)
    (hlen : pins.length = s.cfg.n) (hvalid : ∀ p ∈ pins, p.toNat ≤ s.cfg.pinMax.toNat)
    (hexec : exec (.setled pins) s = .next t) :
    t.cfg = s.cfg ∧ ∀ c < s.cfg.n, (t.chan c).ledPin = pins.getD c 0 := by
  rw [setledRebindsChangedPins s pins hchans hlen hvalid] at hexec
  cases hexec
  refine ⟨rfl, fun c hc => ?_⟩
  rw [chan_eq_getElem _ (by simpa using hc)]
  simp only [List.getElem_map, List.getElem_range]
  split
  next hsame => exact hsame.symm
  next => rfl

/-- Settles O51: the mux follows the bindings, and the bindings are the array's. -/
theorem setledReleasesAndBindsPins : Obligations.SetledReleasesAndBindsPins := by
  intro s t pins p hchans hlen hvalid hexec
  obtain ⟨hcfg, hpins⟩ := exec_setled_ledPin hchans hlen hvalid hexec
  have hmem : ∀ c < s.cfg.n, pins.getD c 0 ∈ pins := fun c hc => by
    rw [List.getD_eq_getElem _ _ (hlen ▸ hc)]
    exact List.getElem_mem _
  constructor
  · intro hp
    rw [drive_eq_none_iff, hcfg]
    exact fun c hc hbound => absurd (hbound ▸ hpins c hc ▸ hmem c hc) hp
  · intro c hc hbound hlowest
    rw [drive_eq_pwm_iff, hcfg]
    refine ⟨hc, (hpins c hc).trans hbound, hbound ▸ hvalid _ (hmem c hc), fun d hd => ?_⟩
    rw [hpins d (hd.trans hc)]
    exact hlowest d hd

/-! ### SETPOL, STEST and the flags -/

theorem exec_setpol {s : State} {pol : Word} (hchans : s.chans.length = s.cfg.n) (hpol : pol.toNat < 2 ^ s.cfg.n) :
    exec (.setpol pol) s = .next (State.respond { s with
      chans := (List.range s.cfg.n).map fun c => { s.chan c with activeLow := pol.getLsbD c } } 0) := by
  simp only [exec, execSetpol, withPolarity, hpol, if_true, setpol_loop_eq s pol hchans]

/-- Settles O46: the polarity loop is one map over the channels. -/
theorem setpolWritesOnlyPolarities : Obligations.SetpolWritesOnlyPolarities := fun _ _ hchans hpol =>
  exec_setpol hchans hpol

theorem ledOk_iff (cfg : Config) (ch : Channel) : ch.ledOk cfg = true ↔ ch.ledPin.toNat ≤ cfg.pinMax.toNat := by
  simp [Channel.ledOk, validPin]

/-- Settles O47: the sweep loop is one map over the channels with their events. -/
theorem stestSweepsFunctionalChannels : Obligations.StestSweepsFunctionalChannels := by
  intro s hchans
  have hexec : exec .stest s = .next ((s.forChannels sweepAt).respond 0) := rfl
  rw [hexec, sweep_loop_eq s hchans]
  simp only [ledOk_iff]
  rfl

/-- Settles O42: each of the three commands is its response, after the write of the flag for SETPOLL. -/
theorem flagCommandsReadAndWriteTheirFlag : Obligations.FlagCommandsReadAndWriteTheirFlag := fun _ =>
  ⟨rfl, rfl, fun _ => rfl⟩

/-! ### RESET -/

/-- Settles O41: the reset sequence writes every element's reset value, and its events are those of power-up. -/
theorem resetRestoresThePowerUpState : Obligations.ResetRestoresThePowerUpState := by
  intro s hchans
  have htrace : s.trace ++ traceAtReset s.cfg = s.trace ++ (List.range s.cfg.n).map (Event.duty · 0) ++
      (List.range s.cfg.n).flatMap fun c =>
        if (s.cfg.defaultLedPin.getD c 0).toNat ≤ s.cfg.pinMax.toNat then [Event.pulse c, Event.duty c 0] else [] := by
    simp only [traceAtReset, ledOk_iff, channelAtReset, List.append_assoc]
  rw [exec_reset, resetSequence_eq s hchans, htrace]
  rfl

/-! ### SETPOL before a RESOLVE -/

/-- The channel's polarity after SETPOL, and that nothing else of the channel has changed (R226). -/
theorem exec_setpol_chan {s : State} {pol : Word} {c : Nat} (hchans : s.chans.length = s.cfg.n)
    (hpol : pol.toNat < 2 ^ s.cfg.n) (hc : c < s.cfg.n) :
    ∃ t, exec (.setpol pol) s = .next t ∧ t.cfg = s.cfg ∧ t.chans.length = s.chans.length ∧
      t.responses = s.responses ++ [⟨.ok, 0⟩] ∧ t.chan c = { s.chan c with activeLow := pol.getLsbD c } := by
  refine ⟨_, exec_setpol hchans hpol, rfl, by simp [hchans], rfl, ?_⟩
  rw [chan_respond, chan_eq_getElem _ (by simpa using hc)]
  simp

/-- Under the opposite polarity a level means the opposite door state (R152). -/
theorem logicalOpen_flip (ch : Channel) (raw : Level) :
    logicalOpen { ch with activeLow := !ch.activeLow } raw = !logicalOpen ch raw := by
  unfold logicalOpen
  cases ch.activeLow <;> cases raw <;> rfl

/-- Settles O26: under the new polarity the level that meant the present door state means the opposite one, so outside the window
the resolver accepts it. -/
theorem polarityFlipReversesTheDoor : Obligations.PolarityFlipReversesTheDoor := by
  intro s ch raw now pol hchans hch hnow hpol old hflip hagrees hwindow
  obtain ⟨t, hsetpol, hcfg, hlen, hresponses, htchan⟩ := exec_setpol_chan hchans hpol hch
  rw [hflip] at htchan
  have hopens : logicalOpen (t.chan ch.toNat) raw = !old.doorOpen := by
    rw [htchan, logicalOpen_flip]
    exact congrArg not hagrees.symm
  have hrejects : debounceRejects t.cfg (t.chan ch.toNat) now = debounceRejects s.cfg old now := by rw [htchan, hcfg]; rfl
  have haccepts : resolverAccepts t.cfg raw now (t.chan ch.toNat) = true := by
    rw [resolverAccepts_iff, hrejects, hopens, htchan]
    exact ⟨Bool.eq_false_iff.2 fun h => hwindow ((debounceRejects_iff _ _ _).1 h), by simp [old]⟩
  refine ⟨t, _, hsetpol, by rw [htchan], exec_resolve_of_accepts (hcfg ▸ hch) (hcfg ▸ hnow) haccepts, ?_, ?_⟩
  · rw [chan_respond, chan_setChan_same t _ (by rw [hlen, hchans]; exact hch), hopens]
  · rw [respond_responses, setChan_responses, hresponses, hopens]
    cases old.doorOpen <;> simp

end Sys2Proof.Machine

/-! PROOFS. One step by what stands first on the two ports (R22, R61, R62, R64): a whole command, an edge event, both, or neither;
and the commands of signal intake, with a DRAIN and an edge event that overlap (R68). -/

namespace Sys2Proof.Machine

open Sys2Proof

/-! ### EDGE, GEDGE and DRAIN -/

/-- Settles O16: EDGE on a channel below N is one OR of that channel's bit. -/
theorem edgeSetsItsBit : Obligations.EdgeSetsItsBit := by
  intro s ch hch
  simp only [exec, execEdge, withChannel, hch, if_true]
  rfl

/-- Settles O17: GEDGE is one OR of the pin's mask, whose bits are the functional sensor channels bound to the pin. -/
theorem gedgeSetsTheBitsOfThePin : Obligations.GedgeSetsTheBitsOfThePin := by
  intro s pin evm hn
  have hexec : exec (.gedge pin evm) s = .next ((recordPinEdge pin s).respond 0) := rfl
  refine ⟨s.pending ||| senseMask s pin, by rw [hexec, recordPinEdge_eq]; rfl, fun c => ?_⟩
  rw [BitVec.getLsbD_or, senseMask_getLsbD s pin hn, Bool.eq_iff_iff]
  simp only [Bool.or_eq_true, Bool.and_eq_true, decide_eq_true_eq, sensesPin_iff]
  refine or_congr_right (and_congr_right fun _ => ⟨fun ⟨hpin, hvalid⟩ => ⟨hpin ▸ hvalid, hpin⟩, fun ⟨hvalid, hpin⟩ =>
    ⟨hpin, hpin ▸ hvalid⟩⟩)

/-- Settles O18: DRAIN clears the latch and responds with what it held. -/
theorem drainTakesAndClearsTheLatch : Obligations.DrainTakesAndClearsTheLatch := exec_drain

/-! ### A command issued -/

/-- The state that a command is performed on: its words have left the stream (R22). -/
def issued (rest : List Word) (len : Nat) (s : State) : State := { s with cmds := rest, cpos := s.cpos + len }

/-- A command's words performed: decoded, and then its meaning or its rejection (R101, R282). -/
def performWords (w0 : Word) (ops : List Word) (s : State) : Result :=
  match decode s.cfg w0 ops with
  | .ok i => exec i s
  | .rejected r => .next (rejectCommand r s)

theorem performWords_of_ok {w0 : Word} {ops : List Word} {s : State} {i : Instr} (h : decode s.cfg w0 ops = .ok i) :
    performWords w0 ops s = exec i s := by
  simp only [performWords, h]

theorem performWords_of_rejected {w0 : Word} {ops : List Word} {s : State} {r : Rejection}
    (h : decode s.cfg w0 ops = .rejected r) : performWords w0 ops s = .next (rejectCommand r s) := by
  simp only [performWords, h]

/-! ### The cases of a step -/

theorem step_of_move {s t : State} {w0 : Word} {ops : List Word} (h : nextMove s = .command w0 ops t) :
    step s = performWords w0 ops t := by
  cases hdecode : decode t.cfg w0 ops <;> simp only [step, h, performWords, hdecode]

theorem step_of_edgeMove {s t : State} {w : Word} (h : nextMove s = .edge w t) : step s = .next (edgeEvent w t) := by
  simp only [step, h]

/-- With no edge event left, a whole command is the step (R61). -/
theorem step_command {s : State} {w0 : Word} {ops rest : List Word} (hcmd : takeCommand s.cfg s.cmds = some (w0, ops, rest))
    (hedges : s.edges = []) : step s = performWords w0 ops (issued rest (1 + ops.length) s) :=
  step_of_move (by rw [nextMove, hcmd, hedges]; rfl)

/-- With no whole command left, an edge event is the step (R62). -/
theorem step_edge {s : State} {w : Word} {ws : List Word} (hcmd : takeCommand s.cfg s.cmds = none)
    (hedges : s.edges = w :: ws) : step s = .next (edgeEvent w { s with edges := ws }) :=
  step_of_edgeMove (by rw [nextMove, hcmd, hedges]; rfl)

/-- With both left, the step is the edge event where the edge agent goes first, and else the command (R64, R68). -/
theorem step_contested {s : State} {w0 w : Word} {ops rest ws : List Word}
    (hcmd : takeCommand s.cfg s.cmds = some (w0, ops, rest)) (hedges : s.edges = w :: ws) :
    (edgeGoesFirst s = true ∧ step s = .next (edgeEvent w { afterTurn s with edges := ws })) ∨
    (edgeGoesFirst s = false ∧ step s = performWords w0 ops (issued rest (1 + ops.length) (afterTurn s))) := by
  cases hfirst : edgeGoesFirst s
  · exact .inr ⟨rfl, step_of_move (by rw [nextMove, hcmd, hedges]; simp only [hfirst]; rfl)⟩
  · exact .inl ⟨rfl, step_of_edgeMove (by rw [nextMove, hcmd, hedges]; simp only [hfirst]; rfl)⟩

/-! ### Turns, listed or not -/

theorem edgeGoesFirst_listed {s : State} {a : Agent} {ts : List Agent} (h : s.turns = a :: ts) :
    edgeGoesFirst s = (a == .edge) := by
  simp only [edgeGoesFirst, h]

theorem afterTurn_listed {s : State} {a : Agent} {ts : List Agent} (h : s.turns = a :: ts) :
    afterTurn s = { s with turns := ts } := by
  simp only [afterTurn, h]

theorem afterTurn_unlisted {s : State} (h : s.turns = []) : afterTurn s = { s with draws := s.draws + 1 } := by
  simp only [afterTurn, h]

/-- Where the next listed turn is the mainline agent's, the step is the command. -/
theorem step_mainlineTurn {s : State} {w0 w : Word} {ops rest ws : List Word} {ts : List Agent}
    (hcmd : takeCommand s.cfg s.cmds = some (w0, ops, rest)) (hedges : s.edges = w :: ws) (hturns : s.turns = .mainline :: ts) :
    step s = performWords w0 ops (issued rest (1 + ops.length) { s with turns := ts }) := by
  rcases step_contested hcmd hedges with ⟨hfirst, -⟩ | ⟨-, e⟩
  · rw [edgeGoesFirst_listed hturns] at hfirst
    cases hfirst
  · rw [e, afterTurn_listed hturns]

/-- Where the next listed turn is the edge agent's, the step is the edge event. -/
theorem step_edgeTurn {s : State} {w0 w : Word} {ops rest ws : List Word} {ts : List Agent}
    (hcmd : takeCommand s.cfg s.cmds = some (w0, ops, rest)) (hedges : s.edges = w :: ws) (hturns : s.turns = .edge :: ts) :
    step s = .next (edgeEvent w { s with edges := ws, turns := ts }) := by
  rcases step_contested hcmd hedges with ⟨-, e⟩ | ⟨hfirst, -⟩
  · rw [e, afterTurn_listed hturns]
  · rw [edgeGoesFirst_listed hturns] at hfirst
    cases hfirst

/-- Where no turn is listed, the step is either, and one draw is taken (log 7). -/
theorem step_freeTurn {s : State} {w0 w : Word} {ops rest ws : List Word}
    (hcmd : takeCommand s.cfg s.cmds = some (w0, ops, rest)) (hedges : s.edges = w :: ws) (hturns : s.turns = []) :
    step s = performWords w0 ops (issued rest (1 + ops.length) { s with draws := s.draws + 1 }) ∨
    step s = .next (edgeEvent w { s with edges := ws, draws := s.draws + 1 }) := by
  rcases step_contested hcmd hedges with ⟨-, e⟩ | ⟨-, e⟩
  · exact .inr (by rw [e, afterTurn_unlisted hturns])
  · exact .inl (by rw [e, afterTurn_unlisted hturns])

/-- Settles O7: the words are taken as the command they decode to, whose meaning is then the step wherever the mainline agent
moves. -/
theorem stepRunsDecodedCommand : Obligations.StepRunsDecodedCommand := by
  intro s w0 ops rest i hcmds hlen hdecode
  have hcmd : takeCommand s.cfg s.cmds = some (w0, ops, rest) := hcmds ▸ takeCommand_eq s.cfg w0 ops rest hlen
  refine ⟨fun hedges => ?_, fun w ws ts hedges hturns => ?_, fun w ws hedges hturns => ?_⟩
  · exact (step_command hcmd hedges).trans (performWords_of_ok hdecode)
  · exact (step_mainlineTurn hcmd hedges hturns).trans (performWords_of_ok hdecode)
  · exact (step_freeTurn hcmd hedges hturns).imp_left fun e => e.trans (performWords_of_ok hdecode)

/-- Settles O9: the words are taken as a command that decodes to a rejection, which is then the step wherever the mainline agent
moves. -/
theorem rejectedCommandOnlySetsErr : Obligations.RejectedCommandOnlySetsErr := by
  intro s w0 ops rest r hcmds hlen hdecode rejected
  have hcmd : takeCommand s.cfg s.cmds = some (w0, ops, rest) := hcmds ▸ takeCommand_eq s.cfg w0 ops rest hlen
  refine ⟨fun hedges => ?_, fun w ws ts hedges hturns => ?_, fun w ws hedges hturns => ?_⟩
  · exact (step_command hcmd hedges).trans (performWords_of_rejected hdecode)
  · exact (step_mainlineTurn hcmd hedges hturns).trans (performWords_of_rejected hdecode)
  · exact (step_freeTurn hcmd hedges hturns).imp_left fun e => e.trans (performWords_of_rejected hdecode)

/-- Settles O10: the edge agent's step is its event; where no turn is listed it is that or the command, performed or rejected. -/
theorem stepPerformsEdgeEvent : Obligations.StepPerformsEdgeEvent := by
  intro s w ws hedges
  refine ⟨fun hcmd => step_edge hcmd hedges, fun ts hcmd hturns => ?_, ?_⟩
  · obtain ⟨⟨w0, ops, rest⟩, hcmd⟩ := Option.ne_none_iff_exists'.1 hcmd
    exact step_edgeTurn hcmd hedges hturns
  · intro w0 ops rest hcmd hturns t
    rcases step_freeTurn hcmd hedges hturns with e | e
    · cases hdecode : decode s.cfg w0 ops with
      | ok i => exact .inr (.inl ⟨i, rfl, e.trans (performWords_of_ok hdecode)⟩)
      | rejected r => exact .inr (.inr ⟨r, rfl, e.trans (performWords_of_rejected hdecode)⟩)
    · exact .inl e

/-- Settles O12: with both streams empty the next transaction is none. -/
theorem machineWaitsWithoutWords : Obligations.MachineWaitsWithoutWords := by
  intro s hcmds hedges
  rcases step_cases s with ⟨-, -, e⟩ | ⟨hne, -⟩ | ⟨w, ws, -, h, -⟩ | ⟨w0, ops, rest, -, h, -⟩
  · exact e
  · exact absurd hcmds hne
  · cases hedges.symm.trans h
  · rw [hcmds] at h
    cases h

/-- Every command answers a next state. -/
theorem exec_next (i : Instr) (s : State) : ∃ t, exec i s = .next t := by
  obtain ⟨t, -, h, -⟩ := everyCommandRespondsOnce i s
  exact ⟨t, h⟩

/-- Settles O11: an edge event, a command and a rejection all answer a next state, so a step stops only where no agent can move
and a word is left. -/
theorem stepStopsOnlyInsideACommand : Obligations.StepStopsOnlyInsideACommand := by
  intro s
  rcases step_cases s with ⟨hcmds, -, e⟩ | ⟨hne, hedges, hnone, e⟩ | ⟨w, ws, t, hedges, -, e⟩ |
    ⟨w0, ops, rest, t, htake, -, hcommand⟩
  · simp [e, hcmds]
  · have hends := ((takeCommand_none_iff _ _).1 hnone).resolve_left hne
    exact ⟨iff_of_true e ⟨hedges, hends⟩, by simp [e]⟩
  · simp [e, hedges]
  · have hwhole : ¬ ∃ w0 rest, s.cmds = w0 :: rest ∧ rest.length < operandCount s.cfg w0 := fun hends => by
      rw [(takeCommand_none_iff _ _).2 (.inr hends)] at htake
      cases htake
    obtain ⟨u, hu⟩ : ∃ u, step s = .next u := by
      rcases hcommand with ⟨i, -, e⟩ | ⟨r, -, e⟩
      · rw [e]
        exact exec_next i _
      · exact ⟨_, e⟩
    simp [hu, hwhole]

/-! ### A placed command -/

/-- The words of a table row are one header and the operand words it asks for (log 19). -/
theorem tableWords_eq (cfg : Config) (nbits w : Nat) :
    ∃ w0 ops, tableWords cfg nbits w = w0 :: ops ∧ ops.length = operandCount cfg w0 :=
  ⟨_, _, rfl, by simp⟩

/-- Settles O8: the placed words stand first in the stream, and where an edge event is left the mainline agent has the turn. -/
theorem placedWordRunsNext : Obligations.PlacedWordRunsNext := by
  intro s nbits w i hdecode
  obtain ⟨w0, ops, hwords, hlen⟩ := tableWords_eq s.cfg nbits w
  rw [hwords, decodeWords_cons, Option.some.injEq] at hdecode
  have hcmds : (s.withFetchWord nbits w).cmds = w0 :: (ops ++ s.cmds) := by
    rw [State.withFetchWord, hwords]
    rfl
  have hruns := stepRunsDecodedCommand (s.withFetchWord nbits w) w0 ops s.cmds i hcmds hlen hdecode
  obtain ⟨hquiet, hturn, -⟩ := hruns
  rw [hwords, List.length_cons, Nat.add_comm ops.length]
  cases hedges : s.edges with
  | nil =>
    rw [hquiet hedges]
    simp [State.withFetchWord, placeCommand, hedges]
  | cons v vs =>
    rw [hturn v vs s.turns hedges (by simp [State.withFetchWord, placeCommand, hedges])]
    simp [State.withFetchWord, placeCommand, hedges]

/-! ### An edge event and a DRAIN that overlap -/

/-- The mask of an edge event holds the channels that the word signals (R130, R131). -/
theorem edgeMask_getLsbD {s : State} {w : Word} (hn : s.cfg.n ≤ 32) (c : Nat) :
    (edgeMask w s).getLsbD c = signals s w c := by
  have hbits := (edgeEvent_gains w (atomicClear s) hn).bits_of_cleared rfl c
  have hmask : (edgeEvent w (atomicClear s)).pending = edgeMask w s := by
    rw [edgeEvent_eq_atomicOr]
    exact BitVec.zero_or
  rwa [hmask] at hbits

theorem performWords_drain (s : State) : performWords 0x60000000 [] s = .next ((atomicClear s).respond s.pending) :=
  (performWords_of_ok (decode_of_checks (o := .drain) rfl rfl rfl nofun)).trans (exec_drain s)

/-- Settles O22: whoever goes first, the event's mask is the same, and it is taken by the DRAIN after it or left in the latch. -/
theorem edgeOverlappingDrainIsNeverLost : Obligations.EdgeOverlappingDrainIsNeverLost := by
  intro s w hn hcmds hedges
  have hdrain : ∀ cfg, takeCommand cfg [0x60000000] = some (0x60000000, [], []) := fun cfg => takeCommand_eq cfg _ [] [] rfl
  obtain ⟨ts, n, hturn⟩ := afterTurn_eq s
  rcases step_contested (hcmds ▸ hdrain s.cfg) hedges with ⟨hfirst, hstep⟩ | ⟨hfirst, hstep⟩
  · rw [hturn, edgeEvent_eq_atomicOr] at hstep
    have hnext := step_command (s := atomicOr (edgeMask w s) { s with edges := [], turns := ts, draws := n })
      (hcmds ▸ hdrain s.cfg) rfl
    refine ⟨_, _, s.pending ||| edgeMask w s, edgeMask w s, hstep, hnext.trans (performWords_drain _), rfl, rfl, rfl,
      edgeMask_getLsbD hn, .inl ⟨rfl, rfl⟩, fun _ _ => ⟨rfl, rfl⟩, fun us hus => ?_⟩
    rw [edgeGoesFirst_listed hus] at hfirst
    cases hfirst
  · rw [hturn, performWords_drain] at hstep
    have hnext := step_edge (w := w) (ws := [])
      (s := (atomicClear (issued [] 1 { s with turns := ts, draws := n })).respond s.pending) rfl hedges
    rw [edgeEvent_eq_atomicOr] at hnext
    refine ⟨_, _, s.pending, edgeMask w s, hstep, hnext, rfl, rfl, rfl, edgeMask_getLsbD hn,
      .inr ⟨rfl, BitVec.zero_or⟩, fun us hus => ?_, fun _ _ => ⟨rfl, BitVec.zero_or⟩⟩
    rw [edgeGoesFirst_listed hus] at hfirst
    cases hfirst

end Sys2Proof.Machine

/-! PROOFS. Commands one after the other on one channel: polls of the same level (R192), and a fade between whose ticks other
commands run (R175, R177). -/

namespace Sys2Proof.Machine

open Sys2Proof

theorem execAll_cons {i : Instr} {s t : State} (is : List Instr) (h : exec i s = .next t) :
    execAll (i :: is) s = execAll is t := by
  simp only [execAll, h]

/-! ### Polls of the same level -/

/-- Polls of the level last polled, one after the other: only the responses grow (R190). -/
theorem execAll_poll_of_lastRaw {ch : ChannelField} {raw : Level} (times : List Timestamp) (s : State)
    (hch : ch.toNat < s.cfg.n) (htimes : ∀ x ∈ times, x.toNat < 2 ^ s.cfg.tsW)
    (hraw : raw = (s.chan ch.toNat).lastRaw) :
    execAll (times.map (.poll ch raw ·)) s =
      .next { s with responses := s.responses ++ List.replicate times.length ⟨.ok, 0⟩ } := by
  induction times generalizing s with
  | nil => simp [execAll]
  | cons now times ih =>
    rw [List.forall_mem_cons] at htimes
    have hhead := exec_poll_of_ignores hch htimes.1 (.inl hraw)
    rw [hraw, setChan_chan, ← hraw] at hhead
    have htail := ih (s.respond 0) hch htimes.2 hraw
    rw [List.map_cons, execAll_cons _ hhead, List.length_cons, List.replicate_succ, List.append_cons]
    exact htail

/-- Settles O34: the first poll records the level and no more, and every later one finds that level recorded. -/
theorem rejectedRawChangeIsConsumed : Obligations.RejectedRawChangeIsConsumed := by
  intro s ch raw now later hlen hch hnow hlater old hvalid hwindow
  have hrejects : debounceRejects s.cfg old now = true := (debounceRejects_iff _ _ _).2 ⟨hvalid, hwindow⟩
  have hfirst := exec_poll_of_ignores hch hnow
    (.inr ((resolverAccepts_eq_false_iff s.cfg raw now old).2 (.inl hrejects)))
  have hrecorded : raw = (((s.setChan ch.toNat { old with lastRaw := raw }).respond 0).chan ch.toNat).lastRaw := by
    rw [chan_respond, chan_setChan_same s _ (hlen ▸ hch)]
  have hrest := execAll_poll_of_lastRaw later ((s.setChan ch.toNat { old with lastRaw := raw }).respond 0)
    hch hlater hrecorded
  rw [execAll_cons _ hfirst, List.replicate_succ, List.append_cons]
  exact hrest

/-! ### The fade of one channel among other commands -/

/-- What the fade of a channel reads and writes, but for the duty register that follows the level. -/
def Channel.fade (ch : Channel) : Intensity × Intensity × Bool := (ch.cur, ch.tgt, ch.fading)

theorem Channel.fade_eq_iff (a b : Channel) : a.fade = b.fade ↔ a.cur = b.cur ∧ a.tgt = b.tgt ∧ a.fading = b.fading := by
  simp [Channel.fade]

/-- A tick's outcome for the fade depends on the fade alone (R172). -/
theorem tickIfFading_fade {cfg : Config} {a b : Channel} (h : a.fade = b.fade) :
    (tickIfFading cfg a).fade = (tickIfFading cfg b).fade := by
  rw [Channel.fade_eq_iff] at h
  obtain ⟨hcur, htgt, hfading⟩ := h
  unfold tickIfFading
  rw [hfading]
  split <;> simp [Channel.fade, tickChannel, hcur, htgt, hfading]

theorem iterate_tickIfFading_fade {cfg : Config} {a b : Channel} (h : a.fade = b.fade) (j : Nat) :
    ((tickIfFading cfg)^[j] a).fade = ((tickIfFading cfg)^[j] b).fade := by
  induction j generalizing a b with
  | zero => exact h
  | succ j ih => exact ih (tickIfFading_fade h)

theorem Channel.WritesOnly.fade_eq {o : Opcode} {ch ch' : Channel} (h : ch.WritesOnly o ch')
    (ho : o ∉ [Opcode.retarget, .tick, .poll, .process, .reset]) : ch'.fade = ch.fade := by
  simp only [List.mem_cons, not_or] at ho
  rw [Channel.fade_eq_iff]
  exact ⟨h.cur (by simp [ho]), h.tgt (by simp [ho]), h.fading (by simp [ho])⟩

/-- A command that is no RESET and no PROCESS, and no RETARGET, TICK or POLL of channel `ch`, leaves the fade of `ch` as it is. -/
theorem effect_fade {i : Instr} {s : State} {ch : ChannelField} (hwf : i.wf s.cfg = true)
    (hglobal : i ≠ .reset ∧ i ≠ .process) (hretarget : ∀ on, i ≠ .retarget ch on) (htick : i ≠ .tick ch)
    (hpoll : ∀ raw now, i ≠ .poll ch raw now) : ((effect i s).chan ch.toNat).fade = (s.chan ch.toNat).fade := by
  have hother : ∀ d : ChannelField, d ≠ ch → d.toNat ≠ ch.toNat := fun d hd h => hd (BitVec.eq_of_toNat_eq h)
  cases i with
  | reset | process => simp at hglobal
  | retarget d on => exact congrArg _ (chan_setChan_ne s _ (hother d fun h => hretarget on (h ▸ rfl)))
  | poll d raw now => exact congrArg _ (chan_setChan_ne s _ (hother d fun h => hpoll raw now (h ▸ rfl)))
  | tick d =>
    have hne := hother d fun h => htick (h ▸ rfl)
    simp only [effect, tickAt]
    split
    · exact congrArg _ (chan_setChan_ne s _ hne)
    · rfl
  | _ => exact (ChannelTurns.writesOnly ((effect_evolves hwf).chans ch.toNat)).fade_eq (by simp [Instr.opcode])

/-- One command among those of R177: a TICK of the channel ticks it, every other one leaves its fade. -/
theorem exec_fade {i : Instr} {s : State} {ch : ChannelField} (hlen : s.chans.length = s.cfg.n) (hch : ch.toNat < s.cfg.n)
    (hi : i ≠ .reset ∧ i ≠ .process ∧ (∀ on, i ≠ .retarget ch on) ∧ (∀ raw now, i ≠ .poll ch raw now)) :
    ∃ t, exec i s = .next t ∧ t.cfg = s.cfg ∧ t.chans.length = s.chans.length ∧
      (t.chan ch.toNat).fade =
        ((tickIfFading s.cfg)^[if i = .tick ch then 1 else 0] (s.chan ch.toNat)).fade := by
  obtain ⟨hreset, hprocess, hretarget, hpoll⟩ := hi
  by_cases htick : i = .tick ch
  · subst htick
    refine ⟨_, exec_tick s hch, by simp, by simp, ?_⟩
    rw [chan_respond, chan_tickAt_same s (hlen ▸ hch), if_pos rfl]
    rfl
  · rw [if_neg htick]
    rcases exec_cases i s with ⟨-, e⟩ | ⟨hwf, v, e⟩
    · exact ⟨_, e, rfl, rfl, rfl⟩
    · have heffect := effect_evolves hwf
      exact ⟨_, e, heffect.cfg, heffect.length, effect_fade hwf ⟨hreset, hprocess⟩ hretarget htick hpoll⟩

/-- Commands of R177 one after the other: the fade of the channel makes as many ticks as there are TICKs of the channel among
them. -/
theorem execAll_fade (xs : List Instr) (s : State) {ch : ChannelField} (hlen : s.chans.length = s.cfg.n)
    (hch : ch.toNat < s.cfg.n)
    (hxs : ∀ i ∈ xs, i ≠ .reset ∧ i ≠ .process ∧ (∀ on, i ≠ .retarget ch on) ∧ (∀ raw now, i ≠ .poll ch raw now)) :
    ∃ t, execAll xs s = .next t ∧
      (t.chan ch.toNat).fade = ((tickIfFading s.cfg)^[xs.count (.tick ch)] (s.chan ch.toNat)).fade := by
  induction xs generalizing s with
  | nil => exact ⟨s, rfl, rfl⟩
  | cons i xs ih =>
    rw [List.forall_mem_cons] at hxs
    obtain ⟨t, ht, hcfg, hlength, hfade⟩ := exec_fade hlen hch hxs.1
    obtain ⟨u, hu, hfades⟩ := ih t (by rw [hlength, hcfg, hlen]) (hcfg ▸ hch) hxs.2
    refine ⟨u, (execAll_cons _ ht).trans hu, ?_⟩
    rw [hfades, hcfg, iterate_tickIfFading_fade hfade, ← Function.iterate_add_apply, List.count_cons]
    simp only [beq_iff_eq]

/-- Settles O30: the fade has made as many ticks as there are TICKs of the channel, and these take it as in O29. -/
theorem fadeIsIndependentOfOtherCommands : Obligations.FadeIsIndependentOfOtherCommands := by
  intro s ch xs hlen hch hstep hxs a z f k j hfading hoff
  obtain ⟨t, ht, hfade⟩ := execAll_fade xs s hlen hch hxs
  obtain ⟨hcur, htgt, hflag⟩ := (Channel.fade_eq_iff _ _).1 hfade
  have hmoves : (s.chan ch.toNat).cur ≠ (s.chan ch.toNat).tgt := fun h => hoff (congrArg BitVec.toNat h)
  have hfades : (s.chan ch.toNat).FadesWhileOffTarget := hfading.trans (decide_eq_true hmoves).symm
  have hrests := hfades.restsAtTarget
  rw [iterate_tickIfFading_tgt] at htgt
  have hreach : (t.chan ch.toNat).cur = (t.chan ch.toNat).tgt ↔ k ≤ j := by
    rw [htgt, hcur, iterate_tickIfFading_at_target_iff _ _ hrests]
    exact (ceilTicks_le_iff hstep j).symm
  refine ⟨t, ht, htgt, ?_, hreach, ?_⟩
  · rw [hcur, iterate_tickIfFading_cur _ _ hrests]
    exact saturatingStep_eq_ite _ _ _
  · rw [hflag, hfades.iterate_tick s.cfg, decide_eq_decide, iterate_tickIfFading_tgt, ← hcur, ← htgt, ne_eq, hreach,
      Nat.not_le]

end Sys2Proof.Machine

/-! PROOFS. PROCESS (R200 to R204): its phases 1 and 2 take each channel through turns of a poll, which leave the level and mark a
changed target as a fade; its phase 3 is one map over the channels. With the draws listed the sampling phases are maps as well
(R69, R70). -/

namespace Sys2Proof.Machine

open Sys2Proof

/-! ### What PROCESS leaves alone -/

/-- A sampled turn by a function that keeps a part of the channel keeps that part of every channel. -/
theorem withSample_field {α : Type} {φ : Channel → α} {f : Config → Level → Timestamp → Channel → Channel}
    (hf : ∀ cfg raw now ch, φ (f cfg raw now ch) = φ ch) (c : Nat) (s : State) (d : Nat) :
    φ ((withSample f c s).chan d) = φ (s.chan d) := by
  rcases withSample_chan f c s d with e | ⟨raw, now, e⟩
  · rw [e]
  · rw [e, hf]

theorem resolveAndRetarget_lastRaw (cfg : Config) (raw : Level) (now : Timestamp) (ch : Channel) :
    (resolveAndRetarget cfg raw now ch).lastRaw = ch.lastRaw := by
  obtain ⟨-, -, -, hraw, -⟩ := resolveAndRetarget_frame cfg raw now ch
  exact hraw

theorem edgePath_pollEn (m : BitVec 32) (s : State) : (edgePath m s).pollEn = s.pollEn :=
  forChannels_preserves State.pollEn s _ fun c t => by
    unfold edgePathAt
    split <;> simp [withSample_eq]

/-- With polling off, PROCESS leaves every `LAST_RAW` (R201). -/
theorem processDrained_lastRaw (m : BitVec 32) {s : State} {c : Nat} (hpoll : s.pollEn = false) :
    ((processDrained m s).chan c).lastRaw = (s.chan c).lastRaw := by
  have hedge : ∀ d, ((edgePath m s).chan d).lastRaw = (s.chan d).lastRaw := fun d =>
    forChannels_preserves (fun t => (t.chan d).lastRaw) s _ fun c t => by
      unfold edgePathAt
      split
      · exact withSample_field resolveAndRetarget_lastRaw c t d
      · rfl
  have hoff : pollPath (edgePath m s) = edgePath m s := by
    simp [pollPath, edgePath_pollEn, hpoll]
  rw [processDrained, hoff]
  refine (forChannels_preserves (fun t => (t.chan c).lastRaw) _ _ fun d t => ?_).trans (hedge c)
  rcases tickAt_chan d t c with e | ⟨-, e⟩ <;> rw [e]
  rfl

/-- Settles O35: PROCESS is an effect of its opcode, whose turns write no pin and no polarity, and with polling off no turn
records a level. -/
theorem processFrame : Obligations.ProcessFrame := by
  intro s
  have h := Evolves.processDrained s.pending (atomicClear s)
  refine ⟨_, exec_process s, by simp, by simp, h.trace, h.clock, h.cfg, by simp, by simp, by simp, h.faultMark, h.cpos, h.cmds,
    h.edges, h.turns, h.length, fun c => ?_⟩
  obtain ⟨hled, hsns, hpol, -⟩ := ChannelTurns.writesOnly (h.chans c)
  exact ⟨hled (by decide), hsns (by decide), hpol (by decide),
    processDrained_lastRaw s.pending (s := atomicClear s) (c := c)⟩

/-! ### Phase 3 as one map -/

/-- Phase 3 ticks every fading channel and emits their duty events (R201). -/
theorem fadePath_eq_map (s : State) (hlen : s.chans.length = s.cfg.n) :
    fadePath s = { s with
      chans := s.chans.map (tickIfFading s.cfg), trace := s.trace ++ tickEvents s.cfg s.chans } := by
  rw [fadePath_eq s hlen, tickEvents, hlen]
  congr 1
  rw [← map_chan_range s hlen, List.map_map]
  rfl

/-! ### PROCESS with its draws listed -/

theorem sampledChannels_length (s : State) (sampled : Nat → Bool) (f : Config → Level → Timestamp → Channel → Channel)
    (raws : List Level) (ds : List Nat) : (sampledChannels s sampled f raws ds).length = s.cfg.n := by
  simp [sampledChannels]

/-- Phase 1 with its draws listed (R201). -/
theorem edgePath_listed {m : BitVec 32} {s : State} {sampled : Nat → Bool} {raws restS : List Level} {ds restT : List Nat}
    (hsampled : ∀ c, sampled c = (m.getLsbD c && pollSamples s c)) (hlen : s.chans.length = s.cfg.n)
    (hs : s.samples = raws ++ restS) (ht : s.timeSteps = ds ++ restT) (hr : raws.length = drawsBelow sampled s.cfg.n)
    (hd : ds.length = raws.length) :
    edgePath m s = { s with
      chans := sampledChannels s sampled resolveAndRetarget raws ds
      samples := restS, timeSteps := restT, clock := s.clock + ds.sum } :=
  sampling_loop_eq s sampled resolveAndRetarget raws restS ds restT hlen hs ht hr (hd.trans hr) _
    fun c t _ hcfg hchan => by rw [edgePathAt, hcfg, hchan, hsampled]; rfl

/-- Phase 2 with its draws listed; with polling off it takes none (R201). -/
theorem pollPath_listed {s : State} {sampled : Nat → Bool} {raws restS : List Level} {ds restT : List Nat}
    (hsampled : ∀ c, sampled c = pollSamples s c) (hlen : s.chans.length = s.cfg.n)
    (hs : s.samples = raws ++ restS) (ht : s.timeSteps = ds ++ restT)
    (hr : raws.length = if s.pollEn then drawsBelow sampled s.cfg.n else 0) (hd : ds.length = raws.length) :
    pollPath s = { s with
      chans := if s.pollEn then sampledChannels s sampled pollChannel raws ds else s.chans
      samples := restS, timeSteps := restT, clock := s.clock + ds.sum } := by
  unfold pollPath
  by_cases hpoll : s.pollEn = true
  · simp only [hpoll, if_true] at hr ⊢
    rw [sampling_loop_eq s sampled pollChannel raws restS ds restT hlen hs ht hr (hd.trans hr) pollPathAt
      fun c t _ hcfg hchan => by rw [pollPathAt, hcfg, hchan, hsampled]; rfl]
    rw [hpoll]
  · rw [if_neg hpoll] at hr ⊢
    obtain rfl : raws = [] := List.eq_nil_of_length_eq_zero hr
    obtain rfl : ds = [] := List.eq_nil_of_length_eq_zero hd
    obtain rfl : s.samples = restS := hs
    obtain rfl : s.timeSteps = restT := ht
    rw [if_neg hpoll]
    rfl

theorem edgePath_snsPin (m : BitVec 32) (s : State) (c : Nat) :
    ((edgePath m s).chan c).snsPin = (s.chan c).snsPin :=
  forChannels_preserves (fun t => (t.chan c).snsPin) s _ fun d t => (latchBlind_edgePathAt m d).snsPin t c

@[simp] theorem edgePath_cfg (m : BitVec 32) (s : State) : (edgePath m s).cfg = s.cfg :=
  forChannels_preserves State.cfg s _ fun d t => (latchBlind_edgePathAt m d).cfg t

/-- Phase 1 rebinds no sensor, so phase 2 samples what the state before it says. -/
theorem pollSamples_edgePath (m : BitVec 32) (s : State) (c : Nat) : pollSamples (edgePath m s) c = pollSamples s c := by
  simp only [pollSamples, Channel.snsOk, edgePath_snsPin, edgePath_cfg]

/-- Settles O37: with their draws listed the two sampling phases are one map each, and phase 3 is another. -/
theorem processResolvesPollsAndTicks : Obligations.ProcessResolvesPollsAndTicks := by
  intro s raws₁ raws₂ restS ds₁ ds₂ restT hlen hs ht hr₁ hd₁ hr₂ hd₂ resolved polled
  have hedge := edgePath_listed (m := s.pending) (s := atomicClear s) (sampled := edgeSamples s) (fun _ => rfl) hlen
    (hs.trans (List.append_assoc ..)) (ht.trans (List.append_assoc ..)) hr₁ hd₁
  have hsampled := pollSamples_edgePath s.pending (atomicClear s)
  rw [hedge] at hsampled
  have hpoll := pollPath_listed (sampled := pollSamples s) (fun c => (hsampled c).symm)
    (sampledChannels_length (atomicClear s) (edgeSamples s) resolveAndRetarget raws₁ ds₁) rfl rfl hr₂ hd₂
  have hlength : polled.length = s.cfg.n := by
    simp only [polled]
    split <;> exact sampledChannels_length ..
  rw [exec_process, processDrained, hedge, hpoll, fadePath_eq_map _ hlength]
  rfl

/-- A phase that samples no channel leaves them all. -/
theorem sampledChannels_of_none {s : State} {sampled : Nat → Bool} (hlen : s.chans.length = s.cfg.n)
    (h : ∀ c < s.cfg.n, sampled c = false) (f : Config → Level → Timestamp → Channel → Channel) (raws : List Level)
    (ds : List Nat) : sampledChannels s sampled f raws ds = s.chans := by
  rw [← map_chan_range s hlen]
  refine List.map_congr_left fun c hc => ?_
  rw [h c (List.mem_range.1 hc)]
  rfl

theorem drawsBelow_eq_zero {sampled : Nat → Bool} {n : Nat} (h : ∀ c < n, sampled c = false) : drawsBelow sampled n = 0 := by
  rw [drawsBelow, List.length_eq_zero_iff, List.filter_eq_nil_iff]
  intro c hc
  rw [h c (List.mem_range.1 hc)]
  decide

/-- Settles O36: it is O37 with no draw: no channel is sampled in phase 1, and phase 2 is off. -/
theorem quietProcessOnlyTicks : Obligations.QuietProcessOnlyTicks := by
  intro s hlen hpoll hquiet
  have hnone : ∀ c < s.cfg.n, edgeSamples s c = false := fun c hc => by
    rw [edgeSamples, ← Bool.not_eq_true, Bool.and_eq_true, Channel.snsOk, validPin, decide_eq_true_eq]
    exact fun ⟨hbit, hvalid⟩ => Nat.not_le.2 (hquiet c hc hbit) hvalid
  have hprocess := processResolvesPollsAndTicks s [] [] s.samples [] [] s.timeSteps hlen rfl rfl
    (drawsBelow_eq_zero hnone).symm rfl (by simp [hpoll]) rfl
  simpa [hpoll, sampledChannels_of_none hlen hnone] using hprocess

/-! ### The level and the target over a PROCESS -/

/-- A change of the target is marked as a fade, and no fade is ended: what a turn of a poll does to `FADING` (R170, R190). -/
def Channel.MarksRetarget (ch ch' : Channel) : Prop := ch'.fading = false → ch.fading = false ∧ ch'.tgt = ch.tgt

theorem retargetChannel_marksRetarget (cfg : Config) (on : Bool) (ch : Channel) :
    ch.MarksRetarget (retargetChannel cfg on ch) := by
  rw [retargetChannel_eq]
  simp [Channel.MarksRetarget]

theorem resolveAndRetarget_marksRetarget (cfg : Config) (raw : Level) (now : Timestamp) (ch : Channel) :
    ch.MarksRetarget (resolveAndRetarget cfg raw now ch) := by
  cases h : resolverAccepts cfg raw now ch
  · rw [resolveAndRetarget_of_ignores h]
    exact fun hrest => ⟨hrest, rfl⟩
  · rw [resolveAndRetarget_of_accepts h]
    exact retargetChannel_marksRetarget cfg _ { ch with lastTrig := now, tsValid := true, doorOpen := logicalOpen ch raw }

theorem ChannelTurn.marksRetarget {cfg : Config} {ch ch' : Channel} (h : ChannelTurn cfg .poll ch ch') :
    ch.MarksRetarget ch' := by
  cases h with
  | sample raw ch _ => exact resolveAndRetarget_marksRetarget cfg raw _ ch
  | poll raw ch _ =>
    unfold pollChannel
    split
    · exact fun hrest => ⟨hrest, rfl⟩
    · exact resolveAndRetarget_marksRetarget cfg raw _ ch

theorem ChannelTurns.marksRetarget {cfg : Config} {ch ch' : Channel} (h : ChannelTurns cfg .poll ch ch') :
    ch.MarksRetarget ch' := by
  induction h with
  | refl => exact fun hrest => ⟨hrest, rfl⟩
  | tail _ hturn ih =>
    intro hrest
    obtain ⟨hrest', htgt'⟩ := hturn.marksRetarget hrest
    obtain ⟨hrest'', htgt''⟩ := ih hrest'
    exact ⟨hrest'', htgt'.trans htgt''⟩

theorem samplingPhases_trace (m : BitVec 32) (s : State) : (pollPath (edgePath m s)).trace = s.trace := by
  have hsample : ∀ f c t, (withSample f c t).trace = t.trace := fun f c t => by simp [withSample_eq]
  have hedge : (edgePath m s).trace = s.trace := forChannels_preserves State.trace s _ fun c t => by
    unfold edgePathAt
    split
    · exact hsample _ c t
    · rfl
  refine Eq.trans ?_ hedge
  unfold pollPath
  split
  · exact forChannels_preserves State.trace _ _ fun c t => by
      unfold pollPathAt
      split
      · exact hsample _ c t
      · rfl
  · rfl

/-- What a PROCESS does to each channel: turns of a poll, with no event, and then a tick if it is fading, with its event (R201). -/
theorem exec_process_cases {s t : State} (hlen : s.chans.length = s.cfg.n) (h : exec .process s = .next t) :
    ∃ p : State, p.chans.length = s.cfg.n ∧ (∀ c, ChannelTurns s.cfg .poll (s.chan c) (p.chan c)) ∧ t.cfg = s.cfg ∧
      (∀ c < s.cfg.n, t.chan c = tickIfFading s.cfg (p.chan c)) ∧ t.trace = s.trace ++ tickEvents s.cfg p.chans := by
  have hpolls := Evolves.samplingPhases s.pending (atomicClear s)
  have htrace := samplingPhases_trace s.pending (atomicClear s)
  cases (exec_process s).symm.trans h
  generalize hp : pollPath (edgePath s.pending (atomicClear s)) = p at hpolls htrace
  have hcfg : p.cfg = s.cfg := hpolls.cfg
  have hlength : p.chans.length = s.cfg.n := hpolls.length.trans hlen
  refine ⟨p, hlength, hpolls.chans, ?_, fun c hc => ?_, ?_⟩
  all_goals rw [processDrained, hp, fadePath_eq_map p (hlength.trans (congrArg Config.n hcfg.symm)), hcfg]
  · rfl
  · rw [chan_respond, chan_eq_getElem _ (by simpa [hlength] using hc), chan_eq_getElem p (hlength ▸ hc)]
    simp
  · exact congrArg (· ++ _) htrace

/-- Phase 3 emits one duty event for each channel that was fading, at its new level (R201, R266). -/
theorem duty_mem_tickEvents (cfg : Config) (p : State) (c : Nat) (v : Intensity) :
    Event.duty c v ∈ tickEvents cfg p.chans ↔
      c < p.chans.length ∧ (p.chan c).fading = true ∧ v = (tickChannel cfg (p.chan c)).cur := by
  have hcur : ∀ ch, (tickChannel cfg ch).duty = (tickChannel cfg ch).cur := fun _ => rfl
  simp only [tickEvents, List.mem_flatMap, List.mem_range, hcur]
  constructor
  · rintro ⟨d, hd, hmem⟩
    split at hmem
    next hfading =>
      simp only [List.mem_singleton, Event.duty.injEq] at hmem
      obtain ⟨rfl, rfl⟩ := hmem
      exact ⟨hd, hfading, rfl⟩
    next => cases hmem
  · rintro ⟨hc, hfading, rfl⟩
    refine ⟨c, hc, ?_⟩
    have hfading' : (p.chans.getD c default).fading = true := hfading
    rw [if_pos hfading']
    exact List.mem_singleton.2 rfl

/-- A tick leaves a channel that rests at its target, or fades, marked as fading exactly while it is off its target (R39). -/
theorem Channel.RestsAtTarget.tick_fades {ch : Channel} (h : ch.RestsAtTarget) (cfg : Config) :
    (tickIfFading cfg ch).FadesWhileOffTarget := by
  cases hf : ch.fading
  · simp [tickIfFading, hf, Channel.FadesWhileOffTarget, h hf]
  · simp only [tickIfFading, hf, if_true, Channel.FadesWhileOffTarget, tickChannel_of_fading hf]

/-- Turns of a poll keep a resting channel at its target: they leave the level, and mark a new target as a fade. -/
theorem ChannelTurns.restsAtTarget {cfg : Config} {ch ch' : Channel} (h : ChannelTurns cfg .poll ch ch')
    (hrests : ch.RestsAtTarget) : ch'.RestsAtTarget := by
  intro hrest
  obtain ⟨hrest', htgt⟩ := h.marksRetarget hrest
  rw [htgt, (ChannelTurns.writesOnly h).cur (by decide), hrests hrest']

theorem State.Inv.restsAtTarget {s : State} (h : s.Inv) {c : Nat} (hc : c < s.cfg.n) : (s.chan c).RestsAtTarget := by
  obtain ⟨-, hlen, -, hok, -⟩ := h
  obtain ⟨-, -, -, hrests, -⟩ := hok _ (chan_mem s (hlen ▸ hc))
  exact hrests

/-- Settles O55: a tick leaves the mark and the register right; over a PROCESS the channels with a duty event are those that phase 3
finds fading, and the others have kept target and level. -/
theorem fadingMeansOffTargetAfterATick : Obligations.FadingMeansOffTargetAfterATick := by
  intro s t hinv
  obtain ⟨-, hlen, -⟩ := id hinv
  constructor
  · intro ch hch hfading hexec
    cases (exec_tick s hch).symm.trans hexec
    rw [chan_respond, chan_tickAt_same s (hlen ▸ hch)]
    refine ⟨(hinv.restsAtTarget hch).tick_fades s.cfg, ?_⟩
    rw [tickIfFading, if_pos hfading]
    rfl
  · intro hexec c hc
    obtain ⟨p, hlength, hturns, -, hticks, htrace⟩ := exec_process_cases hlen hexec
    have hrests := ChannelTurns.restsAtTarget (hturns c) (hinv.restsAtTarget hc)
    have hevent : ∀ v, Event.duty c v ∈ t.trace.drop s.trace.length ↔
        (p.chan c).fading = true ∧ v = (tickChannel s.cfg (p.chan c)).cur := fun v => by
      rw [htrace, List.drop_left, duty_mem_tickEvents, hlength]
      exact and_iff_right hc
    have hticked : (p.chan c).fading = true → t.chan c = tickChannel s.cfg (p.chan c) := fun hf =>
      (hticks c hc).trans (if_pos hf)
    refine ⟨?_, fun v hv => ?_, fun hcause => ?_⟩
    · rw [hticks c hc]
      exact hrests.tick_fades s.cfg
    · obtain ⟨hf, rfl⟩ := (hevent v).1 hv
      rw [hticked hf]
      exact ⟨rfl, rfl⟩
    · have hf : (p.chan c).fading = true := by
        by_contra hrest
        rw [Bool.not_eq_true] at hrest
        obtain ⟨hbefore, htgt⟩ := (hturns c).marksRetarget hrest
        have hsame : t.chan c = p.chan c := by simp [hticks c hc, tickIfFading, hrest]
        simp [hsame, hrest, hbefore, htgt] at hcause
      rw [hevent, hticked hf]
      exact ⟨⟨hf, rfl⟩, rfl⟩

/-- Settles O39: the turns of a poll keep the target following the door and leave the level, and the tick after them is one
saturating step that leaves `FADING` set exactly off the target. -/
theorem processMovesTheObservableState : Obligations.ProcessMovesTheObservableState := by
  intro s t c hinv hfollows hc hexec target from'
  obtain ⟨⟨-, -, hwrap, -⟩, hlen, -⟩ := id hinv
  obtain ⟨p, hlength, hturns, hcfg, hticks, -⟩ := exec_process_cases hlen hexec
  have hrests := ChannelTurns.restsAtTarget (hturns c) (hinv.restsAtTarget hc)
  have hfollows' : (p.chan c).FollowsDoor s.cfg :=
    ChannelTurns.keep (fun _ _ hturn => hturn.followsDoor (by decide)) (hturns c) (hfollows _ (chan_mem s (hlen ▸ hc)))
  have hdoor : (t.chan c).doorOpen = (p.chan c).doorOpen := by
    rw [hticks c hc, tickIfFading]
    split <;> rfl
  have htgt : (t.chan c).tgt = target := by
    rw [hticks c hc, tickIfFading_tgt, hfollows', ← hdoor]
  have hcur : (t.chan c).cur.toNat = saturatingStep s.cfg.fadeStep.toNat from' target.toNat := by
    have hlevel : (p.chan c).cur = (s.chan c).cur := (ChannelTurns.writesOnly (hturns c)).cur (by decide)
    rw [hticks c hc, tickIfFading_tgt] at htgt
    rw [hticks c hc, tickIfFading_cur s.cfg hrests, hlevel, htgt]
  have hfading : (t.chan c).fading = decide ((t.chan c).cur ≠ (t.chan c).tgt) := by
    rw [hticks c hc]
    exact hrests.tick_fades s.cfg
  refine ⟨htgt, hcur.trans (saturatingStep_eq_ite _ _ _), ?_⟩
  have hends : 0#16 ≠ s.cfg.wrap := fun h => by simp [← h] at hwrap
  have hup : target = s.cfg.wrap ↔ (t.chan c).doorOpen = true := by
    cases hopen : (t.chan c).doorOpen <;> simp [target, hopen, hends]
  rw [obs, Channel.obs, hfading, htgt, hcfg]
  by_cases hat : (t.chan c).cur = target <;> simp [hat, hup]

end Sys2Proof.Machine

/-! PROOFS. PROCESS with draws that no list answers (R69, R70, logs 4 and 5): a part of PROCESS that takes `k` samples and `k`
time steps does what it does with some `k` of each listed. The parts compose, and the lists with them. -/

namespace Sys2Proof.Machine

open Sys2Proof

/-! ### Parts that take draws -/

/-- The state with other lists of draws and another count of free values. -/
def relist (rs : List Level) (ts : List Nat) (n : Nat) (s : State) : State :=
  { s with samples := rs, timeSteps := ts, draws := n }

/-- One list goes on where the other ends, or ends where the other goes on: they agree as far as both go. -/
def Agree {α : Type} (xs ys : List α) : Prop := xs <+: ys ∨ ys <+: xs

theorem Agree.nil {α : Type} (ys : List α) : Agree [] ys := .inl List.nil_prefix

/-- Lists that agree, then lists that agree with what is left. -/
theorem Agree.append {α : Type} {xs xs' ys : List α} (h : Agree xs ys) (h' : Agree xs' (ys.drop xs.length)) :
    Agree (xs ++ xs') ys := by
  rcases h with ⟨zs, rfl⟩ | h
  · rw [List.drop_left] at h'
    exact h'.imp (List.prefix_append_right_inj xs).2 (List.prefix_append_right_inj xs).2
  · exact .inr (h.trans (List.prefix_append xs xs'))

/-- From `s`, the part `f` takes the samples `raws` and the time steps `ds`, listed or not: it takes as many entries off the
lists, and with these listed, and anything after them, it does the same and leaves what is after them. -/
structure TakesDraws (f : State → State) (s : State) (raws : List Level) (ds : List Nat) : Prop where
  /-- A time step is taken with every sample. -/
  length : ds.length = raws.length
  /-- The samples are the listed ones, as far as these go. -/
  agreeSamples : Agree raws s.samples
  /-- The time steps are the listed ones, as far as these go. -/
  agreeSteps : Agree ds s.timeSteps
  /-- The listed samples taken are gone. -/
  samples : (f s).samples = s.samples.drop raws.length
  /-- The listed time steps taken are gone. -/
  timeSteps : (f s).timeSteps = s.timeSteps.drop raws.length
  /-- With the draws listed it does the same. -/
  listed : ∀ rs ts n, f (relist (raws ++ rs) (ds ++ ts) n s) = relist rs ts n (f s)

/-- A part that the lists can be moved past takes no draw. -/
theorem TakesDraws.none {f : State → State} {s : State} (hf : ∀ rs ts n, f (relist rs ts n s) = relist rs ts n (f s)) :
    TakesDraws f s [] [] := by
  have hself : f s = relist s.samples s.timeSteps s.draws (f s) := hf s.samples s.timeSteps s.draws
  exact ⟨rfl, .nil _, .nil _, by rw [hself]; rfl, by rw [hself]; rfl, hf⟩

/-- One part after another takes the draws of both. -/
theorem TakesDraws.comp {f g : State → State} {s : State} {raws raws' : List Level} {ds ds' : List Nat}
    (hf : TakesDraws f s raws ds) (hg : TakesDraws g (f s) raws' ds') :
    TakesDraws (fun t => g (f t)) s (raws ++ raws') (ds ++ ds') where
  length := by rw [List.length_append, List.length_append, hf.length, hg.length]
  agreeSamples := hf.agreeSamples.append (hf.samples ▸ hg.agreeSamples)
  agreeSteps := hf.agreeSteps.append (by rw [hf.length, ← hf.timeSteps]; exact hg.agreeSteps)
  samples := by rw [hg.samples, hf.samples, List.drop_drop, List.length_append]
  timeSteps := by rw [hg.timeSteps, hf.timeSteps, List.drop_drop, List.length_append]
  listed rs ts n := by rw [List.append_assoc, List.append_assoc, hf.listed, hg.listed]

/-! ### One sampled turn -/

theorem agree_sampledLevel (p : Pin) (s : State) : Agree [sampledLevel p s] s.samples := by
  unfold sampledLevel
  split
  next l ls hs => exact .inl ⟨ls, hs.symm⟩
  next hs => exact .inr (hs ▸ List.nil_prefix)

theorem afterSample_eq (s : State) : ∃ n, afterSample s = { s with samples := s.samples.drop 1, draws := n } := by
  unfold afterSample
  split
  next l ls hs => exact ⟨s.draws, by rw [hs]; rfl⟩
  next hs => exact ⟨s.draws + 1, by simp [hs]⟩

theorem nextClock_eq (s : State) : ∃ d, Agree [d] s.timeSteps ∧ nextClock s = s.clock + d := by
  unfold nextClock
  split
  next d ds hs => exact ⟨d, .inl ⟨ds, hs.symm⟩, rfl⟩
  next hs => exact ⟨_, .inr (hs ▸ List.nil_prefix), rfl⟩

theorem afterReadTime_eq (s : State) :
    ∃ n, afterReadTime s = { s with timeSteps := s.timeSteps.drop 1, clock := nextClock s, draws := n } := by
  unfold afterReadTime
  split
  next d ds hs => exact ⟨s.draws, by rw [hs]; rfl⟩
  next hs => exact ⟨s.draws + 1, by simp [hs]⟩

/-- A sampled turn takes one sample and one time step, listed or free (R69, R70). -/
theorem withSample_drawn (c : Nat) (s : State) :
    ∃ l d n, Agree [l] s.samples ∧ Agree [d] s.timeSteps ∧ ∀ f, withSample f c s = { s with
      chans := s.chans.set c (f s.cfg l (BitVec.ofNat 64 ((s.clock + d) % 2 ^ s.cfg.tsW)) (s.chan c))
      samples := s.samples.drop 1, timeSteps := s.timeSteps.drop 1, clock := s.clock + d, draws := n } := by
  obtain ⟨n, hsample⟩ := afterSample_eq s
  obtain ⟨d, hd, hclock⟩ := nextClock_eq (afterSample s)
  obtain ⟨n', hread⟩ := afterReadTime_eq (afterSample s)
  rw [afterSample_timeSteps] at hd
  rw [afterSample_clock] at hclock
  refine ⟨_, d, n', agree_sampledLevel (s.chan c).snsPin s, hd, fun f => ?_⟩
  rw [withSample_eq, hread, readTime, hclock, hsample]
  rfl

theorem withSample_takesDraws (f : Config → Level → Timestamp → Channel → Channel) (c : Nat) (s : State) :
    ∃ l d, TakesDraws (withSample f c) s [l] [d] := by
  obtain ⟨l, d, n, hl, hd, hturn⟩ := withSample_drawn c s
  refine ⟨l, d, rfl, hl, hd, by rw [hturn]; rfl, by rw [hturn]; rfl, fun rs ts k => ?_⟩
  rw [withSample_listed f c (relist ([l] ++ rs) ([d] ++ ts) k s) l rs d ts rfl rfl, hturn]
  rfl

/-! ### The phases -/

/-- A loop whose turns sample the channels of `sampled` takes as many draws as these are, from any state with the parameters and the
sensor pins of `s`. -/
theorem foldl_takesDraws {s : State} {F : Nat → State → State} {sampled : Nat → Bool}
    {f : Config → Level → Timestamp → Channel → Channel} (hblind : ∀ c, LatchBlind (F c))
    (hF : ∀ c t, t.cfg = s.cfg → (∀ d, (t.chan d).snsPin = (s.chan d).snsPin) →
      F c t = if sampled c then withSample f c t else t) (l : List Nat) (t : State) (hcfg : t.cfg = s.cfg)
    (hpins : ∀ d, (t.chan d).snsPin = (s.chan d).snsPin) :
    ∃ raws ds, raws.length = (l.filter sampled).length ∧
      TakesDraws (fun u => l.foldl (fun v c => F c v) u) t raws ds := by
  induction l generalizing t with
  | nil => exact ⟨[], [], rfl, .none fun _ _ _ => rfl⟩
  | cons c l ih =>
    obtain ⟨raws, ds, hlen, hrest⟩ := ih (F c t) (((hblind c).cfg t).trans hcfg) fun d => ((hblind c).snsPin t d).trans (hpins d)
    have hturn := hF c t hcfg hpins
    have hrelisted : ∀ rs ts n, F c (relist rs ts n t) =
        if sampled c then withSample f c (relist rs ts n t) else relist rs ts n t :=
      fun rs ts n => hF c (relist rs ts n t) hcfg hpins
    cases hc : sampled c
    · simp only [hc, Bool.false_eq_true, if_false] at hturn hrelisted
      have hhead : TakesDraws (F c) t [] [] := .none fun rs ts n => by rw [hrelisted, hturn]
      exact ⟨_, _, by rw [List.filter_cons_of_neg (by simp [hc]), List.nil_append, hlen], hhead.comp hrest⟩
    · simp only [hc, if_true] at hturn hrelisted
      obtain ⟨raw, d, hsample⟩ := withSample_takesDraws f c t
      have hhead : TakesDraws (F c) t [raw] [d] :=
        ⟨rfl, hsample.agreeSamples, hsample.agreeSteps, by rw [hturn]; exact hsample.samples,
          by rw [hturn]; exact hsample.timeSteps, fun rs ts n => by rw [hrelisted, hturn]; exact hsample.listed rs ts n⟩
      exact ⟨_, _, by rw [List.filter_cons_of_pos hc, List.length_append, hlen, List.length_cons]; simp [Nat.add_comm],
        hhead.comp hrest⟩

theorem edgePath_takesDraws {m : BitVec 32} {s : State} {sampled : Nat → Bool}
    (hsampled : ∀ c, sampled c = (m.getLsbD c && pollSamples s c)) :
    ∃ raws ds, raws.length = drawsBelow sampled s.cfg.n ∧ TakesDraws (edgePath m) s raws ds := by
  have hloop := foldl_takesDraws (s := s) (sampled := sampled) (f := resolveAndRetarget) (latchBlind_edgePathAt m)
    (fun c t hcfg hpins => by rw [edgePathAt, hsampled, pollSamples, Channel.snsOk, Channel.snsOk, hpins, hcfg])
    (List.range s.cfg.n) s rfl fun _ => rfl
  obtain ⟨raws, ds, hlen, h⟩ := hloop
  exact ⟨raws, ds, hlen, h.length, h.agreeSamples, h.agreeSteps, h.samples, h.timeSteps, h.listed⟩

theorem pollPath_takesDraws (s : State) :
    ∃ raws ds, raws.length = (if s.pollEn then drawsBelow (pollSamples s) s.cfg.n else 0) ∧
      TakesDraws pollPath s raws ds := by
  have hloop := foldl_takesDraws (s := s) (sampled := pollSamples s) (f := pollChannel) latchBlind_pollPathAt
    (fun c t hcfg hpins => by rw [pollPathAt, pollSamples, Channel.snsOk, Channel.snsOk, hpins, hcfg])
    (List.range s.cfg.n) s rfl fun _ => rfl
  have hrelisted : ∀ rs ts n, pollPath (relist rs ts n s) =
      if s.pollEn then (relist rs ts n s).forChannels pollPathAt else relist rs ts n s := fun _ _ _ => rfl
  cases hpoll : s.pollEn
  · exact ⟨[], [], rfl, .none fun rs ts n => by simp [pollPath, relist, hpoll]⟩
  · obtain ⟨raws, ds, hlen, h⟩ := hloop
    have hon : pollPath s = s.forChannels pollPathAt := by simp [pollPath, hpoll]
    exact ⟨raws, ds, hlen, h.length, h.agreeSamples, h.agreeSteps, by rw [hon]; exact h.samples, by rw [hon]; exact h.timeSteps,
      fun rs ts n => by rw [hrelisted, hpoll, hon]; exact h.listed rs ts n⟩

theorem tickAt_relist (rs : List Level) (ts : List Nat) (n c : Nat) (s : State) :
    tickAt c (relist rs ts n s) = relist rs ts n (tickAt c s) := by
  have hchan : (relist rs ts n s).chan c = s.chan c := rfl
  unfold tickAt
  rw [hchan]
  split <;> rfl

theorem fadePath_relist (rs : List Level) (ts : List Nat) (n : Nat) (s : State) :
    fadePath (relist rs ts n s) = relist rs ts n (fadePath s) :=
  forChannels_commutes (relist rs ts n) s tickAt rfl (tickAt_relist rs ts n)

/-- The phases of PROCESS take the draws of phases 1 and 2 (R201). -/
theorem processDrained_takesDraws (s : State) :
    ∃ raws ds, raws.length = drawsBelow (edgeSamples s) s.cfg.n +
        (if s.pollEn then drawsBelow (pollSamples s) s.cfg.n else 0) ∧
      TakesDraws (processDrained s.pending) (atomicClear s) raws ds := by
  obtain ⟨raws₁, ds₁, hlen₁, hedge⟩ := edgePath_takesDraws (m := s.pending) (s := atomicClear s) (sampled := edgeSamples s)
    fun _ => rfl
  obtain ⟨raws₂, ds₂, hlen₂, hpoll⟩ := pollPath_takesDraws (edgePath s.pending (atomicClear s))
  have hsampled : pollSamples (edgePath s.pending (atomicClear s)) = pollSamples s :=
    funext (pollSamples_edgePath s.pending (atomicClear s))
  have hall := (hedge.comp hpoll).comp (.none fun rs ts n => fadePath_relist rs ts n _)
  simp only [List.append_nil] at hall
  refine ⟨raws₁ ++ raws₂, ds₁ ++ ds₂, ?_, hall⟩
  rw [List.length_append, hlen₁, hlen₂, hsampled, edgePath_cfg, edgePath_pollEn]
  rfl

/-- Settles O38: the draws that the phases take are those listed, as far as these go, and with just these listed they do the same.
-/
theorem processTakesSomeDraws : Obligations.ProcessTakesSomeDraws := by
  intro s _ k
  obtain ⟨raws, ds, hlen, h⟩ := processDrained_takesDraws s
  have hlisted := h.listed [] [] s.draws
  rw [List.append_nil, List.append_nil] at hlisted
  have hsame : processDrained s.pending (atomicClear { s with samples := raws, timeSteps := ds }) =
      relist [] [] s.draws (processDrained s.pending (atomicClear s)) := hlisted
  refine ⟨raws, ds, _, _, hlen, h.length.trans hlen, h.agreeSamples, h.agreeSteps, exec_process s,
    exec_process { s with samples := raws, timeSteps := ds }, ?_⟩
  have hk : raws.length = k := hlen
  have hsamples : (processDrained s.pending (atomicClear s)).samples = s.samples.drop k := hk ▸ h.samples
  have htimeSteps : (processDrained s.pending (atomicClear s)).timeSteps = s.timeSteps.drop k := hk ▸ h.timeSteps
  simp only [hsame, ← hsamples, ← htimeSteps]
  rfl

end Sys2Proof.Machine

/-! PROOFS. The assembler and the table of R102 and R103: what `assembleOp` takes is what `sourceForms` lists, so a line has words
exactly when it is a form of a well-formed command behind its port's beginning; and every printed form is such a line. -/

namespace Sys2Proof.Machine

open Sys2Proof

/-! ### Operand arrays -/

theorem mapM_fieldOperand_iff {vs : List Nat} {pins : List Pin} :
    vs.mapM (fieldOperand 8) = some pins ↔ pins.map BitVec.toNat = vs :=
  mapM_eq_some_iff fun _ _ => fieldOperand_eq_some_iff

/-- The polarity word of an array of bits has bit c of channel c (R97). -/
theorem getLsbD_polarity (bs : List Bool) (hlen : bs.length ≤ 32) (c : Nat) :
    (BitVec.ofNat 32 (bs.foldr (fun (b : Bool) v => 2 * v + b.toNat) 0)).getLsbD c = bs.getD c false := by
  rw [BitVec.getLsbD_ofNat, foldr_bits_testBit]
  by_cases hc : c < 32
  · simp [hc]
  · rw [decide_eq_false hc, Bool.false_and, List.getD_eq_default _ _ (hlen.trans (Nat.not_lt.1 hc))]

/-- An array of N bits is taken as a polarity word below `2 ^ N` exactly when it lists that word's bits (R97, R102). -/
theorem polarityOperand_eq_some_iff {n : Nat} (hn : n ≤ 32) {vs : List Nat} {pol : Word} (hlen : vs.length = n)
    (hpol : pol.toNat < 2 ^ n) :
    polarityOperand vs = some pol ↔ vs = (List.range n).map fun c => (pol.getLsbD c).toNat := by
  have hbits : ∀ {bs : List Bool}, vs.mapM bitOperand = some bs ↔ bs.map Bool.toNat = vs :=
    mapM_eq_some_iff fun _ _ => bitOperand_eq_some_iff
  simp only [polarityOperand, Option.map_eq_some_iff, hbits]
  constructor
  · rintro ⟨bs, rfl, rfl⟩
    rw [List.length_map] at hlen
    apply List.ext_getElem
    · simp [hlen]
    · intro c hc _
      simp only [List.getElem_map, List.getElem_range, getLsbD_polarity bs (hlen.le.trans hn)]
      rw [List.getD_eq_getElem _ _ (by simpa using hc)]
  · rintro rfl
    refine ⟨(List.range n).map pol.getLsbD, by simp, BitVec.eq_of_getLsbD_eq fun c _ => ?_⟩
    rw [getLsbD_polarity _ (by simpa using hn)]
    by_cases hc : c < n
    · simp [List.getD_eq_getElem?_getD, hc]
    · simp [List.getD_eq_getElem?_getD, hc, (pending_lt_iff pol n).1 hpol c (Nat.not_lt.1 hc)]

/-! ### One mnemonic with its operands -/

theorem mem_sourceForms_of_assembleOp {cfg : Config} {m : List Char} {inBrackets : Bool} {vs : List Nat} {i : Instr}
    (hn : cfg.n ≤ 32) (h : assembleOp m inBrackets vs = some i) (hwf : i.wf cfg = true)
    (hfits : arrayFits cfg inBrackets vs = true) : ⟨String.ofList m, inBrackets, vs⟩ ∈ sourceForms cfg i := by
  unfold assembleOp at h
  generalize String.ofList m = name at h ⊢
  split at h <;> simp only [Option.map_eq_some_iff, Option.bind_eq_bind, Option.bind_eq_some_iff, Option.some.injEq,
    fieldOperand_eq_some_iff, bitOperand_eq_some_iff, mapM_fieldOperand_iff, reduceCtorEq] at h
  case h_1 | h_2 | h_3 | h_4 | h_5 | h_6 | h_19 | h_20 =>
    subst h
    simp [sourceForms]
  case h_7 | h_8 =>
    obtain ⟨pins, rfl, rfl⟩ := h
    simp [sourceForms]
  case h_9 =>
    obtain ⟨pol, hpol, rfl⟩ := h
    have hlen : vs.length = cfg.n := by simpa [arrayFits] using hfits
    have hlt : pol.toNat < 2 ^ cfg.n := by simpa [Instr.wf] using hwf
    simp [sourceForms, ← (polarityOperand_eq_some_iff hn hlen hlt).1 hpol]
  case h_10 | h_11 | h_12 | h_17 | h_18 =>
    obtain ⟨x, rfl, rfl⟩ := h
    simp [sourceForms]
  case h_13 | h_14 =>
    obtain ⟨x, rfl, y, rfl, rfl⟩ := h
    simp [sourceForms]
  case h_15 | h_16 =>
    obtain ⟨ch, rfl, raw, rfl, now, rfl, rfl⟩ := h
    simp [sourceForms]

theorem assembleOp_of_mem_sourceForms {cfg : Config} {f : SourceForm} {i : Instr} {m : List Char} (hn : cfg.n ≤ 32)
    (hf : f ∈ sourceForms cfg i) (hm : String.ofList m = f.mnemonic) (hwf : i.wf cfg = true) :
    assembleOp m f.inBrackets f.operands = some i ∧ arrayFits cfg f.inBrackets f.operands = true := by
  have hfield : ∀ {w : Nat} (b : BitVec w), fieldOperand w b.toNat = some b := fun b => fieldOperand_eq_some_iff.2 rfl
  have hbit : ∀ b : Bool, bitOperand b.toNat = some b := fun b => bitOperand_eq_some_iff.2 rfl
  unfold assembleOp
  rw [hm]
  clear hm
  cases i with
  | reset | isinit | getpoll | stest | process | drain =>
    obtain rfl := List.mem_singleton.1 hf
    exact ⟨rfl, rfl⟩
  | setled pins | setsns pins =>
    have hlen : pins.length = cfg.n := by simpa [Instr.wf] using hwf
    obtain rfl := List.mem_singleton.1 hf
    simp [mapM_fieldOperand_iff.2 rfl, arrayFits, hlen]
  | setpol pol =>
    have hlt : pol.toNat < 2 ^ cfg.n := by simpa [Instr.wf] using hwf
    obtain rfl := List.mem_singleton.1 hf
    simp [(polarityOperand_eq_some_iff hn (by simp) hlt).2 rfl, arrayFits]
  | edge ch | tick ch =>
    obtain rfl := List.mem_singleton.1 hf
    simp [hfield, arrayFits]
  | gedge pin evm =>
    obtain rfl := List.mem_singleton.1 hf
    simp [hfield, arrayFits]
  | resolve ch raw now | poll ch raw now =>
    obtain rfl := List.mem_singleton.1 hf
    simp [hfield, hbit, arrayFits]
  | setpoll on =>
    obtain rfl | rfl : f = _ ∨ f = _ := by simpa [sourceForms] using hf
    · simp [hbit, arrayFits]
    · cases on <;> exact ⟨rfl, rfl⟩
  | retarget ch on =>
    obtain rfl | rfl : f = _ ∨ f = _ := by simpa [sourceForms] using hf
    · simp [hfield, hbit, arrayFits]
    · cases on <;> simp [hfield, arrayFits]

/-! ### Lines -/

/-- A line without its port has words exactly when it is a form of a well-formed command, and they are that command's (R102,
R103). -/
theorem assembleCommand_eq_some_iff {cfg : Config} (hn : cfg.n ≤ 32) (ts : List Token) (ws : List Word) :
    assembleCommand cfg ts = some ws ↔
      ∃ m rest inBrackets vs i, ts = .word m :: rest ∧ operands rest = some (inBrackets, vs) ∧
        ⟨String.ofList m, inBrackets, vs⟩ ∈ sourceForms cfg i ∧ i.wf cfg = true ∧ ws = encode i := by
  constructor
  · intro h
    unfold assembleCommand at h
    split at h
    next m rest =>
      simp only [Option.bind_eq_bind, Option.bind_eq_some_iff, Option.ite_none_right_eq_some, Option.some.injEq,
        Bool.and_eq_true] at h
      obtain ⟨⟨inBrackets, vs⟩, hops, i, hop, ⟨hwf, hfits⟩, rfl⟩ := h
      exact ⟨m, rest, inBrackets, vs, i, rfl, hops, mem_sourceForms_of_assembleOp hn hop hwf hfits, hwf, rfl⟩
    next => cases h
  · rintro ⟨m, rest, inBrackets, vs, i, rfl, hops, hform, hwf, rfl⟩
    obtain ⟨hop, hfits⟩ := assembleOp_of_mem_sourceForms hn hform rfl hwf
    simp [assembleCommand, hops, hop, hwf, hfits]

/-- A line of the edge port is one behind `edge:` (R102). -/
theorem assembleTokens_edge (cfg : Config) (ts : List Token) (ws : List Word) :
    assembleTokens cfg ts = some (.edge, ws) ↔
      ∃ rest, ts = portPrefix .edge ++ rest ∧ assembleCommand cfg rest = some ws := by
  unfold assembleTokens
  split
  next m rest =>
    by_cases hm : m = "edge".toList
    · subst hm
      simp [portPrefix]
    · rw [if_neg hm]
      simpa [portPrefix] using fun h => absurd h hm
  next hnot =>
    have hother : ∀ rest, ts ≠ portPrefix .edge ++ rest := fun rest h => hnot _ _ h
    simp [hother]

/-- A line of the command port has no beginning, and no operands begin with a colon (R102). -/
theorem assembleTokens_mainline (cfg : Config) (ts : List Token) (ws : List Word) :
    assembleTokens cfg ts = some (.mainline, ws) ↔ assembleCommand cfg ts = some ws := by
  unfold assembleTokens
  split
  next m rest =>
    have hcolon : operands (.colon :: rest) = none := by simp [operands, operandList]
    split <;> simp [assembleCommand, hcolon]
  next => simp

theorem assembleTokens_eq_some_iff (cfg : Config) (a : Agent) (ts : List Token) (ws : List Word) :
    assembleTokens cfg ts = some (a, ws) ↔ ∃ rest, ts = portPrefix a ++ rest ∧ assembleCommand cfg rest = some ws := by
  cases a with
  | edge => exact assembleTokens_edge cfg ts ws
  | mainline => simp [assembleTokens_mainline, portPrefix]

/-- Settles O5: behind the port's beginning a line is assembled by its mnemonic, whose forms are the table's. -/
theorem assembledLinesAreCommands : Obligations.AssembledLinesAreCommands := by
  rintro cfg line a ws ⟨-, hn, -⟩
  simp only [assembleLine, assembleTokens_eq_some_iff, assembleCommand_eq_some_iff hn]
  constructor
  · rintro ⟨_, hline, m, ts, inBrackets, vs, i, rfl, h⟩
    exact ⟨m, ts, inBrackets, vs, i, hline, h⟩
  · rintro ⟨m, ts, inBrackets, vs, i, hline, h⟩
    exact ⟨_, hline, m, ts, inBrackets, vs, i, rfl, h⟩

/-! ### The characters of a line -/

/-- A word of a line: letters and digits, at least one. -/
def IsWord (cs : List Char) : Prop := cs ≠ [] ∧ ∀ c ∈ cs, c.isAlphanum = true

/-- A word before a character that is no letter and no digit, or at the end, is a token. -/
theorem tokenize_word {w : List Char} (hw : IsWord w) {rest : List Char} (hrest : ∀ c ∈ rest.head?, c.isAlphanum = false) :
    tokenize [] (w ++ rest) = .word w :: tokenize [] rest := by
  obtain ⟨hne, halnum⟩ := hw
  rw [tokenize_append w halnum, List.append_nil, tokenize_flush _ _ hrest, flushWord]
  simp [hne]

/-- What a line may end with: nothing, or a comment (R102). -/
def IsLineEnd (cs : List Char) : Prop := cs = [] ∨ ∃ comment, cs = ';' :: comment

theorem tokenize_lineEnd {rest : List Char} (h : IsLineEnd rest) : tokenize [] rest = [] := by
  rcases h with rfl | ⟨comment, rfl⟩ <;> simp [tokenize, flushWord]

theorem head?_of_lineEnd {rest : List Char} (h : IsLineEnd rest) : ∀ c ∈ rest.head?, c.isAlphanum = false := by
  rcases h with rfl | ⟨comment, rfl⟩ <;> simp

/-- The tokens of operands separated by commas. -/
def operandTokens : List (List Char) → List Token
  | [] => []
  | [w] => [.word w]
  | w :: ws => .word w :: .comma :: operandTokens ws

/-- Operands separated by commas and blanks, before a character that is no letter and no digit, or at the end. -/
theorem tokenize_operands {texts : List (List Char)} (hwords : ∀ w ∈ texts, IsWord w) {rest : List Char}
    (hrest : ∀ c ∈ rest.head?, c.isAlphanum = false) :
    tokenize [] ([',', ' '].intercalate texts ++ rest) = operandTokens texts ++ tokenize [] rest := by
  induction texts with
  | nil => simp [operandTokens]
  | cons w ws ih =>
    obtain ⟨hw, hws⟩ := List.forall_mem_cons.1 hwords
    cases ws with
    | nil => simpa [operandTokens] using tokenize_word hw hrest
    | cons w' ws =>
      have hcomma : ∀ cs, tokenize [] (',' :: ' ' :: cs) = .comma :: tokenize [] cs := fun cs => rfl
      rw [List.intercalate_cons_cons, List.append_assoc, List.append_assoc, tokenize_word hw (by simp)]
      simp [hcomma, ih hws, operandTokens]

theorem tokenize_portPrefixText (a : Agent) (rest : List Char) :
    tokenize [] (portPrefixText a ++ rest) = portPrefix a ++ tokenize [] rest := by
  cases a <;> rfl

/-- The tokens of a printed form behind its mnemonic. -/
def formTokens (inBrackets : Bool) (texts : List (List Char)) : List Token :=
  if inBrackets then .open :: (operandTokens texts ++ [.close]) else operandTokens texts

theorem tokenize_sourceText {mnemonic : String} {inBrackets : Bool} {texts : List (List Char)} {rest : List Char}
    (hm : IsWord mnemonic.toList) (hwords : ∀ w ∈ texts, IsWord w) (hend : IsLineEnd rest) :
    tokenize [] (sourceText mnemonic inBrackets texts ++ rest) =
      .word mnemonic.toList :: formTokens inBrackets texts := by
  have hblank : ∀ cs, tokenize [] (' ' :: cs) = tokenize [] cs := fun cs => rfl
  have hopen : ∀ cs, tokenize [] ('[' :: cs) = .open :: tokenize [] cs := fun cs => rfl
  have hclose : ∀ cs, tokenize [] (']' :: cs) = .close :: tokenize [] cs := fun cs => rfl
  rw [sourceText, List.append_assoc, List.cons_append, tokenize_word hm (by simp), hblank, formTokens]
  cases inBrackets
  · simp only [Bool.false_eq_true, if_false]
    rw [tokenize_operands hwords (head?_of_lineEnd hend), tokenize_lineEnd hend, List.append_nil]
  · simp only [if_true, List.cons_append, List.append_assoc, List.nil_append, hopen]
    rw [tokenize_operands hwords (by simp), hclose, tokenize_lineEnd hend]

/-! ### The spellings of an operand -/

theorem isDigit_digitChar : ∀ d < 10, (Nat.digitChar d).isDigit = true := by decide

theorem isAlphanum_digitChar : ∀ d < 16, (Nat.digitChar d).isAlphanum = true := by decide

theorem isAlphanum_toUpper_digitChar : ∀ d < 16, (Nat.digitChar d).toUpper.isAlphanum = true := by decide

theorem hexDigit_digitChar : ∀ d < 16, hexDigit (Nat.digitChar d) = some d := by decide

theorem hexDigit_toUpper_digitChar : ∀ d < 16, hexDigit (Nat.digitChar d).toUpper = some d := by decide

theorem number_of_isDigit {cs : List Char} (h : ∀ c ∈ cs, c.isDigit = true) : number cs = digits 10 cs := by
  unfold number
  split
  next cs => simp at h
  next => rfl

theorem operand_of_not_level {cs : List Char} (hlow : 'L' ∉ cs) (hhigh : 'H' ∉ cs) : operand cs = number cs := by
  have hne : cs ≠ "LOW".toList ∧ cs ≠ "HIGH".toList :=
    ⟨fun h => hlow (h ▸ by decide), fun h => hhigh (h ▸ by decide)⟩
  simp only [operand, hne, if_false]

/-- A hexadecimal numeral with its digits in one case or the other is a word, and the assembler reads its value. -/
theorem hexNumeral_reads (v : Nat) {f : Char → Char} (halnum : ∀ d < 16, (f (Nat.digitChar d)).isAlphanum = true)
    (hread : ∀ d < 16, hexDigit (f (Nat.digitChar d)) = some d) :
    IsWord ('0' :: 'x' :: (Nat.toDigits 16 v).map f) ∧ operand ('0' :: 'x' :: (Nat.toDigits 16 v).map f) = some v := by
  have hword := forall_mem_toDigits (b := 16) (v := v) (P := fun c => (f c).isAlphanum = true) (by decide) halnum
  refine ⟨⟨List.cons_ne_nil _ _, ?_⟩, ?_⟩
  · simp only [List.forall_mem_cons, List.forall_mem_map]
    exact ⟨by decide, by decide, hword⟩
  · have hnumber : operand ('0' :: 'x' :: (Nat.toDigits 16 v).map f) = digits 16 ((Nat.toDigits 16 v).map f) := by
      simp [operand, number]
    rw [hnumber, digits_map_toDigits 16 v (by decide) f hread]

/-- A decimal numeral is a word, and the assembler reads its value. -/
theorem decimalNumeral_reads (v : Nat) : IsWord (Nat.toDigits 10 v) ∧ operand (Nat.toDigits 10 v) = some v := by
  have hdigits := forall_mem_toDigits (b := 10) (v := v) (P := fun c => c.isDigit = true) (by decide) isDigit_digitChar
  refine ⟨⟨Nat.toDigits_ne_nil, fun c hc => by simp [Char.isAlphanum, hdigits c hc]⟩, ?_⟩
  rw [operand_of_not_level (fun h => absurd (hdigits _ h) (by decide)) (fun h => absurd (hdigits _ h) (by decide)),
    number_of_isDigit hdigits]
  simpa using digits_map_toDigits 10 v (by decide) id fun d hd => hexDigit_digitChar d (hd.trans (by decide))

/-- Every spelling of an operand is a word, and the assembler reads its value (R102, log 23). -/
theorem SpellsOperand.reads {cs : List Char} {v : Nat} (h : SpellsOperand cs v) : IsWord cs ∧ operand cs = some v := by
  rcases h with rfl | rfl | rfl | ⟨rfl, rfl⟩ | ⟨rfl, rfl⟩
  · exact decimalNumeral_reads v
  · simpa using hexNumeral_reads v (f := id) isAlphanum_digitChar hexDigit_digitChar
  · exact hexNumeral_reads v isAlphanum_toUpper_digitChar hexDigit_toUpper_digitChar
  · simp [IsWord, operand]
  · simp [IsWord, operand]

/-! ### A printed form read back -/

theorem operandList_operandTokens {texts : List (List Char)} {vs : List Nat} (h : List.Forall₂ SpellsOperand texts vs)
    (hne : texts ≠ []) : operandList (operandTokens texts) = some vs := by
  induction h with
  | nil => exact absurd rfl hne
  | @cons w v ws vs hw hws ih =>
    cases hws with
    | nil => simp [operandTokens, operandList, hw.reads]
    | cons _ _ =>
      have hrest := ih (List.cons_ne_nil _ _)
      simp [operandTokens, operandList, hw.reads, hrest]

theorem operandTokens_cons_eq (w : List Char) (ws : List (List Char)) : ∃ rest, operandTokens (w :: ws) = .word w :: rest := by
  cases ws <;> exact ⟨_, rfl⟩

theorem isWord_of_spells {texts : List (List Char)} {vs : List Nat} (h : List.Forall₂ SpellsOperand texts vs) :
    ∀ w ∈ texts, IsWord w := by
  induction h with
  | nil => exact List.forall_mem_nil _
  | cons hw _ ih => exact List.forall_mem_cons.2 ⟨hw.reads.1, ih⟩

/-- The tokens of a printed form give its operands back; a bracketed array is not empty, because a machine has a channel. -/
theorem operands_formTokens {inBrackets : Bool} {texts : List (List Char)} {vs : List Nat}
    (h : List.Forall₂ SpellsOperand texts vs) (hne : inBrackets = true → vs ≠ []) :
    operands (formTokens inBrackets texts) = some (inBrackets, vs) := by
  cases inBrackets
  · cases h with
    | nil => rfl
    | cons hw hws =>
      have hlist := operandList_operandTokens (.cons hw hws) (List.cons_ne_nil _ _)
      obtain ⟨rest, htokens⟩ := operandTokens_cons_eq _ _
      rw [htokens] at hlist
      simp [formTokens, htokens, operands, hlist]
  · have hlist := operandList_operandTokens h fun ht => hne rfl (by subst ht; cases h; rfl)
    simp [formTokens, operands, hlist]

/-- The mnemonics of the table are words (R102, R103). -/
theorem isWord_mnemonic {cfg : Config} {i : Instr} {f : SourceForm} (hf : f ∈ sourceForms cfg i) :
    IsWord f.mnemonic.toList := by
  cases i with
  | setpoll on =>
    obtain rfl | rfl : f = _ ∨ f = _ := by simpa [sourceForms] using hf
    · simp [IsWord]
    · cases on <;> simp [IsWord]
  | retarget ch on =>
    obtain rfl | rfl : f = _ ∨ f = _ := by simpa [sourceForms] using hf
    · simp [IsWord]
    · cases on <;> simp [IsWord]
  | _ =>
    obtain rfl := List.mem_singleton.1 hf
    simp [IsWord]

/-- Settles O6: the printed characters are tokenized to the port's beginning, the mnemonic and the form's operands, which is a
line that O5 says has the command's words. -/
theorem printedLinesAssemble : Obligations.PrintedLinesAssemble := by
  intro cfg i f texts a comment hlegal hwf hf hspells text
  obtain ⟨hpos, hn, -⟩ := id hlegal
  obtain ⟨-, hfits⟩ := assembleOp_of_mem_sourceForms (m := f.mnemonic.toList) hn hf String.ofList_toList hwf
  have hne : f.inBrackets = true → f.operands ≠ [] := fun hb hnil => by
    simp [arrayFits, hb, hnil] at hfits
    omega
  have hwords := isWord_of_spells hspells
  have hassembles : ∀ rest, IsLineEnd rest → assembleLine cfg (String.ofList (text ++ rest)) = some (a, encode i) := by
    intro rest hend
    refine (assembledLinesAreCommands cfg _ a _ hlegal).2 ⟨f.mnemonic.toList, formTokens f.inBrackets texts, f.inBrackets,
      f.operands, i, ?_, operands_formTokens hspells hne, ?_, hwf, rfl⟩
    · rw [String.toList_ofList, List.append_assoc, tokenize_portPrefixText, tokenize_sourceText (isWord_mnemonic hf) hwords hend]
    · rw [String.ofList_toList]
      exact hf
  refine ⟨?_, hassembles _ (.inr ⟨comment, rfl⟩)⟩
  simpa using hassembles [] (.inl rfl)

end Sys2Proof.Machine
